-- ==== Sys2Proof/Word.lean ====
section
/-! DEFINITION. The word types of the engine (00_scope.md R11): a wire byte, a wire word and a double word.
The engine moves bytes; its byte strings are lists of bytes, first wire byte first (R13). -/

namespace Sys2Proof

/-- A wire byte: 8 bits (R11). -/
abbrev Byte := BitVec 8

/-- A wire word, the unit of a word instruction's address and of the CRC: 16 bits (R11). -/
abbrev Word := BitVec 16

/-- A double-word instruction's address: 32 bits (R11). -/
abbrev Dword := BitVec 32

/-- A byte string `bs`: a finite sequence of bytes (R13). -/
abbrev ByteString := List Byte

end Sys2Proof
end

