-- ==== Sys2Proof/Syntax/Operand.lean ====
section
/-! DEFINITION. The operand kinds of the two instruction layers (30_encoding.md R86): the wire instruction record
(41_instruction_model.md R120), typed values (42_encode.md R147), shapes (43_decode.md R180), and the names of the
error kinds (60_exceptions.md R280) and of the refusal reasons (R290). -/

namespace Sys2Proof

/-- The closed, non-extensible set of wire instructions with their typed fields (R120). The double-word variants
carry the names of the source's §3 (90_conflicts.md C4). -/
inductive WireInstr where
  | registerWrite (page addr : Byte)
  | registerRead (page addr len : Byte)
  | wordWrite (addr : Word)
  | wordRead (addr : Word) (len : Byte)
  | curveWrite (ch : Byte)
  | dwordWrite (addr : Dword)
  | dwordRead (addr : Dword) (len : Byte)
deriving DecidableEq, Repr

/-- The fixed-width numeric kinds: unsigned and signed integers of 8 to 128 bits and the two float formats (R147). -/
inductive NumKind where
  | u8 | u16 | u32 | u64 | u128
  | i8 | i16 | i32 | i64 | i128
  | f32 | f64
deriving DecidableEq, Repr

/-- Width in bytes of a numeric kind (20_memory.md R58). -/
abbrev NumKind.size : NumKind → Nat
  | .u8 | .i8 => 1
  | .u16 | .i16 => 2
  | .u32 | .i32 | .f32 => 4
  | .u64 | .i64 | .f64 => 8
  | .u128 | .i128 => 16

/-- A numeric value: its kind and its bit pattern. A signed value is held as its two's-complement pattern (R12) and a
float as its IEEE 754 pattern (R147), so a value out of its kind's range cannot be expressed. -/
structure Num where
  kind : NumKind
  pattern : BitVec (8 * kind.size)
deriving DecidableEq, Repr

/-- The five unsupported value kinds (R10, R147). -/
inductive UnsupKind where
  | map | str | seq | option | bytes
deriving DecidableEq, Repr

mutual

/-- A typed value (R147). The kinds are exactly these (R148): a unit value is `agg .nil`, a newtype a one-field `agg`. -/
inductive Value where
  | num (n : Num)
  | bool (b : Bool)
  | agg (fields : Values)
  | enum (discriminant : BitVec 32) (fields : Values)
  | unsup (k : UnsupKind)
deriving DecidableEq, Repr

/-- The fields of an aggregate or of an enum variant, in declaration order (R147). -/
inductive Values where
  | nil
  | cons (v : Value) (vs : Values)
deriving DecidableEq, Repr

end

mutual

/-- A shape, which tells the decoder what to read (R180). -/
inductive Shape where
  | num (k : NumKind)
  | bool
  | agg (fields : Shapes)
  | enum (variants : Variants)
  | unsup (k : UnsupKind)
deriving DecidableEq, Repr

/-- The field shapes of an aggregate, in declaration order (R180). -/
inductive Shapes where
  | nil
  | cons (t : Shape) (ts : Shapes)
deriving DecidableEq, Repr

/-- The variants of an enum shape; each is given by the field shapes of its aggregate (R180). -/
inductive Variants where
  | nil
  | cons (fields : Shapes) (vs : Variants)
deriving DecidableEq, Repr

end

/-- The error kinds of the engine, each a returned value and never a trap (60_exceptions.md R280, R283). -/
inductive ErrKind where
  | badHeader | badLen | tooLarge | badInstruction | unexpectedEnd
  | badCrc
  | badBool | badEnumDiscriminant | notYetImplemented | wontImplement
  | bufferFull
deriving DecidableEq, Repr

/-- Why a command is refused (60_exceptions.md R290). A refusal is not an error kind (R291). -/
inductive RefuseReason where
  | illegalCommand | badCapacity | builderBusy | noBuilder | noWindow | accUninit
deriving DecidableEq, Repr

end Sys2Proof
end

