-- ==== Sys2Proof/Syntax.lean ====
section
/-! DEFINITION. The instructions of spec/opcode_table.json, one constructor per row, in the table's order: the seven
wire instructions (30_encoding.md R73) and the fourteen host commands (R87). -/

namespace Sys2Proof

/-- One row of the opcode table with its operands. -/
inductive Instr where
  -- the wire layer, 41_instruction_model.md R123 to R129
  | registerWrite (page addr : Byte)
  | registerRead (page addr len : Byte)
  | wordWrite (addr : Word)
  | wordRead (addr : Word) (len : Byte)
  | curveWrite (ch : Byte)
  | dwordWrite (addr : Dword)
  | dwordRead (addr : Dword) (len : Byte)
  -- the CRC unit, 40_checksum.md R103 to R105
  | crcInit
  | crcFeed (data : ByteString)
  | crcRead
  -- the TX framer, 44_frame_builder.md R211 to R215
  | txOpen (cap : Byte) (i : WireInstr)
  | txPush (v : Value)
  | txFinal (crc : Bool)
  | txAbort
  -- the whole-frame parser, 45_frame_parser.md R238 and R239
  | rxParse (crc : Bool) (input : ByteString)
  | rxParseRem (crc : Bool) (input : ByteString)
  -- the decode unit, 43_decode.md R190 and R191
  | decLoad (window : ByteString)
  | decTake (t : Shape)
  -- the accumulator, 46_accumulator.md R250, R260 and R251
  | accInit (crc : Bool)
  | accReset
  | accFeed (input : ByteString)
deriving DecidableEq, Repr

/-- The wire row that carries a wire instruction record: the records of R120 and the wire rows of the table are the
same set. -/
def WireInstr.toInstr : WireInstr → Instr
  | .registerWrite page addr => .registerWrite page addr
  | .registerRead page addr len => .registerRead page addr len
  | .wordWrite addr => .wordWrite addr
  | .wordRead addr len => .wordRead addr len
  | .curveWrite ch => .curveWrite ch
  | .dwordWrite addr => .dwordWrite addr
  | .dwordRead addr len => .dwordRead addr len

end Sys2Proof
end

