-- ==== Sys2Proof/WellFormed.lean ====
section
/-! DEFINITION. Which instructions the encodings of 30_encoding.md can express: a byte string of at most 65535 bytes
(R86), at most 255 fields (R88, R89), 1 to 65535 variants (R89). Everything else the types already bound. -/

namespace Sys2Proof

/-- Number of fields, the descriptor's `b8 n` (R88). -/
def Values.length : Values → Nat
  | .nil => 0
  | .cons _ vs => vs.length + 1

/-- Number of field shapes (R89). -/
def Shapes.length : Shapes → Nat
  | .nil => 0
  | .cons _ ts => ts.length + 1

/-- Number of variants `m` (R89). -/
def Variants.length : Variants → Nat
  | .nil => 0
  | .cons _ vs => vs.length + 1

mutual

/-- A value a value descriptor can express (R88): every field count fits its byte. -/
def Value.wf : Value → Bool
  | .num _ => true
  | .bool _ => true
  | .agg fs => decide (fs.length ≤ 255) && fs.wf
  | .enum _ fs => decide (fs.length ≤ 255) && fs.wf
  | .unsup _ => true

/-- Every field is expressible. -/
def Values.wf : Values → Bool
  | .nil => true
  | .cons v vs => v.wf && vs.wf

end

mutual

/-- A shape a shape descriptor can express (R89): field counts fit a byte, and an enum has 1 to 65535 variants. -/
def Shape.wf : Shape → Bool
  | .num _ => true
  | .bool => true
  | .agg ts => decide (ts.length ≤ 255) && ts.wf
  | .enum vs => decide (1 ≤ vs.length) && (decide (vs.length ≤ 65535) && vs.wf)
  | .unsup _ => true

/-- Every field shape is expressible. -/
def Shapes.wf : Shapes → Bool
  | .nil => true
  | .cons t ts => t.wf && ts.wf

/-- Every variant's aggregate is expressible. -/
def Variants.wf : Variants → Bool
  | .nil => true
  | .cons ts vs => (decide (ts.length ≤ 255) && ts.wf) && vs.wf

end

/-- A byte-string operand fits the 2-byte length of a `bstr` (R86). -/
def ByteString.fits (bs : ByteString) : Bool := decide (bs.length ≤ 65535)

/-- An instruction that has an encoding (R73, R86 to R89). -/
def Instr.wf : Instr → Bool
  | .registerWrite _ _ => true
  | .registerRead _ _ _ => true
  | .wordWrite _ => true
  | .wordRead _ _ => true
  | .curveWrite _ => true
  | .dwordWrite _ => true
  | .dwordRead _ _ => true
  | .crcInit => true
  | .crcFeed data => ByteString.fits data
  | .crcRead => true
  | .txOpen _ _ => true
  | .txPush v => v.wf
  | .txFinal _ => true
  | .txAbort => true
  | .rxParse _ input => ByteString.fits input
  | .rxParseRem _ input => ByteString.fits input
  | .decLoad window => ByteString.fits window
  | .decTake t => t.wf
  | .accInit _ => true
  | .accReset => true
  | .accFeed input => ByteString.fits input

end Sys2Proof
end

