-- ==== Sys2Proof/Decode.lean ====
section
/-! DEFINITION. The two decoders and the two encoders of 30_encoding.md and 41_instruction_model.md, on byte strings:
the wire instruction (R73, R121, R122) and the host command (R85 to R90). Decoding is total on any bytes and rejects by
name. The byte-order helpers `be_N`, `from_be` and `le_2` of 00_scope.md R13 stand here. -/

namespace Sys2Proof

/-! ## Byte order (00_scope.md R13, 20_memory.md R53, R54) -/

/-- `be_n(v)`: the `n`-byte big-endian string of `v`, most significant byte first (R13). -/
def be : (n v : Nat) → ByteString
  | 0, _ => []
  | n + 1, v => BitVec.ofNat 8 (v / 256 ^ n) :: be n v

/-- `from_be(bs)`: the unsigned integer whose big-endian bytes are `bs` (R13). -/
def fromBe : ByteString → Nat
  | [] => 0
  | b :: bs => b.toNat * 256 ^ bs.length + fromBe bs

/-- `le_2(v)`: the two bytes of a 16-bit value, the low byte first (R13); the CRC trailer's order (R54). -/
def le2 (v : Word) : ByteString := [v.setWidth 8, (v >>> 8).setWidth 8]

/-- The 16-bit value of a little-endian trailer `lo hi` (45_frame_parser.md R235). -/
def fromLe2 (lo hi : Byte) : Word := lo.setWidth 16 ||| (hi.setWidth 16 <<< 8)

/-- The first `n` bytes and the rest, when there are `n` bytes. -/
def takeExact : Nat → ByteString → Option (ByteString × ByteString)
  | 0, bs => some ([], bs)
  | _ + 1, [] => none
  | n + 1, b :: bs => (takeExact n bs).map fun r => (b :: r.1, r.2)

/-! ## The wire instruction (30_encoding.md R73, 41_instruction_model.md R120 to R129) -/

/-- `opcode(i)`, the variant's opcode (R73). -/
def WireInstr.opcode : WireInstr → Byte
  | .registerWrite .. => 0x80
  | .registerRead .. => 0x81
  | .wordWrite .. => 0x82
  | .wordRead .. => 0x83
  | .curveWrite .. => 0x84
  | .dwordWrite .. => 0x86
  | .dwordRead .. => 0x87

/-- `FIELDLEN(op)` for the seven opcodes, and `none` for the 249 illegal byte values (R73, R75, R76). -/
def fieldLen (op : Byte) : Option Nat :=
  match op.toNat with
  | 0x80 => some 2
  | 0x81 => some 3
  | 0x82 => some 2
  | 0x83 => some 3
  | 0x84 => some 1
  | 0x86 => some 4
  | 0x87 => some 5
  | _ => none

/-- The instruction's fields in wire order, each big-endian at its width (R73, R74). -/
def WireInstr.fields : WireInstr → ByteString
  | .registerWrite page addr => [page, addr]
  | .registerRead page addr len => [page, addr, len]
  | .wordWrite addr => be 2 addr.toNat
  | .wordRead addr len => be 2 addr.toNat ++ [len]
  | .curveWrite ch => [ch]
  | .dwordWrite addr => be 4 addr.toNat
  | .dwordRead addr len => be 4 addr.toNat ++ [len]

/-- `instr_encode(i)` (R122). -/
def instrEncode (i : WireInstr) : ByteString := i.opcode :: i.fields

/-- The variant of `op` with its fields cut from `f`, each `from_be` of its bytes (R121); `none` where `op` is none of
the seven opcodes or `f` is not `FIELDLEN(op)` bytes long. -/
def instrOfFields (op : Byte) (f : ByteString) : Option WireInstr :=
  match op.toNat, f with
  | 0x80, [page, addr] => some (.registerWrite page addr)
  | 0x81, [page, addr, len] => some (.registerRead page addr len)
  | 0x82, [a1, a0] => some (.wordWrite (BitVec.ofNat 16 (fromBe [a1, a0])))
  | 0x83, [a1, a0, len] => some (.wordRead (BitVec.ofNat 16 (fromBe [a1, a0])) len)
  | 0x84, [ch] => some (.curveWrite ch)
  | 0x86, [a3, a2, a1, a0] => some (.dwordWrite (BitVec.ofNat 32 (fromBe [a3, a2, a1, a0])))
  | 0x87, [a3, a2, a1, a0, len] => some (.dwordRead (BitVec.ofNat 32 (fromBe [a3, a2, a1, a0])) len)
  | _, _ => none

/-- `instr_decode(data)` (R121): the instruction and the number of bytes it took. The opcode check comes before the
length check, and bytes after the fields are not read. R121 takes at least one byte; an empty `data`, which no frame
gives, is answered as a missing opcode (DESIGN CHOICE, log entry 8). -/
def instrDecode : ByteString → Except ErrKind (WireInstr × Nat)
  | [] => .error .unexpectedEnd
  | op :: rest =>
    match fieldLen op with
    | none => .error .badInstruction
    | some n =>
      match takeExact n rest with
      | none => .error .unexpectedEnd
      | some (f, _) =>
        match instrOfFields op f with
        | some i => .ok (i, 1 + n)
        | none => .error .badInstruction

/-! ## Host command operands (30_encoding.md R86, R88, R89) -/

/-- Why a byte string is no legal command (R90). -/
inductive Illegal where
  /-- an unlisted command byte -/
  | commandByte
  /-- a flag byte other than 00 or 01 -/
  | flagByte
  /-- a Bool data byte other than 00 or 01 -/
  | boolByte
  /-- an unlisted value tag -/
  | valueTag
  /-- an unlisted shape tag -/
  | shapeTag
  /-- an Enum shape with no variant -/
  | noVariant
  /-- an Enum shape with a variant descriptor that is not an Aggregate -/
  | variantTag
  /-- an `instr` operand with an illegal opcode -/
  | opcode
  /-- the bytes end before the last operand -/
  | truncated
  /-- bytes follow the last operand -/
  | trailing
deriving DecidableEq, Repr


/-- The next `n` bytes. -/
def parseExact (n : Nat) (bs : ByteString) : Except Illegal (ByteString × ByteString) :=
  match takeExact n bs with
  | some r => .ok r
  | none => .error .truncated

/-- A `b8` operand (R86). -/
def parseB8 : ByteString → Except Illegal (Byte × ByteString)
  | [] => .error .truncated
  | b :: bs => .ok (b, bs)

/-- A `flag` operand, `00` or `01` (R86). -/
def parseFlag : ByteString → Except Illegal (Bool × ByteString)
  | [] => .error .truncated
  | b :: bs => if b = 0 then .ok (false, bs) else if b = 1 then .ok (true, bs) else .error .flagByte

/-- A `bstr` operand: a 2-byte big-endian length, then that many bytes (R86). -/
def parseBstr : ByteString → Except Illegal (ByteString × ByteString)
  | hi :: lo :: bs => parseExact (fromBe [hi, lo]) bs
  | _ => .error .truncated

/-- An `instr` operand: an opcode byte and its field bytes (R86, R90). -/
def parseInstr : ByteString → Except Illegal (WireInstr × ByteString)
  | [] => .error .truncated
  | op :: bs =>
    match instrDecode (op :: bs) with
    | .ok (i, n) => .ok (i, (op :: bs).drop n)
    | .error .badInstruction => .error .opcode
    | .error _ => .error .truncated

/-- The tag of a numeric kind, the same in values and shapes (R88, R89). -/
def NumKind.tag : NumKind → Byte
  | .u8 => 0x01 | .u16 => 0x02 | .u32 => 0x03 | .u64 => 0x04 | .u128 => 0x05
  | .i8 => 0x11 | .i16 => 0x12 | .i32 => 0x13 | .i64 => 0x14 | .i128 => 0x15
  | .f32 => 0x23 | .f64 => 0x24

/-- The tag of an unsupported kind (R88). -/
def UnsupKind.tag : UnsupKind → Byte
  | .map => 0xF0 | .str => 0xF1 | .seq => 0xF2 | .option => 0xF3 | .bytes => 0xF4

/-- What a descriptor's tag byte announces (R88, R89). -/
inductive Tag where
  | num (k : NumKind)
  | bool
  | agg
  | enum
  | unsup (k : UnsupKind)
deriving DecidableEq, Repr

/-- The tag table of R88; `none` for an unlisted tag. -/
def tagOf (b : Byte) : Option Tag :=
  match b.toNat with
  | 0x01 => some (.num .u8)
  | 0x02 => some (.num .u16)
  | 0x03 => some (.num .u32)
  | 0x04 => some (.num .u64)
  | 0x05 => some (.num .u128)
  | 0x11 => some (.num .i8)
  | 0x12 => some (.num .i16)
  | 0x13 => some (.num .i32)
  | 0x14 => some (.num .i64)
  | 0x15 => some (.num .i128)
  | 0x23 => some (.num .f32)
  | 0x24 => some (.num .f64)
  | 0x30 => some .bool
  | 0x40 => some .agg
  | 0x50 => some .enum
  | 0xF0 => some (.unsup .map)
  | 0xF1 => some (.unsup .str)
  | 0xF2 => some (.unsup .seq)
  | 0xF3 => some (.unsup .option)
  | 0xF4 => some (.unsup .bytes)
  | _ => none

/-- The numeric value of kind `k` whose pattern is the integer `u`. -/
def Num.ofNat (k : NumKind) (u : Nat) : Num := ⟨k, BitVec.ofNat (8 * k.size) u⟩

/-- A Bool's data byte in a value descriptor, `00` or `01` (R88). -/
def parseBoolByte : ByteString → Except Illegal (Bool × ByteString)
  | [] => .error .truncated
  | b :: bs => if b = 0 then .ok (false, bs) else if b = 1 then .ok (true, bs) else .error .boolByte

mutual

/-- A value descriptor (R88). The first argument is fuel, one element for each level and each field: twice the
descriptor's own bytes always suffice, and a list makes it cheap to evaluate. -/
def parseValue : (fuel bs : ByteString) → Except Illegal (Value × ByteString)
  | _, [] => .error .truncated
  | [], _ :: _ => .error .truncated
  | _ :: fuel, tag :: bs =>
    match tagOf tag with
    | none => .error .valueTag
    | some (.num k) => do
      let (data, bs) ← parseExact k.size bs
      return (.num (Num.ofNat k (fromBe data)), bs)
    | some .bool => do
      let (b, bs) ← parseBoolByte bs
      return (.bool b, bs)
    | some .agg => do
      let (n, bs) ← parseB8 bs
      let (fs, bs) ← parseValues fuel n.toNat bs
      return (.agg fs, bs)
    | some .enum => do
      let (d, bs) ← parseExact 4 bs
      let (n, bs) ← parseB8 bs
      let (fs, bs) ← parseValues fuel n.toNat bs
      return (.enum (BitVec.ofNat 32 (fromBe d)) fs, bs)
    | some (.unsup k) => .ok (.unsup k, bs)

/-- `n` value descriptors, one after the other (R88). -/
def parseValues : (fuel : ByteString) → (n : Nat) → (bs : ByteString) → Except Illegal (Values × ByteString)
  | _, 0, bs => .ok (.nil, bs)
  | [], _ + 1, _ => .error .truncated
  | _ :: fuel, n + 1, bs => do
    let (v, bs) ← parseValue fuel bs
    let (vs, bs) ← parseValues fuel n bs
    return (.cons v vs, bs)

end

mutual

/-- A shape descriptor (R89); fuel as for `parseValue`. -/
def parseShape : (fuel bs : ByteString) → Except Illegal (Shape × ByteString)
  | _, [] => .error .truncated
  | [], _ :: _ => .error .truncated
  | _ :: fuel, tag :: bs =>
    match tagOf tag with
    | none => .error .shapeTag
    | some (.num k) => .ok (.num k, bs)
    | some .bool => .ok (.bool, bs)
    | some .agg => do
      let (n, bs) ← parseB8 bs
      let (ts, bs) ← parseShapes fuel n.toNat bs
      return (.agg ts, bs)
    | some .enum => do
      let (m, bs) ← parseExact 2 bs
      if fromBe m = 0 then .error .noVariant
      else do
        let (vs, bs) ← parseVariants fuel (fromBe m) bs
        return (.enum vs, bs)
    | some (.unsup k) => .ok (.unsup k, bs)

/-- `n` shape descriptors, one after the other (R89). -/
def parseShapes : (fuel : ByteString) → (n : Nat) → (bs : ByteString) → Except Illegal (Shapes × ByteString)
  | _, 0, bs => .ok (.nil, bs)
  | [], _ + 1, _ => .error .truncated
  | _ :: fuel, n + 1, bs => do
    let (t, bs) ← parseShape fuel bs
    let (ts, bs) ← parseShapes fuel n bs
    return (.cons t ts, bs)

/-- `n` variant descriptors, each an Aggregate shape descriptor (R89, R90). -/
def parseVariants : (fuel : ByteString) → (n : Nat) → (bs : ByteString) → Except Illegal (Variants × ByteString)
  | _, 0, bs => .ok (.nil, bs)
  | [], _ + 1, _ => .error .truncated
  | _ :: _, _ + 1, [] => .error .truncated
  | _ :: fuel, n + 1, tag :: bs =>
    if tagOf tag = some .agg then do
      let (k, bs) ← parseB8 bs
      let (ts, bs) ← parseShapes fuel k.toNat bs
      let (vs, bs) ← parseVariants fuel n bs
      return (.cons ts vs, bs)
    else .error .variantTag

end

/-- A `value` operand (R86, R88). -/
def parseValueOperand (bs : ByteString) : Except Illegal (Value × ByteString) := parseValue (bs ++ bs) bs

/-- A `shape` operand (R86, R89). -/
def parseShapeOperand (bs : ByteString) : Except Illegal (Shape × ByteString) := parseShape (bs ++ bs) bs

/-! ## The host command (30_encoding.md R85, R87, R90) -/

/-- One host command and the bytes behind it: the command byte (R87), then the operands in the order R87 lists. A
transaction without any byte has no command byte; neither R85 nor R90's list names it, and it is illegal like a command
whose bytes end too early (DESIGN CHOICE, log entry 16). -/
def decodeCommand : ByteString → Except Illegal (Instr × ByteString)
  | [] => .error .truncated
  | c :: bs =>
    match c.toNat with
    | 0x01 => .ok (.crcInit, bs)
    | 0x02 => do
      let (data, bs) ← parseBstr bs
      return (.crcFeed data, bs)
    | 0x03 => .ok (.crcRead, bs)
    | 0x10 => do
      let (cap, bs) ← parseB8 bs
      let (i, bs) ← parseInstr bs
      return (.txOpen cap i, bs)
    | 0x11 => do
      let (v, bs) ← parseValueOperand bs
      return (.txPush v, bs)
    | 0x12 => do
      let (crc, bs) ← parseFlag bs
      return (.txFinal crc, bs)
    | 0x13 => .ok (.txAbort, bs)
    | 0x20 => do
      let (crc, bs) ← parseFlag bs
      let (input, bs) ← parseBstr bs
      return (.rxParse crc input, bs)
    | 0x21 => do
      let (crc, bs) ← parseFlag bs
      let (input, bs) ← parseBstr bs
      return (.rxParseRem crc input, bs)
    | 0x30 => do
      let (window, bs) ← parseBstr bs
      return (.decLoad window, bs)
    | 0x31 => do
      let (t, bs) ← parseShapeOperand bs
      return (.decTake t, bs)
    | 0x40 => do
      let (crc, bs) ← parseFlag bs
      return (.accInit crc, bs)
    | 0x41 => .ok (.accReset, bs)
    | 0x42 => do
      let (input, bs) ← parseBstr bs
      return (.accFeed input, bs)
    | _ => .error .commandByte

/-- A host transaction is exactly one command (R85): bytes behind the last operand make it illegal (DESIGN CHOICE,
log entry 7). -/
def decodeTransaction (bs : ByteString) : Except Illegal Instr :=
  match decodeCommand bs with
  | .ok (i, []) => .ok i
  | .ok (_, _ :: _) => .error .trailing
  | .error e => .error e

/-- One row of the opcode table, of either layer, and the bytes behind it: the wire opcodes (R73) and the command
codes (R87) have no byte in common, so the first byte tells the layer. -/
def decodeRow : ByteString → Except Illegal (Instr × ByteString)
  | [] => .error .truncated
  | b :: bs =>
    match fieldLen b with
    | some _ => do
      let (i, bs) ← parseInstr (b :: bs)
      return (i.toInstr, bs)
    | none => decodeCommand (b :: bs)

/-! ## The encoders -/

/-- The first byte of an instruction: the opcode of a wire row (R73) or the command code (R87), as the opcode table's
`match` column gives it. -/
def Instr.opcode : Instr → Byte
  | .registerWrite .. => 0x80
  | .registerRead .. => 0x81
  | .wordWrite .. => 0x82
  | .wordRead .. => 0x83
  | .curveWrite .. => 0x84
  | .dwordWrite .. => 0x86
  | .dwordRead .. => 0x87
  | .crcInit => 0x01
  | .crcFeed .. => 0x02
  | .crcRead => 0x03
  | .txOpen .. => 0x10
  | .txPush .. => 0x11
  | .txFinal .. => 0x12
  | .txAbort => 0x13
  | .rxParse .. => 0x20
  | .rxParseRem .. => 0x21
  | .decLoad .. => 0x30
  | .decTake .. => 0x31
  | .accInit .. => 0x40
  | .accReset => 0x41
  | .accFeed .. => 0x42

/-- A flag byte (R86). -/
def encodeFlag (b : Bool) : Byte := if b then 1 else 0

/-- A `bstr` operand (R86). -/
def encodeBstr (bs : ByteString) : ByteString := be 2 bs.length ++ bs

/-- The big-endian bytes of a numeric value's pattern (R88, 42_encode.md R150). -/
def Num.image (n : Num) : ByteString := be n.kind.size n.pattern.toNat

mutual

/-- The descriptor of a value (R88). -/
def encodeValue : Value → ByteString
  | .num n => n.kind.tag :: n.image
  | .bool b => [0x30, encodeFlag b]
  | .agg fs => 0x40 :: BitVec.ofNat 8 fs.length :: encodeValues fs
  | .enum d fs => 0x50 :: (be 4 d.toNat ++ BitVec.ofNat 8 fs.length :: encodeValues fs)
  | .unsup k => [k.tag]

/-- The descriptors of the fields, one after the other (R88). -/
def encodeValues : Values → ByteString
  | .nil => []
  | .cons v vs => encodeValue v ++ encodeValues vs

end

mutual

/-- The descriptor of a shape (R89). -/
def encodeShape : Shape → ByteString
  | .num k => [k.tag]
  | .bool => [0x30]
  | .agg ts => 0x40 :: BitVec.ofNat 8 ts.length :: encodeShapes ts
  | .enum vs => 0x50 :: (be 2 vs.length ++ encodeVariants vs)
  | .unsup k => [k.tag]

/-- The descriptors of the field shapes (R89). -/
def encodeShapes : Shapes → ByteString
  | .nil => []
  | .cons t ts => encodeShape t ++ encodeShapes ts

/-- The descriptors of the variants, each an Aggregate (R89). -/
def encodeVariants : Variants → ByteString
  | .nil => []
  | .cons ts vs => 0x40 :: BitVec.ofNat 8 ts.length :: (encodeShapes ts ++ encodeVariants vs)

end

/-- The bytes of an instruction: a wire instruction's wire form (R122), a host command's command byte and operands
(R87). -/
def encode : Instr → ByteString
  | .registerWrite page addr => instrEncode (.registerWrite page addr)
  | .registerRead page addr len => instrEncode (.registerRead page addr len)
  | .wordWrite addr => instrEncode (.wordWrite addr)
  | .wordRead addr len => instrEncode (.wordRead addr len)
  | .curveWrite ch => instrEncode (.curveWrite ch)
  | .dwordWrite addr => instrEncode (.dwordWrite addr)
  | .dwordRead addr len => instrEncode (.dwordRead addr len)
  | .crcInit => [0x01]
  | .crcFeed data => 0x02 :: encodeBstr data
  | .crcRead => [0x03]
  | .txOpen cap i => 0x10 :: cap :: instrEncode i
  | .txPush v => 0x11 :: encodeValue v
  | .txFinal crc => [0x12, encodeFlag crc]
  | .txAbort => [0x13]
  | .rxParse crc input => 0x20 :: encodeFlag crc :: encodeBstr input
  | .rxParseRem crc input => 0x21 :: encodeFlag crc :: encodeBstr input
  | .decLoad window => 0x30 :: encodeBstr window
  | .decTake t => 0x31 :: encodeShape t
  | .accInit crc => [0x40, encodeFlag crc]
  | .accReset => [0x41]
  | .accFeed input => 0x42 :: encodeBstr input

/-! ## The host's numbering of an instruction's bits -/

/-- The bytes of a table word: byte `j` is bits `8j+7..8j`, the first byte at the lowest index. -/
def tableBytes : (n w : Nat) → ByteString
  | 0, _ => []
  | n + 1, w => BitVec.ofNat 8 w :: tableBytes n (w / 256)

/-- A table word's bytes with every byte behind them zero. A byte-string operand is the longest operand whose length is
bounded, 65535 bytes behind a 2-byte length, and no zero byte starts a value or shape field, so this room holds every
instruction the word can begin. -/
def tableWordBytes (nbits w : Nat) : ByteString := tableBytes (nbits / 8) w ++ List.replicate 65539 0

/-- The instruction the decoder reads from a table word. -/
def decodeTableWord (nbits w : Nat) : Option Instr :=
  match decodeRow (tableWordBytes nbits w) with
  | .ok (i, _) => some i
  | .error _ => none

end Sys2Proof
end

