-- ==== Sys2Proof/Config.lean ====
section
/-! DEFINITION. The implementation parameters of 00_scope.md R6 to R10, which are arguments of the model fixed for the
engine's lifetime (70_reset_and_hazards.md R313), and the free values: what 93_implementation_defined.md lets take any
value. A free value is an opaque constant without a body, so no proof can see what it is. -/

namespace Sys2Proof

/-- The two error kinds an unsupported value kind may be mapped to (R10). -/
inductive UnsupErr where
  | notYetImplemented | wontImplement
deriving DecidableEq, Repr, Inhabited

/-- The engine's parameters as plain data. -/
structure Config.Params where
  /-- `P_HEADER` (R6). -/
  header : Word
  /-- `P_MIN_BUILD_CAP` (R8). -/
  minBuildCap : Nat
  /-- `P_ACC_CAP` (R9). -/
  accCap : Nat
  /-- `P_UNSUPPORTED_ERR` (R10), one field for each unsupported kind. -/
  mapErr : UnsupErr
  strErr : UnsupErr
  seqErr : UnsupErr
  optionErr : UnsupErr
  bytesErr : UnsupErr
deriving DecidableEq, Repr

/-- The constraint of R9: `MINLEN(true) <= P_ACC_CAP <= 255`. -/
abbrev Config.Params.Legal (p : Config.Params) : Prop := 5 ≤ p.accCap ∧ p.accCap ≤ 255

/-- How far the OPEN parameter `P_ACC_CAP` lies below 255 (R9): a free value, DESIGN CHOICE of form, log entry 2. -/
opaque Config.accCapBelowMax : Fin 251

/-- The OPEN parameter `P_UNSUPPORTED_ERR` (R10): a free value, log entry 2. -/
opaque Config.unsupportedErr : UnsupKind → UnsupErr

/-- A storage byte the spec leaves unspecified (42_encode.md R143, 10_state.md R25): free value number `draw` at index
`i`, log entry 3. -/
opaque Config.freeByte : (draw i : Nat) → Byte

/-- The storage cursor the spec leaves unspecified within a range after a failed push (R143): free value number
`draw`, reduced into the range by its user, log entry 3. -/
opaque Config.freeCursor : (draw : Nat) → Nat

/-- The parameters the engine is created with: the defaults of R6 and R8, and the two OPEN parameters free. -/
def Config.params : Config.Params where
  header := 0x5AA5
  minBuildCap := 8
  accCap := 255 - Config.accCapBelowMax.val
  mapErr := Config.unsupportedErr .map
  strErr := Config.unsupportedErr .str
  seqErr := Config.unsupportedErr .seq
  optionErr := Config.unsupportedErr .option
  bytesErr := Config.unsupportedErr .bytes

end Sys2Proof
end

