-- ==== Sys2Proof/Machine/State.lean ====
section
/-! DEFINITION. The engine's state as plain data: every field of 10_state.md R22 to R38, unit by unit, with the
parameters of R6 to R10 beside it and the model's own ports: what the host has yet to issue, and the outcome of the last
command. There are no registers, no program counter and no addressable memory (R20, R21, R50); the memories are the
byte buffers `tx.buf`, `acc.buf` and `dec.win`. -/

namespace Sys2Proof.Machine

/-- What stops the machine. Nothing does: "All errors are values, never abrupt termination", and no command traps
(60_exceptions.md R283), so there is no fault. -/
inductive Fault
deriving DecidableEq, Repr

/-- Why the model gives an instruction no meaning. The refusals of 60_exceptions.md R290 are not among these: the spec
gives a refused command an effect, so it is a next state with `refusedMark` set. -/
inductive Refusal where
  /-- An instruction whose meaning is not written yet, by its mnemonic. Raised by an arm of `exec` alone, and no arm
  raises it. Safe. -/
  | notModelled (mnemonic : String)
deriving DecidableEq, Repr

/-- `tx_state` (R23). -/
inductive TxState where
  | idle | opened | failed
deriving DecidableEq, Repr

/-- The TX framer's builder and its storage (R23 to R26). -/
structure TxUnit where
  /-- `tx_state` (R23). -/
  state : TxState
  /-- `tx_cap` (R24), 8 bits. -/
  cap : Byte
  /-- `tx_buf` (R25), `tx_cap` bytes. -/
  buf : ByteString
  /-- `tx_cur` (R26), `0..tx_cap`. -/
  cur : Nat
deriving DecidableEq, Repr

/-- `dec_state` (R27). -/
inductive DecState where
  | empty | ready | failed
deriving DecidableEq, Repr

/-- `dec_src` (R28): who loaded the window. -/
inductive DecSrc where
  | host | parser | acc
deriving DecidableEq, Repr

/-- The decode unit and the frame handle (R27 to R31). -/
structure DecUnit where
  /-- `dec_state` (R27). -/
  state : DecState
  /-- `dec_src` (R28). -/
  src : DecSrc
  /-- `dec_win` (R29); its bounds by who loaded it are the clauses `parserWin` and `accWin` of `DecUnit.Inv`, log
  entry 11. -/
  win : ByteString
  /-- `dec_pos` (R30), `0..|dec_win|`. -/
  pos : Nat
  /-- `rx_instr` (R31). -/
  instr : Option WireInstr
deriving DecidableEq, Repr

/-- `acc_state` (R33, 90_conflicts.md C2). -/
inductive AccState where
  | empty
  | headerByte1Seen
  | headerByte2Seen
  | payloadByte (rem : Nat)
deriving DecidableEq, Repr

/-- The accumulator (R32 to R37). -/
structure AccUnit where
  /-- `acc_init` (R32). -/
  init : Bool
  /-- `acc_state` (R33). -/
  state : AccState
  /-- `acc_crc` (R34). -/
  crc : Bool
  /-- `acc_len` (R35), 8 bits. -/
  len : Byte
  /-- `acc_buf` (R36), `P_ACC_CAP` bytes. -/
  buf : ByteString
  /-- `acc_widx` (R37), `0..P_ACC_CAP`. -/
  widx : Nat
deriving DecidableEq, Repr

/-- The outputs of an `ok` outcome (00_scope.md R15), as the command's rule lists them. -/
inductive Output where
  | unit
  | word (c : Word)
  | bytes (out : ByteString)
  | instr (i : WireInstr)
  | value (v : Value)
deriving DecidableEq, Repr

/-- The offset k of an outcome (20_memory.md R52): the command reports none, or always reports one (ACC_FEED), or
reports an optional one behind a presence byte (RX_PARSE_REM). -/
inductive Offset where
  | none
  | plain (k : Nat)
  | optional (k : Option Nat)
deriving DecidableEq, Repr

/-- The outcome of a command (00_scope.md R15). -/
inductive Reply where
  | ok (out : Output) (k : Offset)
  | consumed
  | err (e : ErrKind) (k : Offset)
  | refused (r : RefuseReason)
deriving DecidableEq, Repr

/-- What the outside puts before the engine, one at a time (R19). -/
inductive Input where
  /-- A host command as its bytes (30_encoding.md R85). -/
  | command (bytes : ByteString)
  /-- A frame's data put before the shared frame-body stage by itself (45_frame_parser.md R231, R236): the model's own
  port, through which a wire instruction is one step (DESIGN CHOICE, log entry 1). Of longer data the first 255 bytes
  count, the most a length byte can declare (30_encoding.md R72). -/
  | frameData (data : ByteString)
  /-- The engine is created anew (70_reset_and_hazards.md R310, R312). -/
  | reset
deriving DecidableEq, Repr

/-- The state of the machine. -/
structure State where
  /-- `P_HEADER`, `P_MIN_BUILD_CAP`, `P_ACC_CAP` and `P_UNSUPPORTED_ERR` (R6 to R10): arguments of the model that no
  step changes (R313). -/
  params : Config.Params
  /-- `crc_acc` (R22). -/
  crcAcc : Word
  /-- The TX framer (R23 to R26). -/
  tx : TxUnit
  /-- The decode unit and frame handle (R27 to R31). -/
  dec : DecUnit
  /-- The accumulator (R32 to R37). -/
  acc : AccUnit
  /-- `refused_mark` (R38), a mark of the model. -/
  refusedMark : Bool
  /-- The model's own: what the host has yet to issue, first to be issued first (R19, R63). -/
  pending : List Input
  /-- The model's own: the data bytes behind the wire instruction a step has just fetched, `[]` for a command. -/
  rxTail : ByteString
  /-- The model's own: the outcome of the last command, `none` before the first (R15, R39). -/
  reply : Option Reply
  /-- The model's own: how many free values have been drawn, so that each draw is a fresh one (log entry 3). -/
  draws : Nat
deriving DecidableEq, Repr

/-- The TX framer at reset: `tx_state = Idle` (R23); `tx_cap`, `tx_cur` and `tx_buf` are unspecified and named zero,
zero and empty (DESIGN CHOICE, log entry 4). -/
def TxUnit.reset : TxUnit where
  state := .idle
  cap := 0
  buf := []
  cur := 0

/-- The decode unit at reset (R27 to R31); `dec_src` is unspecified and named `Host` (DESIGN CHOICE, log entry 4). -/
def DecUnit.reset : DecUnit where
  state := .empty
  src := .host
  win := []
  pos := 0
  instr := none

/-- The accumulator at reset (R32, R33, R37); `acc_crc`, `acc_len` and the `P_ACC_CAP` bytes of `acc_buf` are
unspecified and named off, zero and zeros (DESIGN CHOICE, log entry 4). -/
def AccUnit.reset (p : Config.Params) : AccUnit where
  init := false
  state := .empty
  crc := false
  len := 0
  buf := List.replicate p.accCap 0
  widx := 0

/-- The engine just created with the parameters `p` (70_reset_and_hazards.md R310). -/
def State.created (p : Config.Params) : State where
  params := p
  crcAcc := 0xFFFF
  tx := .reset
  dec := .reset
  acc := .reset p
  refusedMark := false
  pending := []
  rxTail := []
  reply := none
  draws := 0

/-- The machine right after reset (R310): no command issued, every field at the value of 10_state.md R40. -/
def State.reset : State := State.created Config.params

end Sys2Proof.Machine
end

