-- ==== Sys2Proof/Machine/Ops.lean ====
section
/-! DEFINITION. The operations the instructions share: the checksum function (40_checksum.md R101, R102), the storage
(42_encode.md R140 to R146), the frame handle (43_decode.md R190, 45_frame_parser.md R236, R237, 46_accumulator.md R258,
70_reset_and_hazards.md R320), and the ends of a command: success, an error (60_exceptions.md R283) and a refusal
(R290). -/

namespace Sys2Proof.Machine

/-! ## The checksum (40_checksum.md R100 to R102) -/

/-- One of the 8 rounds of `crc_step`: shift right, and exclusive or with 0xA001 when the bit shifted out was 1. -/
def crcRound (c : Word) : Word := if c.getLsbD 0 then (c >>> 1) ^^^ 0xA001 else c >>> 1

/-- `n` rounds. -/
def crcRounds : (n : Nat) → Word → Word
  | 0, c => c
  | n + 1, c => crcRounds n (crcRound c)

/-- `crc_step(c, b)` (R102). -/
def crcStep (c : Word) (b : Byte) : Word := crcRounds 8 (c ^^^ b.setWidth 16)

/-- The steps over a byte string in index order (R101, R104). -/
def crcSteps (c : Word) (bs : ByteString) : Word := bs.foldl crcStep c

/-- `crc16(bs)` (R101). -/
def crc16 (bs : ByteString) : Word := crcSteps 0xFFFF bs

/-! ## Free values (93_implementation_defined.md I1, I3) -/

/-- `n` unspecified bytes: free value number `draw`. -/
def freeBytes (draw n : Nat) : ByteString := (List.range n).map (Config.freeByte draw)

/-- An unspecified cursor in `lo..hi`, for `lo ≤ hi`: free value number `draw`. -/
def freeCursorIn (draw lo hi : Nat) : Nat := lo + Config.freeCursor draw % (hi - lo + 1)

/-! ## Byte buffers (00_scope.md R14, 20_memory.md R50) -/

/-- `BufRead(buf, i)` (R14): the byte at index `i`; a buffer has no byte past its end. -/
def bufRead (buf : ByteString) (i : Nat) : Option Byte := buf[i]?

/-- `BufWrite(buf, i, b)` (R14). -/
def bufWrite (buf : ByteString) (i : Nat) (b : Byte) : ByteString := buf.set i b

/-! ## Storage (42_encode.md R140 to R146) -/

/-- What a storage operation gives: it is done, or it failed with an error and left the storage as it is here. -/
inductive Stored where
  | done (t : TxUnit)
  | failed (t : TxUnit) (e : ErrKind)
deriving DecidableEq, Repr

/-- Go on with the next storage operation, or stop at the first that failed. -/
def Stored.andThen (r : Stored) (f : TxUnit → Stored) : Stored :=
  match r with
  | .done t => f t
  | .failed t e => .failed t e

/-- `push(b)` (R141). -/
def TxUnit.push (b : Byte) (t : TxUnit) : Stored :=
  if t.cur = t.cap.toNat then .failed t .bufferFull
  else .done { t with buf := bufWrite t.buf t.cur b, cur := t.cur + 1 }

/-- The storage after a failed extend or push that began at cursor `c0`: the cursor is some value in `c0..tx_cap` and
the bytes from `c0` on are unspecified (R143). -/
def TxUnit.scramble (draw c0 : Nat) (t : TxUnit) : TxUnit :=
  { t with
    buf := t.buf.take c0 ++ freeBytes draw (t.buf.length - c0)
    cur := freeCursorIn draw c0 t.cap.toNat }

/-- The pushes of `bs` in index order, up to the first that fails (R142). -/
def TxUnit.pushAll : ByteString → TxUnit → Stored
  | [], t => .done t
  | b :: bs, t => (t.push b).andThen (TxUnit.pushAll bs)

/-- `extend(bs)` (R142); after a failure the storage from the cursor on is unspecified, because a bulk extend may check
the capacity first (R143). -/
def TxUnit.extend (draw : Nat) (bs : ByteString) (t : TxUnit) : Stored :=
  match t.pushAll bs with
  | .done t' => .done t'
  | .failed _ e => .failed (t.scramble draw t.cur) e

/-- The bytes written so far, what finalize returns (R144). -/
def TxUnit.written (t : TxUnit) : ByteString := t.buf.take t.cur

/-- The length back-patch, a direct write of the count behind the length byte at offset 2 (R146, 44_frame_builder.md
R213). -/
def TxUnit.backPatch (t : TxUnit) : TxUnit := { t with buf := bufWrite t.buf 2 (BitVec.ofNat 8 (t.cur - 3)) }

/-! ## The frame handle -/

/-- Load the decode window, at position 0 and ready (43_decode.md R190, 45_frame_parser.md R236, 46_accumulator.md
R258). -/
def State.loadWindow (i : Option WireInstr) (w : ByteString) (src : DecSrc) (s : State) : State :=
  { s with dec := { state := .ready, src := src, win := w, pos := 0, instr := i } }

/-- Clear the frame handle (45_frame_parser.md R237); `dec_src` stays. -/
def State.clearWindow (s : State) : State :=
  { s with dec := { s.dec with state := .empty, win := [], pos := 0, instr := none } }

/-- `invalidate_acc_window()` (70_reset_and_hazards.md R320). -/
def State.invalidateAccWindow (s : State) : State :=
  if s.dec.state ≠ .empty ∧ s.dec.src = .acc then s.clearWindow else s

/-! ## The end of a command -/

/-- The command succeeds with its outputs. -/
def State.answer (out : Output) (k : Offset) (s : State) : State := { s with reply := some (.ok out k) }

/-- The command has taken all its input and needs more (46_accumulator.md R251). -/
def State.answerConsumed (s : State) : State := { s with reply := some .consumed }

/-- The one way an error ends a command, the engine's place of a trap entry (60_exceptions.md R283): no control is
transferred, nothing is saved or masked; the kind and the offset are reported. -/
def State.raise (e : ErrKind) (k : Offset) (s : State) : State := { s with reply := some (.err e k) }

/-- The one way a command is refused (60_exceptions.md R290): no engine state changes, the mark is set. -/
def State.refuse (r : RefuseReason) (s : State) : State :=
  { s with refusedMark := true, reply := some (.refused r) }

/-- The next state, as the outcome of a step. -/
abbrev goOn (s : State) : Host.Outcome State Fault Refusal := .next s

end Sys2Proof.Machine
end

