-- ==== Sys2Proof/Machine/Flags.lean ====
section
/-! DEFINITION. Status. The engine has no condition codes and no status register (10_state.md R39): a command reports
its status in its own outcome. Here are the numbers of that report, the status codes (60_exceptions.md R281) and the
response bytes (30_encoding.md R91), the numbers of the register view (10_state.md R40), and two derived views. -/

namespace Sys2Proof.Machine

/-- `MINLEN(crc)` (00_scope.md R7). -/
def minLen (crc : Bool) : Nat := if crc then 5 else 3

/-- `is_write(i)`: bit 0 of the opcode is 0 (30_encoding.md R77, 41_instruction_model.md R131). -/
def isWrite (i : WireInstr) : Bool := !i.opcode.getLsbD 0

/-- The error kind the parameter `P_UNSUPPORTED_ERR` gives an unsupported kind (00_scope.md R10). -/
def unsupportedErr (p : Config.Params) (k : UnsupKind) : ErrKind :=
  match
    match k with
    | .map => p.mapErr
    | .str => p.strErr
    | .seq => p.seqErr
    | .option => p.optionErr
    | .bytes => p.bytesErr
  with
  | .notYetImplemented => .notYetImplemented
  | .wontImplement => .wontImplement

/-- The three classes of §7 and the class of `BufferFull` (60_exceptions.md R280). -/
inductive ErrClass where
  | structural | integrity | encodingContract | capacity
deriving DecidableEq, Repr

/-- The class of an error kind (R280). -/
def errClass : ErrKind → ErrClass
  | .badHeader | .badLen | .tooLarge | .badInstruction | .unexpectedEnd => .structural
  | .badCrc => .integrity
  | .badBool | .badEnumDiscriminant | .notYetImplemented | .wontImplement => .encodingContract
  | .bufferFull => .capacity

/-- The status code of an error kind (R281). -/
def errCode : ErrKind → Byte
  | .badHeader => 0x10
  | .badLen => 0x11
  | .tooLarge => 0x12
  | .badInstruction => 0x13
  | .unexpectedEnd => 0x14
  | .badCrc => 0x20
  | .badBool => 0x30
  | .badEnumDiscriminant => 0x31
  | .notYetImplemented => 0x32
  | .wontImplement => 0x33
  | .bufferFull => 0x40

/-- The status byte of an outcome (R281). -/
def statusCode : Reply → Byte
  | .ok _ _ => 0x00
  | .consumed => 0x01
  | .err e _ => errCode e
  | .refused _ => 0xFF

/-- An outcome's output fields in a response (30_encoding.md R91), each by its operand kind. -/
def outputBytes : Output → ByteString
  | .unit => []
  | .word c => be 2 c.toNat
  | .bytes out => encodeBstr out
  | .instr i => instrEncode i
  | .value v => encodeValue v

/-- An outcome's offset in a response: 2 bytes, behind a presence byte where it is optional (R91). -/
def offsetBytes : Offset → ByteString
  | .none => []
  | .plain k => be 2 k
  | .optional none => [0x00]
  | .optional (some k) => 0x01 :: be 2 k

/-- The response bytes of an outcome (R91): the status byte, then the fields; `FF` alone for a refusal. -/
def responseBytes (r : Reply) : ByteString :=
  statusCode r ::
    match r with
    | .ok out k => outputBytes out ++ offsetBytes k
    | .consumed => []
    | .err _ k => offsetBytes k
    | .refused _ => []

/-- The number of `tx_state` in the register view (10_state.md R40). -/
def TxState.code : TxState → BitVec 2
  | .idle => 0 | .opened => 1 | .failed => 2

/-- The number of `dec_state` in the register view (R40). -/
def DecState.code : DecState → BitVec 2
  | .empty => 0 | .ready => 1 | .failed => 2

/-- The number of `dec_src` in the register view (R40). -/
def DecSrc.code : DecSrc → BitVec 2
  | .host => 0 | .parser => 1 | .acc => 2

end Sys2Proof.Machine
end

