-- ==== Sys2Proof/Machine/Rx.lean ====
section
/-! DEFINITION. The whole-frame parser (45_frame_parser.md R230 to R241): its stages, their composition, and its two
commands. -/

namespace Sys2Proof.Machine

/-- `body_decode(data)` (R231): the instruction and the payload window behind it. -/
def bodyDecode (data : ByteString) : Except ErrKind (WireInstr × ByteString) :=
  match instrDecode data with
  | .ok (i, n) => .ok (i, data.drop n)
  | .error e => .error e

/-- Header stage (R232). -/
def headerStage (p : Config.Params) (input : ByteString) : Except ErrKind Unit :=
  if input.length < 2 then .error .unexpectedEnd
  else if input.take 2 ≠ be 2 p.header.toNat then .error .badHeader
  else .ok ()

/-- Length stage (R233): the declared length `L`; the minimum is checked before the available bytes. -/
def lengthStage (crc : Bool) (input : ByteString) : Except ErrKind Nat :=
  match input[2]? with
  | none => .error .unexpectedEnd
  | some b =>
    if b.toNat < minLen crc then .error .badLen
    else if 3 + b.toNat > input.length then .error .unexpectedEnd
    else .ok b.toNat

/-- Body stage (R234): the `L` bytes behind the length byte. -/
def bodyStage (input : ByteString) (L : Nat) : ByteString := (input.drop 3).take L

/-- The data of a body and its little-endian trailer, its last two bytes (R235). -/
def splitTrailer (body : ByteString) : ByteString × Word :=
  let n := body.length - 2
  (body.take n, fromLe2 (body.getD n 0) (body.getD (n + 1) 0))

/-- CRC stage (R235): the frame's data. -/
def crcStage (crc : Bool) (body : ByteString) : Except ErrKind ByteString :=
  if crc then
    if crc16 (splitTrailer body).1 ≠ (splitTrailer body).2 then .error .badCrc
    else .ok (splitTrailer body).1
  else .ok body

/-- CRC stage, then the shared instruction stage (R235, R236). -/
def bodyStages (crc : Bool) (body : ByteString) : Except ErrKind (WireInstr × ByteString) :=
  match crcStage crc body with
  | .ok data => bodyDecode data
  | .error e => .error e

/-- What a parse gives (R237): the instruction, the payload window and the offset k, or an error with k once it is
known. -/
inductive Parse where
  | ok (i : WireInstr) (w : ByteString) (k : Nat)
  | err (e : ErrKind) (k : Option Nat)
deriving DecidableEq, Repr

/-- `parse(crc, input)`, the stages in order (R230, R237). -/
def parseFrame (p : Config.Params) (crc : Bool) (input : ByteString) : Parse :=
  match headerStage p input with
  | .error e => .err e none
  | .ok _ =>
    match lengthStage crc input with
    | .error e => .err e none
    | .ok L =>
      match bodyStages crc (bodyStage input L) with
      | .error e => .err e (some (3 + L))
      | .ok (i, w) => .ok i w (3 + L)

/-- The frame handle after a parse: loaded (R236), or cleared by an error (R237). -/
def State.afterParse (r : Parse) (s : State) : State :=
  match r with
  | .ok i w _ => s.loadWindow (some i) w .parser
  | .err _ _ => s.clearWindow

/-- RX_PARSE crc, input (R238): the remainder is not reported. -/
def execRxParse (crc : Bool) (input : ByteString) (s : State) : Host.Outcome State Fault Refusal :=
  match parseFrame s.params crc input with
  | .ok i w k => goOn ((s.afterParse (.ok i w k)).answer (.instr i) .none)
  | .err e k => goOn ((s.afterParse (.err e k)).raise e .none)

/-- RX_PARSE_REM crc, input (R239, R240): the offset k is reported whenever it is known. -/
def execRxParseRem (crc : Bool) (input : ByteString) (s : State) : Host.Outcome State Fault Refusal :=
  match parseFrame s.params crc input with
  | .ok i w k => goOn ((s.afterParse (.ok i w k)).answer (.instr i) (.optional (some k)))
  | .err e k => goOn ((s.afterParse (.err e k)).raise e (.optional k))

end Sys2Proof.Machine
end

