-- ==== Sys2Proof/Machine/Acc.lean ====
section
/-! DEFINITION. The accumulator (46_accumulator.md R250 to R260): its per-byte step, and its three commands. -/

namespace Sys2Proof.Machine

/-- `acc_reset()` (R254). -/
def AccUnit.toEmpty (a : AccUnit) : AccUnit := { a with state := .empty, widx := 0 }

/-- What one byte gives (R251). -/
inductive AccEvent where
  | more
  | err (e : ErrKind)
  | done (i : WireInstr) (w : ByteString)
deriving DecidableEq, Repr

/-- The accumulator after one byte and what the byte gave. -/
abbrev AccResult := AccUnit × AccEvent

/-- A failed byte resets the accumulator and reports the error (R252 to R257). -/
def AccUnit.reject (e : ErrKind) (a : AccUnit) : AccResult := (a.toEmpty, .err e)

/-- Frame completion (R257): the CRC check, then the shared instruction stage; the accumulator resets whatever comes
out. -/
def AccUnit.complete (a : AccUnit) : AccResult :=
  match bodyStages a.crc (a.buf.take a.len.toNat) with
  | .ok (i, w) => (a.toEmpty, .done i w)
  | .error e => a.reject e

/-- A length byte, in state `HeaderByte2Seen` (R255). -/
def AccUnit.lengthByte (p : Config.Params) (b : Byte) (a : AccUnit) : AccResult :=
  if b.toNat < minLen a.crc then a.reject .badLen
  else if b.toNat > p.accCap then a.reject .tooLarge
  else ({ a with len := b, widx := 0, state := .payloadByte b.toNat }, .more)

/-- A body byte stored at the write index (R256). -/
def AccUnit.store (b : Byte) (a : AccUnit) : AccUnit := { a with buf := bufWrite a.buf a.widx b, widx := a.widx + 1 }

/-- A body byte, in state `PayloadByte(rem)` (R256). -/
def AccUnit.bodyByte (p : Config.Params) (rem : Nat) (b : Byte) (a : AccUnit) : AccResult :=
  if a.widx = p.accCap then a.reject .bufferFull
  else if rem > 1 then ({ a.store b with state := .payloadByte (rem - 1) }, .more)
  else (a.store b).complete

/-- `acc_step(b)` (R252 to R257). The header's bytes are `HDR_HI` and `HDR_LO` (00_scope.md R6). A mismatching second
byte is consumed and not looked at again (R253, 90_conflicts.md C6). -/
def AccUnit.step (p : Config.Params) (b : Byte) (a : AccUnit) : AccResult :=
  match a.state with
  | .empty =>
    if b = (p.header >>> 8).setWidth 8 then ({ a with state := .headerByte1Seen }, .more) else a.reject .badHeader
  | .headerByte1Seen =>
    if b = p.header.setWidth 8 then ({ a with state := .headerByte2Seen }, .more) else a.reject .badHeader
  | .headerByte2Seen => a.lengthByte p b
  | .payloadByte rem => a.bodyByte p rem b

/-- What a feed gives (R251): everything consumed, or an event at the byte that ended it, with k the bytes consumed. -/
inductive AccFeed where
  | consumed
  | err (e : ErrKind) (k : Nat)
  | done (i : WireInstr) (w : ByteString) (k : Nat)
deriving DecidableEq, Repr

/-- The bytes of a feed in index order, up to the one that ends the command (R251, R261); `j` bytes came before. -/
def AccUnit.feed (p : Config.Params) : (j : Nat) → ByteString → AccUnit → AccUnit × AccFeed
  | _, [], a => (a, .consumed)
  | j, b :: bs, a =>
    match a.step p b with
    | (a', .more) => AccUnit.feed p (j + 1) bs a'
    | (a', .err e) => (a', .err e (j + 1))
    | (a', .done i w) => (a', .done i w (j + 1))

/-- ACC_INIT crc (R250). -/
def execAccInit (crc : Bool) (s : State) : Host.Outcome State Fault Refusal :=
  goOn ({ s.invalidateAccWindow with acc := { s.acc with crc := crc, init := true }.toEmpty }.answer .unit .none)

/-- ACC_RESET (R260). -/
def execAccReset (s : State) : Host.Outcome State Fault Refusal :=
  if s.acc.init = false then goOn (s.refuse .accUninit)
  else goOn ({ s.invalidateAccWindow with acc := s.acc.toEmpty }.answer .unit .none)

/-- ACC_FEED input (R251, R258). -/
def execAccFeed (input : ByteString) (s : State) : Host.Outcome State Fault Refusal :=
  if s.acc.init = false then goOn (s.refuse .accUninit)
  else
    match s.acc.feed s.params 0 input with
    | (a, .consumed) => goOn { s.invalidateAccWindow with acc := a }.answerConsumed
    | (a, .err e k) => goOn ({ s.invalidateAccWindow with acc := a }.raise e (.plain k))
    | (a, .done i w k) =>
      goOn (({ s.invalidateAccWindow with acc := a }.loadWindow (some i) w .acc).answer (.instr i) (.plain k))

end Sys2Proof.Machine
end

