-- ==== Sys2Proof/Machine/Crc.lean ====
section
/-! DEFINITION. The CRC unit's commands (40_checksum.md R103 to R105). -/

namespace Sys2Proof.Machine

/-- CRC_INIT (R103). -/
def execCrcInit (s : State) : Host.Outcome State Fault Refusal :=
  goOn ({ s with crcAcc := 0xFFFF }.answer .unit .none)

/-- CRC_FEED data (R104). -/
def execCrcFeed (data : ByteString) (s : State) : Host.Outcome State Fault Refusal :=
  goOn ({ s with crcAcc := crcSteps s.crcAcc data }.answer .unit .none)

/-- CRC_READ (R105). -/
def execCrcRead (s : State) : Host.Outcome State Fault Refusal :=
  goOn (s.answer (.word s.crcAcc) .none)

end Sys2Proof.Machine
end

