-- ==== Sys2Proof/Machine/Operands.lean ====
section
/-! DEFINITION. The operand forms: the value encoder `enc` with its image and size (42_encode.md R147 to R159), and the
value decoder `dec` (43_decode.md R180 to R189), for every kind of value and of shape. -/

namespace Sys2Proof.Machine

/-! ## Signed reading of a pattern (00_scope.md R12) -/

/-- The kinds `I8` to `I128`. -/
def isSigned : NumKind → Bool
  | .i8 | .i16 | .i32 | .i64 | .i128 => true
  | _ => false

/-- The integer a numeric pattern stands for: two's complement for a signed kind, unsigned otherwise (a float's
pattern as it is). -/
def numValue (n : Num) : Int := if isSigned n.kind then n.pattern.toInt else n.pattern.toNat

/-- The numeric value of kind `k` that stands for `x mod 2^N` (42_encode.md R150). -/
def numOfInt (k : NumKind) (x : Int) : Num := ⟨k, BitVec.ofInt (8 * k.size) x⟩

/-! ## The encoder (42_encode.md R150) -/

/-- The 16-bit word of a boolean, 0 or 1 (R154). -/
def boolWord (b : Bool) : ByteString := be 2 (if b then 1 else 0)

mutual

/-- `enc(v)` (R150): write `v` into the storage, up to the first error. `draw` numbers the free value a failing extend
leaves behind (R143). -/
def enc (p : Config.Params) (draw : Nat) : Value → TxUnit → Stored
  | .num n, t => t.extend draw n.image
  | .bool b, t => t.extend draw (boolWord b)
  | .agg fs, t => encFields p draw fs t
  | .enum d fs, t =>
    if d.toNat > 65535 then .failed t .badEnumDiscriminant
    else (t.extend draw (be 2 d.toNat)).andThen (encFields p draw fs)
  | .unsup k, t => .failed t (unsupportedErr p k)

/-- The fields in declaration order, up to the first error (R156, R158). -/
def encFields (p : Config.Params) (draw : Nat) : Values → TxUnit → Stored
  | .nil, t => .done t
  | .cons v vs, t => (enc p draw v t).andThen (encFields p draw vs)

end

mutual

/-- `image(v)` (R159): the bytes of a value that raises no encoding error. -/
def image : Value → ByteString
  | .num n => n.image
  | .bool b => boolWord b
  | .agg fs => imageFields fs
  | .enum d fs => be 2 d.toNat ++ imageFields fs
  | .unsup _ => []

/-- The images of the fields, one after the other. -/
def imageFields : Values → ByteString
  | .nil => []
  | .cons v vs => image v ++ imageFields vs

end

mutual

/-- `size(v)` (R159). -/
def size : Value → Nat
  | .num n => n.kind.size
  | .bool _ => 2
  | .agg fs => sizeFields fs
  | .enum _ fs => 2 + sizeFields fs
  | .unsup _ => 0

/-- The sum of the fields' sizes. -/
def sizeFields : Values → Nat
  | .nil => 0
  | .cons v vs => size v + sizeFields vs

end

mutual

/-- `v` contains no Unsupported value and no discriminant above 65535 (R159). -/
def encodable : Value → Bool
  | .num _ => true
  | .bool _ => true
  | .agg fs => encodableFields fs
  | .enum d fs => decide (d.toNat ≤ 65535) && encodableFields fs
  | .unsup _ => false

/-- Every field is encodable. -/
def encodableFields : Values → Bool
  | .nil => true
  | .cons v vs => encodable v && encodableFields vs

end

/-! ## The decoder (43_decode.md R181) -/

/-- `read(n)` at position `p` of the window `w`: the unsigned integer of the next `n` bytes, and the position behind
them (R181). -/
def readWin (n : Nat) (w : ByteString) (p : Nat) : Except ErrKind (Nat × Nat) :=
  if p + n > w.length then .error .unexpectedEnd
  else .ok (fromBe ((w.drop p).take n), p + n)

mutual

/-- `dec(t, w, p)` (R181). -/
def dec (ps : Config.Params) (t : Shape) (w : ByteString) (p : Nat) : Except ErrKind (Value × Nat) :=
  match t with
  | .num k => do
    let (u, p) ← readWin k.size w p
    return (.num (Num.ofNat k u), p)
  | .bool => do
    let (u, p) ← readWin 2 w p
    if u = 0 then return (.bool false, p)
    else if u = 1 then return (.bool true, p)
    else .error .badBool
  | .agg ts => do
    let (vs, p) ← decFields ps ts w p
    return (.agg vs, p)
  | .enum vs => do
    let (d, p) ← readWin 2 w p
    let (fs, p) ← decVariant ps vs d w p
    return (.enum (BitVec.ofNat 32 d) fs, p)
  | .unsup k => .error (unsupportedErr ps k)

/-- The fields in declared order, up to the first error (R187, R189). -/
def decFields (ps : Config.Params) (ts : Shapes) (w : ByteString) (p : Nat) : Except ErrKind (Values × Nat) :=
  match ts with
  | .nil => .ok (.nil, p)
  | .cons t ts => do
    let (v, p) ← dec ps t w p
    let (vs, p) ← decFields ps ts w p
    return (.cons v vs, p)

/-- The fields of variant `d`; a discriminant with no matching variant, `d >= m`, is an error (R186). -/
def decVariant (ps : Config.Params) (vs : Variants) (d : Nat) (w : ByteString) (p : Nat) :
    Except ErrKind (Values × Nat) :=
  match vs, d with
  | .nil, _ => .error .badEnumDiscriminant
  | .cons ts _, 0 => decFields ps ts w p
  | .cons _ vs, d + 1 => decVariant ps vs d w p

end

/-- The field shapes of variant `d`, when there is one (R180). -/
def variantAt : Variants → (d : Nat) → Option Shapes
  | .nil, _ => none
  | .cons ts _, 0 => some ts
  | .cons _ vs, d + 1 => variantAt vs d

mutual

/-- `v` conforms to `t` (R180). -/
def conforms : Value → Shape → Bool
  | .num n, .num k => decide (n.kind = k)
  | .bool _, .bool => true
  | .agg fs, .agg ts => conformsFields fs ts
  | .enum d fs, .enum vs =>
    match variantAt vs d.toNat with
    | some ts => conformsFields fs ts
    | none => false
  | _, _ => false

/-- The values conform to the shapes field by field. -/
def conformsFields : Values → Shapes → Bool
  | .nil, .nil => true
  | .cons v vs, .cons t ts => conforms v t && conformsFields vs ts
  | _, _ => false

end

end Sys2Proof.Machine
end

