-- ==== Sys2Proof/Machine/Dec.lean ====
section
/-! DEFINITION. The decode unit's commands (43_decode.md R190 to R192). -/

namespace Sys2Proof.Machine

/-- DEC_LOAD window (R190). -/
def execDecLoad (window : ByteString) (s : State) : Host.Outcome State Fault Refusal :=
  goOn ((s.loadWindow none window .host).answer .unit .none)

/-- DEC_TAKE t (R191). After an error the unit is `Failed` and `dec_pos` keeps its value (R192). -/
def execDecTake (t : Shape) (s : State) : Host.Outcome State Fault Refusal :=
  if s.dec.state ≠ .ready then goOn (s.refuse .noWindow)
  else
    match dec s.params t s.dec.win s.dec.pos with
    | .ok (v, p) => goOn ({ s with dec := { s.dec with pos := p } }.answer (.value v) .none)
    | .error e => goOn ({ s with dec := { s.dec with state := .failed } }.raise e .none)

end Sys2Proof.Machine
end

