-- ==== Sys2Proof/Machine/Tx.lean ====
section
/-! DEFINITION. The TX framer's commands (44_frame_builder.md R210 to R215). -/

namespace Sys2Proof.Machine

/-- The bytes TX_OPEN writes, as its three storage operations (R211): the header, the length placeholder, and the
instruction. -/
def TxUnit.writeFront (p : Config.Params) (draw : Nat) (i : WireInstr) (t : TxUnit) : Stored :=
  ((t.extend draw (be 2 p.header.toNat)).andThen (TxUnit.push 0x00)).andThen (TxUnit.extend draw (instrEncode i))

/-- The storage of a new builder of capacity `cap`, its bytes unspecified (R211, 93_implementation_defined.md I3). -/
def TxUnit.fresh (draw : Nat) (cap : Byte) : TxUnit where
  state := .idle
  cap := cap
  buf := freeBytes draw cap.toNat
  cur := 0

/-- TX_OPEN cap, i (R211). It draws one free value for the new storage and one for a failure. -/
def execTxOpen (cap : Byte) (i : WireInstr) (s : State) : Host.Outcome State Fault Refusal :=
  if s.tx.state ≠ .idle then goOn (s.refuse .builderBusy)
  else if cap.toNat < s.params.minBuildCap ∨ cap.toNat > 255 then goOn (s.refuse .badCapacity)
  else
    match (TxUnit.fresh s.draws cap).writeFront s.params (s.draws + 1) i with
    | .done t => goOn ({ s with tx := { t with state := .opened }, draws := s.draws + 2 }.answer .unit .none)
    | .failed t e => goOn ({ s with tx := { t with state := .idle }, draws := s.draws + 2 }.raise e .none)

/-- The builder after a failed push that began at cursor `c0` (R214). After `BufferFull` the bytes from `c0` on and the
cursor are unspecified (42_encode.md R143, 93_implementation_defined.md I1); after any other error the bytes already
written stay (42_encode.md R157, 93_implementation_defined.md I2) and the cursor alone is unspecified (log entry 3). -/
def TxUnit.poison (draw c0 : Nat) (e : ErrKind) (t : TxUnit) : TxUnit :=
  if e = .bufferFull then { t.scramble draw c0 with state := .failed }
  else { t with cur := freeCursorIn draw c0 t.cap.toNat, state := .failed }

/-- TX_PUSH v (R212, R214). A failure draws one free value for the failing extend and one for the poisoned builder. -/
def execTxPush (v : Value) (s : State) : Host.Outcome State Fault Refusal :=
  if s.tx.state ≠ .opened then goOn (s.refuse .noBuilder)
  else
    match enc s.params s.draws v s.tx with
    | .done t => goOn ({ s with tx := t }.answer .unit .none)
    | .failed t e =>
      goOn ({ s with tx := t.poison (s.draws + 1) s.tx.cur e, draws := s.draws + 2 }.raise e .none)

/-- Append the CRC trailer over the bytes from the opcode on, when `crc` is on (R213, 30_encoding.md R80). -/
def TxUnit.writeTrailer (draw : Nat) (crc : Bool) (t : TxUnit) : Stored :=
  if crc then t.extend draw (le2 (crc16 (t.written.drop 3))) else .done t

/-- TX_FINAL crc (R213). The builder is consumed either way. A failure draws one free value. -/
def execTxFinal (crc : Bool) (s : State) : Host.Outcome State Fault Refusal :=
  if s.tx.state ≠ .opened then goOn (s.refuse .noBuilder)
  else
    match s.tx.writeTrailer s.draws crc with
    | .done t =>
      goOn ({ s with tx := { t.backPatch with state := .idle } }.answer (.bytes t.backPatch.written) .none)
    | .failed t e => goOn ({ s with tx := { t with state := .idle }, draws := s.draws + 1 }.raise e .none)

/-- TX_ABORT (R215). -/
def execTxAbort (s : State) : Host.Outcome State Fault Refusal :=
  goOn ({ s with tx := { s.tx with state := .idle } }.answer .unit .none)

end Sys2Proof.Machine
end

