-- ==== Sys2Proof/Machine/Wire.lean ====
section
/-! DEFINITION. The wire instructions (41_instruction_model.md R123 to R129). The engine carries an instruction and
never performs it (00_scope.md R4). Its one effect on the engine is to be received: the shared frame-body stage makes it
the current frame handle with the bytes behind its fields as the payload window (45_frame_parser.md R231, R236). That
is its meaning here, at the model's own frame-data port (DESIGN CHOICE, log entry 1); inside RX_PARSE and ACC_FEED the
same stage runs on a frame, and TX_OPEN writes `instr_encode(i)` (44_frame_builder.md R211). -/

namespace Sys2Proof.Machine

/-- Receive the instruction `i`: stage 5 loads the frame handle (R236), and the instruction is reported. -/
def State.receive (i : WireInstr) (s : State) : State :=
  (s.loadWindow (some i) s.rxTail .parser).answer (.instr i) .none

/-- RegisterWrite (R123). -/
def execRegisterWrite (page addr : Byte) (s : State) : Host.Outcome State Fault Refusal :=
  goOn (s.receive (.registerWrite page addr))

/-- RegisterRead (R124). -/
def execRegisterRead (page addr len : Byte) (s : State) : Host.Outcome State Fault Refusal :=
  goOn (s.receive (.registerRead page addr len))

/-- WordWrite (R125). -/
def execWordWrite (addr : Word) (s : State) : Host.Outcome State Fault Refusal :=
  goOn (s.receive (.wordWrite addr))

/-- WordRead (R126). -/
def execWordRead (addr : Word) (len : Byte) (s : State) : Host.Outcome State Fault Refusal :=
  goOn (s.receive (.wordRead addr len))

/-- CurveWrite (R127). -/
def execCurveWrite (ch : Byte) (s : State) : Host.Outcome State Fault Refusal :=
  goOn (s.receive (.curveWrite ch))

/-- DwordWrite (R128). -/
def execDwordWrite (addr : Dword) (s : State) : Host.Outcome State Fault Refusal :=
  goOn (s.receive (.dwordWrite addr))

/-- DwordRead (R129). -/
def execDwordRead (addr : Dword) (len : Byte) (s : State) : Host.Outcome State Fault Refusal :=
  goOn (s.receive (.dwordRead addr len))

end Sys2Proof.Machine
end

