-- ==== Sys2Proof/Machine/Dispatch.lean ====
section
/-! DEFINITION. Each instruction's meaning, one arm a row of spec/opcode_table.json. -/

namespace Sys2Proof.Machine

def exec (i : Instr) (s : State) : Host.Outcome State Fault Refusal :=
  match i with
  -- wire instructions, 41_instruction_model.md
  | .registerWrite page addr => Sys2Proof.Machine.execRegisterWrite page addr s
  | .registerRead page addr len => Sys2Proof.Machine.execRegisterRead page addr len s
  | .wordWrite addr => Sys2Proof.Machine.execWordWrite addr s
  | .wordRead addr len => Sys2Proof.Machine.execWordRead addr len s
  | .curveWrite ch => Sys2Proof.Machine.execCurveWrite ch s
  | .dwordWrite addr => Sys2Proof.Machine.execDwordWrite addr s
  | .dwordRead addr len => Sys2Proof.Machine.execDwordRead addr len s
  -- CRC unit, 40_checksum.md
  | .crcInit => Sys2Proof.Machine.execCrcInit s
  | .crcFeed data => Sys2Proof.Machine.execCrcFeed data s
  | .crcRead => Sys2Proof.Machine.execCrcRead s
  -- TX framer, 44_frame_builder.md
  | .txOpen cap w => Sys2Proof.Machine.execTxOpen cap w s
  | .txPush v => Sys2Proof.Machine.execTxPush v s
  | .txFinal crc => Sys2Proof.Machine.execTxFinal crc s
  | .txAbort => Sys2Proof.Machine.execTxAbort s
  -- whole-frame parser, 45_frame_parser.md
  | .rxParse crc input => Sys2Proof.Machine.execRxParse crc input s
  | .rxParseRem crc input => Sys2Proof.Machine.execRxParseRem crc input s
  -- decode unit, 43_decode.md
  | .decLoad window => Sys2Proof.Machine.execDecLoad window s
  | .decTake t => Sys2Proof.Machine.execDecTake t s
  -- accumulator, 46_accumulator.md
  | .accInit crc => Sys2Proof.Machine.execAccInit crc s
  | .accReset => Sys2Proof.Machine.execAccReset s
  | .accFeed input => Sys2Proof.Machine.execAccFeed input s

end Sys2Proof.Machine
end

