-- ==== Sys2Proof/Machine/Fetch.lean ====
section
/-! DEFINITION. What the engine makes of one thing put before it, before any instruction runs: the instruction it
decodes to, or the state it leaves when there is none. `step` only calls this. -/

namespace Sys2Proof.Machine

/-- The engine created anew while the model's run goes on (70_reset_and_hazards.md R310): the parameters stay (R313),
`refused_mark` is not cleared (R312), and what the host has yet to issue and the count of free values are the model's
own (log entry 6). -/
def State.recreated (s : State) : State :=
  { State.created s.params with refusedMark := s.refusedMark, pending := s.pending, draws := s.draws }

/-- What was fetched. -/
inductive Fetched where
  /-- an instruction, and the data bytes behind it (none for a command) -/
  | run (i : Instr) (tail : ByteString)
  /-- an illegal command encoding (30_encoding.md R90) -/
  | illegal
  /-- frame data the shared stage rejects (45_frame_parser.md R231) -/
  | badData (e : ErrKind)
  /-- the engine is created anew -/
  | recreate
deriving DecidableEq, Repr

/-- The most data bytes a frame carries: what a length byte can declare (30_encoding.md R72). -/
def maxData : Nat := 255

/-- Decode one thing put before the engine (30_encoding.md R85 to R90; 45_frame_parser.md R231). Frame data is at most
`maxData` bytes, so bytes behind those do not come before the engine (DESIGN CHOICE, log entry 1). -/
def fetch : Input → Fetched
  | .command bytes =>
    match decodeTransaction bytes with
    | .ok i => .run i []
    | .error _ => .illegal
  | .frameData data =>
    match bodyDecode (data.take maxData) with
    | .ok (i, w) => .run i.toInstr w
    | .error e => .badData e
  | .reset => .recreate

/-- The state an instruction runs in: the thing it came from is no longer pending, and the data bytes behind it stand
at the frame-body stage. -/
def State.fetched (q : List Input) (tail : ByteString) (s : State) : State := { s with pending := q, rxTail := tail }

/-- An illegal command is refused (30_encoding.md R90, 60_exceptions.md R282). -/
def State.afterIllegal (q : List Input) (s : State) : State := (s.fetched q []).refuse .illegalCommand

/-- Frame data the shared stage rejects: the error is reported and the frame handle cleared (45_frame_parser.md
R237). -/
def State.afterBadData (q : List Input) (e : ErrKind) (s : State) : State := ((s.fetched q []).clearWindow).raise e .none

/-- The engine created anew, with the rest of the host's sequence before it. -/
def State.afterRecreate (q : List Input) (s : State) : State := (s.fetched q []).recreated

/-- The thing put before the engine that is the table word's instruction: a host command's bytes, or frame data that is
the wire instruction alone. -/
def tableInput (nbits w : Nat) : Input :=
  match decodeTableWord nbits w with
  | some i =>
    let bytes := (tableWordBytes nbits w).take (encode i).length
    match fieldLen (bytes.headD 0) with
    | some _ => .frameData bytes
    | none => .command bytes
  | none => .command (tableBytes (nbits / 8) w)

end Sys2Proof.Machine
end

