-- ==== Sys2Proof/Machine/Step.lean ====
section
/-! DEFINITION. One step of the machine: the next thing the host has issued takes effect whole (20_memory.md R60, R63).
With nothing issued the engine waits (70_reset_and_hazards.md R311, R326). -/

namespace Sys2Proof.Machine

/-- One step. -/
def step (s : State) : Host.Outcome State Fault Refusal :=
  match s.pending with
  | [] => goOn s
  | inp :: q =>
    match fetch inp with
    | .run i tail => exec i (s.fetched q tail)
    | .illegal => goOn (s.afterIllegal q)
    | .badData e => goOn (s.afterBadData q e)
    | .recreate => goOn (s.afterRecreate q)

/-- `s` with the table word's instruction put before the engine next (log entry 5). -/
def State.withFetchWord (s : State) (nbits w : Nat) : State :=
  { s with pending := tableInput nbits w :: s.pending }

end Sys2Proof.Machine
end

