-- ==== Sys2Proof/Machine/Assembler.lean ====
section
/-! DEFINITION. The assembler syntax (30_encoding.md R92): the line of each instruction. R92 shows both decimal and
hexadecimal numbers and fixes neither; here an address, a page, a channel and a float pattern are hexadecimal at their
full width and everything else is decimal (DESIGN CHOICE, log entry 9). A line is a list of characters. -/

namespace Sys2Proof.Machine

/-- One hexadecimal digit. -/
def hexDigit (n : Nat) : Char := Char.ofNat (if n < 10 then 48 + n else 55 + n)

/-- `n` hexadecimal digits of `v`. -/
def hexDigits : (n v : Nat) → List Char
  | 0, _ => []
  | n + 1, v => hexDigit (v / 16 ^ n % 16) :: hexDigits n v

/-- A number in hexadecimal, `n` digits wide. -/
def hex (n v : Nat) : List Char := "0x".toList ++ hexDigits n v

/-- A number in decimal. -/
def dec10 (v : Nat) : List Char := Nat.toDigits 10 v

/-- A signed number in decimal. -/
def decInt (x : Int) : List Char := if x < 0 then '-' :: dec10 x.natAbs else dec10 x.natAbs

/-- Items separated by a comma and a space. -/
def commaSep : List (List Char) → List Char
  | [] => []
  | [x] => x
  | x :: xs => x ++ ", ".toList ++ commaSep xs

/-- A flag operand. -/
def asmFlag (b : Bool) : List Char := if b then "crc=on".toList else "crc=off".toList

/-- Hexadecimal pairs separated by a space. -/
def hexPairs : ByteString → List Char
  | [] => []
  | [b] => hexDigits 2 b.toNat
  | b :: bs => hexDigits 2 b.toNat ++ ' ' :: hexPairs bs

/-- A byte-string operand: hexadecimal pairs in brackets. -/
def asmBytes (bs : ByteString) : List Char := '[' :: (hexPairs bs ++ [']'])

/-- A wire instruction, with the names of R73. -/
def asmInstr : WireInstr → List Char
  | .registerWrite page addr =>
    "RegisterWrite(page=".toList ++ hex 2 page.toNat ++ ", addr=".toList ++ hex 2 addr.toNat ++ [')']
  | .registerRead page addr len =>
    "RegisterRead(page=".toList ++ hex 2 page.toNat ++ ", addr=".toList ++ hex 2 addr.toNat ++ ", len=".toList ++
      dec10 len.toNat ++ [')']
  | .wordWrite addr => "WordWrite(addr=".toList ++ hex 4 addr.toNat ++ [')']
  | .wordRead addr len => "WordRead(addr=".toList ++ hex 4 addr.toNat ++ ", len=".toList ++ dec10 len.toNat ++ [')']
  | .curveWrite ch => "CurveWrite(ch=".toList ++ hex 2 ch.toNat ++ [')']
  | .dwordWrite addr => "DwordWrite(addr=".toList ++ hex 8 addr.toNat ++ [')']
  | .dwordRead addr len => "DwordRead(addr=".toList ++ hex 8 addr.toNat ++ ", len=".toList ++ dec10 len.toNat ++ [')']

/-- The name of a numeric kind. -/
def asmKind : NumKind → List Char
  | .u8 => "u8".toList | .u16 => "u16".toList | .u32 => "u32".toList | .u64 => "u64".toList | .u128 => "u128".toList
  | .i8 => "i8".toList | .i16 => "i16".toList | .i32 => "i32".toList | .i64 => "i64".toList | .i128 => "i128".toList
  | .f32 => "f32".toList | .f64 => "f64".toList

/-- The name of an unsupported kind. -/
def asmUnsup : UnsupKind → List Char
  | .map => "map".toList | .str => "str".toList | .seq => "seq".toList | .option => "option".toList
  | .bytes => "bytes".toList

/-- A numeric value: a float as its bit pattern. -/
def asmNum (n : Num) : List Char :=
  asmKind n.kind ++ ' ' ::
    match n.kind with
    | .f32 => hex 8 n.pattern.toNat
    | .f64 => hex 16 n.pattern.toNat
    | _ => decInt (numValue n)

mutual

/-- A value operand. -/
def asmValue : Value → List Char
  | .num n => asmNum n
  | .bool b => "bool ".toList ++ (if b then "true".toList else "false".toList)
  | .agg fs => "agg(".toList ++ commaSep (asmValues fs) ++ [')']
  | .enum d fs => "enum ".toList ++ dec10 d.toNat ++ " (".toList ++ commaSep (asmValues fs) ++ [')']
  | .unsup k => asmUnsup k

/-- The fields of a value. -/
def asmValues : Values → List (List Char)
  | .nil => []
  | .cons v vs => asmValue v :: asmValues vs

end

mutual

/-- A shape operand; an enum's variants stand in braces, the characters 123 and 125. -/
def asmShape : Shape → List Char
  | .num k => asmKind k
  | .bool => "bool".toList
  | .agg ts => "agg(".toList ++ commaSep (asmShapes ts) ++ [')']
  | .enum vs => "enum".toList ++ Char.ofNat 123 :: (commaSep (asmVariants vs) ++ [Char.ofNat 125])
  | .unsup k => asmUnsup k

/-- The fields of a shape. -/
def asmShapes : Shapes → List (List Char)
  | .nil => []
  | .cons t ts => asmShape t :: asmShapes ts

/-- The variants of an enum shape. -/
def asmVariants : Variants → List (List Char)
  | .nil => []
  | .cons ts vs => ("agg(".toList ++ commaSep (asmShapes ts) ++ [')']) :: asmVariants vs

end

/-- The line of an instruction: a command's mnemonic and operands, or a wire instruction as it stands in one. -/
def asm : Instr → List Char
  | .registerWrite page addr => asmInstr (.registerWrite page addr)
  | .registerRead page addr len => asmInstr (.registerRead page addr len)
  | .wordWrite addr => asmInstr (.wordWrite addr)
  | .wordRead addr len => asmInstr (.wordRead addr len)
  | .curveWrite ch => asmInstr (.curveWrite ch)
  | .dwordWrite addr => asmInstr (.dwordWrite addr)
  | .dwordRead addr len => asmInstr (.dwordRead addr len)
  | .crcInit => "CRC_INIT".toList
  | .crcFeed data => "CRC_FEED ".toList ++ asmBytes data
  | .crcRead => "CRC_READ".toList
  | .txOpen cap i => "TX_OPEN ".toList ++ dec10 cap.toNat ++ ", ".toList ++ asmInstr i
  | .txPush v => "TX_PUSH ".toList ++ asmValue v
  | .txFinal crc => "TX_FINAL ".toList ++ asmFlag crc
  | .txAbort => "TX_ABORT".toList
  | .rxParse crc input => "RX_PARSE ".toList ++ asmFlag crc ++ ", ".toList ++ asmBytes input
  | .rxParseRem crc input => "RX_PARSE_REM ".toList ++ asmFlag crc ++ ", ".toList ++ asmBytes input
  | .decLoad window => "DEC_LOAD ".toList ++ asmBytes window
  | .decTake t => "DEC_TAKE ".toList ++ asmShape t
  | .accInit crc => "ACC_INIT ".toList ++ asmFlag crc
  | .accReset => "ACC_RESET".toList
  | .accFeed input => "ACC_FEED ".toList ++ asmBytes input

end Sys2Proof.Machine
end

