-- ==== Sys2Proof/Machine/Pseudo.lean ====
section
/-! DEFINITION. What the spec says a host does with the commands: the pseudo-commands, as the sequences of commands they
expand to (30_encoding.md R93), and the loop that re-feeds an accumulator's remainders
(70_reset_and_hazards.md R322). -/

namespace Sys2Proof.Machine

/-- `CHECKSUM [bs]` (R93). -/
def checksumCommands (bs : ByteString) : List Instr := [.crcInit, .crcFeed bs, .crcRead]

/-- The commands of `BUILD i, cap, crc=c, v1, ..., vn`, before its rule for stopping (R93). -/
def buildCommands (i : WireInstr) (cap : Byte) (crc : Bool) (vs : List Value) : List Instr :=
  .txOpen cap i :: (vs.map Instr.txPush ++ [.txFinal crc])

/-- The last command's outcome is `ok`. -/
def State.succeeded (s : State) : Bool :=
  match s.reply with
  | some (.ok _ _) => true
  | _ => false

/-- A sequence of commands that stops at the first outcome that is not `ok`: the command it stopped at, if any, and
the outcome there. -/
def runWhileOk : List Instr → State → Option Instr × Host.Outcome State Fault Refusal
  | [], s => (none, .next s)
  | c :: cs, s =>
    match exec c s with
    | .next t => if t.succeeded then runWhileOk cs t else (some c, .next t)
    | .fault r => (some c, .fault r)
    | .refused r => (some c, .refused r)

/-- `CHECKSUM [bs]` issued (R93). -/
def checksum (bs : ByteString) (s : State) : Host.Outcome State Fault Refusal := (runWhileOk (checksumCommands bs) s).2

/-- `BUILD` issued: it stops at the first outcome that is not `ok`, and when that is a TX_PUSH it issues TX_ABORT
(R93). The first component is the outcome it stopped with. -/
def build (i : WireInstr) (cap : Byte) (crc : Bool) (vs : List Value) (s : State) :
    Option Reply × Host.Outcome State Fault Refusal :=
  match runWhileOk (buildCommands i cap crc vs) s with
  | (some (.txPush _), .next t) => (t.reply, exec .txAbort t)
  | (_, .next t) => (t.reply, .next t)
  | (_, o) => (none, o)

/-- What a host sees of an ACC_FEED that ended at an event (46_accumulator.md R262): the error kind, or the instruction
and the window it reads at once; and how many bytes of the whole sequence have been consumed by then. -/
inductive Seen where
  | err (e : ErrKind) (k : Nat)
  | frame (i : WireInstr) (w : ByteString) (k : Nat)
deriving DecidableEq, Repr

/-- The host's loop over one chunk: feed, and re-feed the remainder, until the outcome is `consumed` or the remainder is
empty (R322). Each event takes a byte, so fuel the chunk's length suffices; `n` bytes of the whole sequence came
before. -/
def drain : (fuel n : Nat) → ByteString → State → List Seen × State
  | 0, _, _, s => ([], s)
  | _ + 1, _, [], s => ([], s)
  | fuel + 1, n, b :: bs, s =>
    match exec (.accFeed (b :: bs)) s with
    | .next t =>
      match t.reply with
      | some (.err e (.plain k)) =>
        (.err e (n + k) :: (drain fuel (n + k) ((b :: bs).drop k) t).1, (drain fuel (n + k) ((b :: bs).drop k) t).2)
      | some (.ok (.instr i) (.plain k)) =>
        (.frame i t.dec.win (n + k) :: (drain fuel (n + k) ((b :: bs).drop k) t).1,
          (drain fuel (n + k) ((b :: bs).drop k) t).2)
      | _ => ([], t)
    | _ => ([], s)

/-- The loop over a sequence of chunks (46_accumulator.md R262). -/
def drainChunks : (n : Nat) → List ByteString → State → List Seen × State
  | _, [], s => ([], s)
  | n, c :: cs, s =>
    ((drain c.length n c s).1 ++ (drainChunks (n + c.length) cs (drain c.length n c s).2).1,
      (drainChunks (n + c.length) cs (drain c.length n c s).2).2)

end Sys2Proof.Machine
end

