-- ==== Sys2Proof/Safety.lean ====
section
/-! DEFINITION. The terms claims are stated in: the invariants of 10_state.md R41, what it is to leave the engine's state
alone (60_exceptions.md R290), and which runs a claim may be made of (10_state.md R38). -/

namespace Sys2Proof.Machine

/-- The form of the byte buffers, the engine's memory (20_memory.md R50): the builder buffer has `tx_cap` bytes (R25)
and the accumulator buffer `P_ACC_CAP` bytes (R36), one list entry a byte, so equal contents are equal data. -/
abbrev Memory.wf (s : State) : Prop :=
  s.tx.buf.length = s.tx.cap.toNat ∧ s.acc.buf.length = s.params.accCap

/-- The builder's clause of R41: the cursor stays within the capacity, behind the header and length bytes of a builder
that exists, and an open builder's buffer begins with the header. -/
def TxUnit.Inv (p : Config.Params) (t : TxUnit) : Prop :=
  t.cur ≤ t.cap.toNat ∧ (t.state ≠ .idle → 3 ≤ t.cur) ∧ (t.state = .opened → t.buf.take 2 = be 2 p.header.toNat)

/-- The decode unit's clause of R41, with the bound of R29 on a window that came with an instruction. The instruction and
the window together are a frame's data: at most 255 bytes from the parser, at most `P_ACC_CAP` from the accumulator. So
a parser window has at most 252 bytes, as R29 says, behind every instruction but CurveWrite, and at most 253 behind
CurveWrite, whose fields are one byte (30_encoding.md R73). For that one frame R29 and R233 with R236
cannot both hold, the spec does not say which gives way, and the model follows R233 and R236 (DESIGN CHOICE, log
entry 11). -/
structure DecUnit.Inv (p : Config.Params) (d : DecUnit) : Prop where
  pos : d.pos ≤ d.win.length
  instr : d.state = .empty → d.instr = none
  parserWin : ∀ i ∈ d.instr, d.src = .parser → (instrEncode i).length + d.win.length ≤ 255
  accWin : ∀ i ∈ d.instr, d.src = .acc → (instrEncode i).length + d.win.length ≤ p.accCap

/-- The accumulator's two clauses of R41: inside a body the bytes taken and the bytes still awaited make up the declared
length, at least one is awaited (R33), and the length was in range; elsewhere nothing is taken. -/
def AccUnit.Inv (p : Config.Params) (a : AccUnit) : Prop :=
  match a.state with
  | .payloadByte rem =>
    1 ≤ rem ∧ a.widx + rem = a.len.toNat ∧ minLen a.crc ≤ a.len.toNat ∧ a.len.toNat ≤ p.accCap
  | .empty => a.widx = 0
  | .headerByte1Seen => a.widx = 0
  | .headerByte2Seen => a.widx = 0

/-- The invariant of R41 with the range of `P_ACC_CAP` (R9), the bound on a loaded window (R29) and the form of the
buffers. -/
structure State.Inv (s : State) : Prop where
  params : s.params.Legal
  memory : Memory.wf s
  tx : s.tx.Inv s.params
  dec : s.dec.Inv s.params
  acc : s.acc.Inv s.params

/-- Every field of the register view (10_state.md R40) and the parameters are the same. -/
structure SameEngine (s t : State) : Prop where
  params : t.params = s.params
  crcAcc : t.crcAcc = s.crcAcc
  tx : t.tx = s.tx
  dec : t.dec = s.dec
  acc : t.acc = s.acc

/-- The model's own fields a command leaves alone: what is still pending and the bytes at the frame-body stage. -/
structure SamePorts (s t : State) : Prop where
  pending : t.pending = s.pending
  rxTail : t.rxTail = s.rxTail

/-- The outcome is a refusal (60_exceptions.md R290). -/
def State.wasRefused (s : State) : Bool :=
  match s.reply with
  | some (.refused _) => true
  | _ => false

/-- A state of a run a claim may be made of: no command was refused (10_state.md R38, 60_exceptions.md R291). -/
abbrev State.Trusted (s : State) : Prop := s.refusedMark = false

/-- The accumulator lent out the frame handle: the window a further accumulator command takes back
(70_reset_and_hazards.md R320). -/
abbrev State.AccWindow (s : State) : Prop := s.dec.state ≠ .empty ∧ s.dec.src = .acc

/-- Which instructions are refused in which states, and why (60_exceptions.md R290, its list but for the illegal
encodings, which are no instruction). -/
def refusalOf (i : Instr) (s : State) : Option RefuseReason :=
  match i with
  | .txOpen cap _ =>
    if s.tx.state ≠ .idle then some .builderBusy
    else if cap.toNat < s.params.minBuildCap then some .badCapacity
    else none
  | .txPush _ => if s.tx.state ≠ .opened then some .noBuilder else none
  | .txFinal _ => if s.tx.state ≠ .opened then some .noBuilder else none
  | .decTake _ => if s.dec.state ≠ .ready then some .noWindow else none
  | .accReset => if s.acc.init = false then some .accUninit else none
  | .accFeed _ => if s.acc.init = false then some .accUninit else none
  | _ => none

mutual

/-- The walk of 42_encode.md R158 without the storage: with `room` bytes free, the bytes still free behind `v`, or the
first error met depth first and left to right. -/
def encodeWalk (p : Config.Params) : Value → (room : Nat) → Except ErrKind Nat
  | .num n, room => if n.kind.size ≤ room then .ok (room - n.kind.size) else .error .bufferFull
  | .bool _, room => if 2 ≤ room then .ok (room - 2) else .error .bufferFull
  | .agg fs, room => encodeWalkFields p fs room
  | .enum d fs, room =>
    if d.toNat > 65535 then .error .badEnumDiscriminant
    else if 2 ≤ room then encodeWalkFields p fs (room - 2)
    else .error .bufferFull
  | .unsup k, _ => .error (unsupportedErr p k)

/-- The walk over the fields. -/
def encodeWalkFields (p : Config.Params) : Values → (room : Nat) → Except ErrKind Nat
  | .nil, room => .ok room
  | .cons v vs, room =>
    match encodeWalk p v room with
    | .ok room => encodeWalkFields p vs room
    | .error e => .error e

end

/-- An outcome with its offset counted from `n` bytes earlier (46_accumulator.md R262). -/
def Reply.rebased (n : Nat) : Reply → Reply
  | .ok out (.plain k) => .ok out (.plain (n + k))
  | .err e (.plain k) => .err e (.plain (n + k))
  | r => r

end Sys2Proof.Machine
end

