-- ==== Sys2Proof/Certificates/Slice0/Obligations.lean ====
section
/-! DEFINITION. The statements for the provers. Each docstring names the rule of spec/ it formalises; a clause that rests
on the model's own choice names the log entry. -/

open Sys2Proof Sys2Proof.Machine

/-! ## CRC unit (40_checksum.md) -/

/-- R103, R104, R105: what the three commands leave, and their frame: everything else is as before. -/
def Obligations.CrcCommandsWriteOnlyTheRegister : Prop :=
  ∀ (s : State) (data : ByteString),
    exec .crcInit s = .next { s with crcAcc := 0xFFFF, reply := some (.ok .unit .none) } ∧
    exec (.crcFeed data) s =
      .next { s with crcAcc := data.foldl crcStep s.crcAcc, reply := some (.ok .unit .none) } ∧
    exec .crcRead s = .next { s with reply := some (.ok (.word s.crcAcc) .none) }

/-- R106, R93: a byte string split across any number of CRC_FEED commands reads as its one-shot checksum, and CHECKSUM
answers it; no other unit changes. -/
def Obligations.CrcSplitFeedsReadAsOneChecksum : Prop :=
  ∀ (s : State) (chunks : List ByteString), ∃ t u : State,
    runWhileOk (.crcInit :: (chunks.map Instr.crcFeed ++ [.crcRead])) s = (none, .next t) ∧
    t.reply = some (.ok (.word (crc16 chunks.flatten)) .none) ∧
    checksum chunks.flatten s = .next u ∧ u.reply = some (.ok (.word (crc16 chunks.flatten)) .none) ∧
    t.tx = s.tx ∧ t.dec = s.dec ∧ t.acc = s.acc

/-- R100: the check value. The other values are 95_test_vectors.md V11, V13, V20, V22, V23 and §8 scenario 3. -/
def Obligations.CrcCheckValues : Prop :=
  crc16 [0x31, 0x32, 0x33, 0x34, 0x35, 0x36, 0x37, 0x38, 0x39] = 0x4B37 ∧
  crc16 [0x00] = 0x40BF ∧ crc16 [0x01] = 0x807E ∧ crc16 [0x80, 0x00, 0x10] = 0xE471 ∧
  crc16 [0x86, 0x00, 0x00, 0x12, 0x34] = 0xA9A0 ∧ crc16 [0x87, 0x00, 0x00, 0x12, 0x34, 0x02] = 0x6829 ∧
  crc16 [0x82, 0x00, 0xDE, 0x5A, 0x00, 0x12, 0x34] = 0xB40E

/-- R107: the two fixed values, and for every byte string exactly one trailer gives residue zero, its own checksum with
the low byte first. -/
def Obligations.CrcResidueZeroExactlyForOwnTrailer : Prop :=
  crc16 [] = 0xFFFF ∧ crc16 [0xFF, 0xFF] = 0x0000 ∧
  ∀ (d : ByteString) (t : Word), crc16 (d ++ le2 t) = 0x0000 ↔ t = crc16 d

/-- R108: changing any one byte changes the checksum, and flipping any one byte of a frame's data or trailer makes the
parser report `BadCrc` when CRC is on. -/
def Obligations.FlippedByteIsReportedAsBadCrc : Prop :=
  (∀ (pre post : ByteString) (x y : Byte), x ≠ y → crc16 (pre ++ x :: post) ≠ crc16 (pre ++ y :: post)) ∧
  ∀ (p : Config.Params) (input : ByteString) (i : WireInstr) (w : ByteString) (k : Nat),
    parseFrame p true input = .ok i w k →
    ∀ (j : Nat) (b : Byte), 3 ≤ j → j < k → input[j]? ≠ some b →
      parseFrame p true (input.set j b) = .err .badCrc (some k)

/-! ## Wire instructions (30_encoding.md Part A, 41_instruction_model.md) -/

/-- R122: `instr_decode` undoes `instr_encode`, whatever follows, and the length is fixed by the opcode. -/
def Obligations.InstrDecodeOfInstrEncode : Prop :=
  ∀ (i : WireInstr) (rest : ByteString),
    instrDecode (instrEncode i ++ rest) = .ok (i, (instrEncode i).length) ∧
    fieldLen i.opcode = some ((instrEncode i).length - 1)

/-- R121, R75, R76: the seven opcodes are recognised and no other byte; the opcode check comes before the length check;
what is decoded is what the bytes say, and bytes behind the fields are not read. -/
def Obligations.InstrDecodeByOpcodeThenLength : Prop :=
  ∀ (op : Byte) (rest : ByteString),
    (op ∉ [0x80, 0x81, 0x82, 0x83, 0x84, 0x86, 0x87] → instrDecode (op :: rest) = .error .badInstruction) ∧
    (op ∈ [0x80, 0x81, 0x82, 0x83, 0x84, 0x86, 0x87] → ∃ n, fieldLen op = some n ∧
      (rest.length < n → instrDecode (op :: rest) = .error .unexpectedEnd) ∧
      (n ≤ rest.length → ∃ i, instrDecode (op :: rest) = .ok (i, 1 + n) ∧ instrEncode i = op :: rest.take n))

/-- R77, R131: `is_write` holds for RegisterWrite, WordWrite, CurveWrite and DwordWrite, and for those alone. -/
def Obligations.WriteOpcodesAreTheEvenOnes : Prop :=
  ∀ i : WireInstr, (isWrite i = true ↔ i.opcode.toNat % 2 = 0) ∧
    (isWrite i = true ↔ (∃ page addr, i = .registerWrite page addr) ∨ (∃ addr, i = .wordWrite addr) ∨
      (∃ ch, i = .curveWrite ch) ∨ (∃ addr, i = .dwordWrite addr))

/-- Each of the seven wire rows RegisterWrite, RegisterRead, WordWrite, WordRead, CurveWrite, DwordWrite and DwordRead
completes: it is received as the frame handle (45_frame_parser.md R236) and nothing else changes. That a wire row is
run by itself is the model's choice, log entry 1. -/
def Obligations.WireInstructionIsReceivedAsFrameHandle : Prop :=
  ∀ (i : WireInstr) (s : State),
    exec i.toInstr s = .next { s with
      dec := { state := .ready, src := .parser, win := s.rxTail, pos := 0, instr := some i },
      reply := some (.ok (.instr i) .none) }

/-- A frame RX_PARSE accepts leaves the frame handle and the outcome that running the instruction it carries leaves
(45_frame_parser.md R231, R236; log entry 1). -/
def Obligations.ParsedFrameIsItsInstructionReceived : Prop :=
  ∀ (s : State) (crc : Bool) (input : ByteString) (i : WireInstr) (w : ByteString) (k : Nat),
    parseFrame s.params crc input = .ok i w k →
    ∃ t u : State, exec (.rxParse crc input) s = .next t ∧ exec i.toInstr { s with rxTail := w } = .next u ∧
      t.dec = u.dec ∧ t.reply = u.reply ∧ t.crcAcc = u.crcAcc ∧ t.tx = u.tx ∧ t.acc = u.acc

/-! ## Encodings (30_encoding.md) -/

/-- Every well-formed instruction of either layer decodes from its encoding, whatever follows (R73, R85 to R89). -/
def Obligations.DecodeOfEncode : Prop :=
  ∀ (i : Instr) (rest : ByteString), i.wf = true → decodeRow (encode i ++ rest) = .ok (i, rest)

/-- Every byte string the decoder accepts is the encoding of the instruction it gives, which is well formed: no
instruction has a second encoding (R73, R85 to R90). -/
def Obligations.EncodeOfDecode : Prop :=
  ∀ (bs : ByteString) (i : Instr) (rest : ByteString),
    decodeRow bs = .ok (i, rest) → i.wf = true ∧ bs = encode i ++ rest

/-- Words written out from the tables of R73 and R87 decode to the instructions they stand for. -/
def Obligations.DecodingOfWrittenOutWords : Prop :=
  decodeRow [0x81, 0x00, 0x10, 0x02] = .ok (.registerRead 0x00 0x10 2, []) ∧
  decodeRow [0x87, 0x00, 0x00, 0x12, 0x34, 0x02] = .ok (.dwordRead 0x00001234 2, []) ∧
  decodeTransaction [0x02, 0x00, 0x02, 0x82, 0x4F] = .ok (.crcFeed [0x82, 0x4F]) ∧
  decodeTransaction [0x10, 0x10, 0x82, 0x00, 0xDE] = .ok (.txOpen 16 (.wordWrite 0x00DE)) ∧
  decodeTransaction [0x11, 0x02, 0x5A, 0x00] = .ok (.txPush (.num ⟨.u16, 0x5A00⟩)) ∧
  decodeTransaction [0x21, 0x01, 0x00, 0x01, 0x5A] = .ok (.rxParseRem true [0x5A]) ∧
  decodeTransaction [0x31, 0x40, 0x02, 0x01, 0x01] =
    .ok (.decTake (.agg (.cons (.num .u8) (.cons (.num .u8) .nil)))) ∧
  decodeTransaction [0x40, 0x01] = .ok (.accInit true)

/-- R90: each illegal encoding it lists is rejected, a command whose bytes end before its last operand among them. The
last clause takes in the transaction without any byte, `n = 0`, which R90 does not list: that it is rejected is the
model's own choice, log entry 16. -/
def Obligations.IllegalEncodingsAreRejected : Prop :=
  (∀ (c : Byte) (bs : ByteString),
    c ∉ [0x01, 0x02, 0x03, 0x10, 0x11, 0x12, 0x13, 0x20, 0x21, 0x30, 0x31, 0x40, 0x41, 0x42] →
    decodeTransaction (c :: bs) = .error .commandByte) ∧
  (∀ (f : Byte) (bs : ByteString), f ∉ [0x00, 0x01] →
    decodeTransaction (0x12 :: f :: bs) = .error .flagByte ∧ decodeTransaction (0x20 :: f :: bs) = .error .flagByte ∧
    decodeTransaction (0x21 :: f :: bs) = .error .flagByte ∧ decodeTransaction (0x40 :: f :: bs) = .error .flagByte ∧
    decodeTransaction (0x11 :: 0x30 :: f :: bs) = .error .boolByte) ∧
  (∀ (g : Byte) (bs : ByteString),
    g ∉ [0x01, 0x02, 0x03, 0x04, 0x05, 0x11, 0x12, 0x13, 0x14, 0x15, 0x23, 0x24, 0x30, 0x40, 0x50,
      0xF0, 0xF1, 0xF2, 0xF3, 0xF4] →
    decodeTransaction (0x11 :: g :: bs) = .error .valueTag ∧ decodeTransaction (0x31 :: g :: bs) = .error .shapeTag) ∧
  (∀ bs : ByteString, decodeTransaction (0x31 :: 0x50 :: 0x00 :: 0x00 :: bs) = .error .noVariant) ∧
  (∀ (hi lo g : Byte) (bs : ByteString), ¬(hi = 0x00 ∧ lo = 0x00) → g ≠ 0x40 →
    decodeTransaction (0x31 :: 0x50 :: hi :: lo :: g :: bs) = .error .variantTag) ∧
  (∀ (cap op : Byte) (bs : ByteString), op ∉ [0x80, 0x81, 0x82, 0x83, 0x84, 0x86, 0x87] →
    decodeTransaction (0x10 :: cap :: op :: bs) = .error .opcode) ∧
  (∀ (i : Instr) (n : Nat), i.wf = true → n < (encode i).length →
    ∃ e, decodeTransaction ((encode i).take n) = .error e)

/-- R90, R282, R290: an illegal command is refused before anything else, with no change to state except
`refused_mark`. For the encodings R90 lists this is the spec's rule; for bytes behind the last operand (log entry 7) and
for a transaction without any byte (log entry 16) it is the model's own choice, and so is the queue (log entry 5). -/
def Obligations.IllegalCommandIsRefused : Prop :=
  ∀ (s : State) (bytes : ByteString) (q : List Input) (e : Illegal),
    s.pending = .command bytes :: q → decodeTransaction bytes = .error e →
    ∃ t : State, step s = .next t ∧ SameEngine s t ∧ t.refusedMark = true ∧
      t.reply = some (.refused .illegalCommand) ∧ t.pending = q ∧ t.draws = s.draws

/-! ## One step -/

/-- A step runs the decoded instruction: a host command in the state without it (20_memory.md R63); frame data's
instruction with the bytes behind it at hand, 255 bytes of data at most; and with nothing issued the engine waits (70_reset_and_hazards.md R311).
The ports are the model's own, log entries 1 and 5. -/
def Obligations.StepRunsTheDecodedInstruction : Prop :=
  ∀ (s : State) (q : List Input),
    (∀ (bytes : ByteString) (i : Instr), s.pending = .command bytes :: q → decodeTransaction bytes = .ok i →
      step s = exec i { s with pending := q, rxTail := [] }) ∧
    (∀ (i : WireInstr) (w : ByteString), s.pending = .frameData (instrEncode i ++ w) :: q →
      step s = exec i.toInstr { s with pending := q, rxTail := w.take (255 - (instrEncode i).length) }) ∧
    (s.pending = [] → step s = .next s)

/-- R310, R38: what reset leaves in the state fields, the values the spec gives. The last two clauses, that the parameters
`P_HEADER` and `P_MIN_BUILD_CAP` have their defaults (R6, R8) at reset, are the model's own choice, log entry 2. -/
def Obligations.ResetValues : Prop :=
  State.reset.crcAcc = 0xFFFF ∧ State.reset.tx.state = .idle ∧ State.reset.dec.state = .empty ∧
  State.reset.dec.win = [] ∧ State.reset.dec.pos = 0 ∧ State.reset.dec.instr = none ∧
  State.reset.acc.init = false ∧ State.reset.acc.state = .empty ∧ State.reset.acc.widx = 0 ∧
  State.reset.refusedMark = false ∧ State.reset.params.header = 0x5AA5 ∧ State.reset.params.minBuildCap = 8

/-- R310, R312, R313: a reset in the middle of a run gives the reset values again, keeps the parameters, and does not
clear `refused_mark`. -/
def Obligations.ResetKeepsTheRefusedMark : Prop :=
  ∀ (s : State) (q : List Input), s.pending = .reset :: q →
    ∃ t : State, step s = .next t ∧ t.refusedMark = s.refusedMark ∧ t.params = s.params ∧ t.crcAcc = 0xFFFF ∧
      t.tx.state = .idle ∧ t.dec.state = .empty ∧ t.dec.win = [] ∧ t.dec.pos = 0 ∧ t.dec.instr = none ∧
      t.acc.init = false ∧ t.acc.state = .empty ∧ t.acc.widx = 0 ∧ t.pending = q

/-! ## TX framer (42_encode.md, 44_frame_builder.md) -/

/-- R211: the refusals in their order, `BufferFull` exactly when the capacity is below header, length byte and
instruction, and otherwise an open builder holding them, with everything else as before. -/
def Obligations.TxOpenWritesHeaderPlaceholderInstruction : Prop :=
  ∀ (s : State) (cap : Byte) (i : WireInstr),
    (s.tx.state ≠ .idle → exec (.txOpen cap i) s =
      .next { s with refusedMark := true, reply := some (.refused .builderBusy) }) ∧
    (s.tx.state = .idle → cap.toNat < s.params.minBuildCap → exec (.txOpen cap i) s =
      .next { s with refusedMark := true, reply := some (.refused .badCapacity) }) ∧
    (s.tx.state = .idle → s.params.minBuildCap ≤ cap.toNat → ∃ t : State, exec (.txOpen cap i) s = .next t ∧
      t.tx.cap = cap ∧ t.tx.buf.length = cap.toNat ∧
      (cap.toNat < 3 + (instrEncode i).length →
        t.tx.state = .idle ∧ t.reply = some (.err .bufferFull .none)) ∧
      (3 + (instrEncode i).length ≤ cap.toNat →
        t.tx.state = .opened ∧ t.tx.cur = 3 + (instrEncode i).length ∧
        t.tx.buf.take t.tx.cur = be 2 s.params.header.toNat ++ 0x00 :: instrEncode i ∧
        t.reply = some (.ok .unit .none)) ∧
      t.params = s.params ∧ t.crcAcc = s.crcAcc ∧ t.dec = s.dec ∧ t.acc = s.acc ∧
      t.refusedMark = s.refusedMark ∧ SamePorts s t)

/-- R212, R159: TX_PUSH of a value that is encodable and fits succeeds, writes its image at the cursor and advances the
cursor by its size. -/
def Obligations.TxPushAppendsTheImage : Prop :=
  ∀ (s : State) (v : Value), s.Inv → s.tx.state = .opened → encodable v = true →
    s.tx.cur + size v ≤ s.tx.cap.toNat →
    ∃ t : State, exec (.txPush v) s = .next t ∧ t.reply = some (.ok .unit .none) ∧
      t.tx.state = .opened ∧ t.tx.cap = s.tx.cap ∧ t.tx.cur = s.tx.cur + size v ∧
      t.tx.buf = s.tx.buf.take s.tx.cur ++ image v ++ s.tx.buf.drop (s.tx.cur + size v) ∧
      (image v).length = size v ∧
      t.params = s.params ∧ t.crcAcc = s.crcAcc ∧ t.dec = s.dec ∧ t.acc = s.acc ∧
      t.refusedMark = s.refusedMark ∧ t.draws = s.draws ∧ SamePorts s t

/-- R212, R214, R143: a TX_PUSH that cannot succeed poisons the builder; what was written before it stays, the cursor is
some value from the pre-command cursor to the capacity, and nothing else changes. -/
def Obligations.FailedPushPoisonsTheBuilder : Prop :=
  ∀ (s : State) (v : Value), s.Inv → s.tx.state = .opened →
    ¬(encodable v = true ∧ s.tx.cur + size v ≤ s.tx.cap.toNat) →
    ∃ (t : State) (e : ErrKind), exec (.txPush v) s = .next t ∧ t.reply = some (.err e .none) ∧
      t.tx.state = .failed ∧ t.tx.cap = s.tx.cap ∧ s.tx.cur ≤ t.tx.cur ∧ t.tx.cur ≤ s.tx.cap.toNat ∧
      t.tx.buf.take s.tx.cur = s.tx.buf.take s.tx.cur ∧ t.tx.buf.length = s.tx.buf.length ∧
      t.params = s.params ∧ t.crcAcc = s.crcAcc ∧ t.dec = s.dec ∧ t.acc = s.acc ∧
      t.refusedMark = s.refusedMark ∧ SamePorts s t

/-- R158: the first error of the depth-first, left-to-right walk decides the outcome, and TX_PUSH has no error exactly
when the walk has none. -/
def Obligations.PushOutcomeIsTheWalksFirstError : Prop :=
  ∀ (s : State) (v : Value), s.Inv → s.tx.state = .opened →
    ∃ t : State, exec (.txPush v) s = .next t ∧
      match encodeWalk s.params v (s.tx.cap.toNat - s.tx.cur) with
      | .ok room => t.reply = some (.ok .unit .none) ∧ t.tx.cur = s.tx.cap.toNat - room
      | .error e => t.reply = some (.err e .none)

/-- R210, R212, R213: TX_PUSH and TX_FINAL are refused unless a builder is open. -/
def Obligations.PushAndFinalNeedAnOpenBuilder : Prop :=
  ∀ (s : State) (v : Value) (crc : Bool), s.tx.state ≠ .opened →
    exec (.txPush v) s = .next { s with refusedMark := true, reply := some (.refused .noBuilder) } ∧
    exec (.txFinal crc) s = .next { s with refusedMark := true, reply := some (.refused .noBuilder) }

/-- R213, R217: the finished frame is the bytes written with the length byte patched to their count less 3, and with CRC
on the trailer over the bytes from the opcode on, low byte first; the builder is consumed, and the bytes behind the frame
are as before. -/
def Obligations.TxFinalPatchesLengthAndAppendsCrc : Prop :=
  ∀ (s : State) (crc : Bool), s.Inv → s.tx.state = .opened →
    s.tx.cur + (if crc then 2 else 0) ≤ s.tx.cap.toNat →
    ∃ (t : State) (out : ByteString), exec (.txFinal crc) s = .next t ∧ t.reply = some (.ok (.bytes out) .none) ∧
      out = be 2 s.params.header.toNat ++ BitVec.ofNat 8 (out.length - 3) ::
        ((s.tx.buf.take s.tx.cur).drop 3 ++
          if crc then le2 (crc16 ((s.tx.buf.take s.tx.cur).drop 3)) else []) ∧
      out.length = s.tx.cur + (if crc then 2 else 0) ∧ out.length - 3 ≤ 252 ∧
      t.tx.state = .idle ∧ t.tx.cap = s.tx.cap ∧ t.tx.cur = out.length ∧ t.tx.buf.take t.tx.cur = out ∧
      t.tx.buf.drop t.tx.cur = s.tx.buf.drop t.tx.cur ∧
      t.params = s.params ∧ t.crcAcc = s.crcAcc ∧ t.dec = s.dec ∧ t.acc = s.acc ∧
      t.refusedMark = s.refusedMark ∧ t.draws = s.draws ∧ SamePorts s t

/-- R213: with CRC on and fewer than 2 bytes free TX_FINAL reports `BufferFull`, and the builder is consumed all the
same. -/
def Obligations.TxFinalWithoutRoomForCrcFails : Prop :=
  ∀ s : State, s.Inv → s.tx.state = .opened → s.tx.cap.toNat < s.tx.cur + 2 →
    ∃ t : State, exec (.txFinal true) s = .next t ∧ t.reply = some (.err .bufferFull .none) ∧
      t.tx.state = .idle ∧ t.tx.cap = s.tx.cap ∧ t.tx.buf.take s.tx.cur = s.tx.buf.take s.tx.cur ∧
      t.tx.buf.length = s.tx.buf.length ∧
      t.params = s.params ∧ t.crcAcc = s.crcAcc ∧ t.dec = s.dec ∧ t.acc = s.acc ∧
      t.refusedMark = s.refusedMark ∧ SamePorts s t

/-- R215: TX_ABORT leaves the builder idle and everything else as it was. -/
def Obligations.TxAbortOnlyDropsTheBuilder : Prop :=
  ∀ s : State, exec .txAbort s =
    .next { s with tx := { s.tx with state := .idle }, reply := some (.ok .unit .none) }

/-- R93, R217: BUILD with encodable values that fit gives the frame of R70, from any state without a builder. -/
def Obligations.BuildGivesTheFrame : Prop :=
  ∀ (s : State) (i : WireInstr) (cap : Byte) (crc : Bool) (vs : List Value),
    s.tx.state = .idle → s.params.minBuildCap ≤ cap.toNat → (∀ v ∈ vs, encodable v = true) →
    3 + (instrEncode i).length + (vs.map size).sum + (if crc then 2 else 0) ≤ cap.toNat →
    ∃ t : State, build i cap crc vs s =
        (some (.ok (.bytes (be 2 s.params.header.toNat ++
          BitVec.ofNat 8 ((instrEncode i).length + (vs.map size).sum + (if crc then 2 else 0)) ::
          (instrEncode i ++ vs.flatMap image ++
            if crc then le2 (crc16 (instrEncode i ++ vs.flatMap image)) else []))) .none), .next t) ∧
      t.tx.state = .idle ∧ t.params = s.params ∧ t.crcAcc = s.crcAcc ∧ t.dec = s.dec ∧ t.acc = s.acc ∧
      t.refusedMark = s.refusedMark

/-- R218: a frame TX_FINAL gives, of at least the minimum length, parses back to its instruction and payload with
k = |out|; and built with CRC on but parsed with CRC off, its trailer is left at the end of the window. -/
def Obligations.BuiltFrameParsesBack : Prop :=
  ∀ (s t u : State) (crc : Bool) (i : WireInstr) (payload out : ByteString),
    s.Inv → s.tx.state = .opened →
    s.tx.buf.take s.tx.cur = be 2 s.params.header.toNat ++ 0x00 :: (instrEncode i ++ payload) →
    exec (.txFinal crc) s = .next t → t.reply = some (.ok (.bytes out) .none) → u.params = s.params →
    minLen crc ≤ out.length - 3 →
    (∃ v : State, exec (.rxParseRem crc out) u = .next v ∧
      v.reply = some (.ok (.instr i) (.optional (some out.length))) ∧
      v.dec = { state := .ready, src := .parser, win := payload, pos := 0, instr := some i }) ∧
    (crc = true → ∃ v : State, exec (.rxParse false out) u = .next v ∧ v.reply = some (.ok (.instr i) .none) ∧
      v.dec.win = payload ++ le2 (crc16 (instrEncode i ++ payload)))

/-! ## Values (42_encode.md, 43_decode.md) -/

/-- R193: a value that conforms to a shape decodes from its image, wherever the image stands and whatever follows. -/
def Obligations.DecodeOfImage : Prop :=
  ∀ (ps : Config.Params) (v : Value) (t : Shape) (pre rest : ByteString),
    conforms v t = true → encodable v = true →
    dec ps t (pre ++ image v ++ rest) pre.length = .ok (v, pre.length + size v)

/-- R194, R181: what the decoder gives conforms to the shape, its image is exactly the bytes read, and the position
stays within the window. -/
def Obligations.DecodedValueReencodesToTheBytesRead : Prop :=
  ∀ (ps : Config.Params) (t : Shape) (w : ByteString) (p p' : Nat) (v : Value),
    p ≤ w.length → dec ps t w p = .ok (v, p') →
    p ≤ p' ∧ p' ≤ w.length ∧ p' = p + size v ∧ conforms v t = true ∧ encodable v = true ∧
      image v = (w.drop p).take (p' - p)

/-- R181, R189: the decoder reads nothing past the position it returns. -/
def Obligations.DecoderReadsNothingPastItsPosition : Prop :=
  ∀ (ps : Config.Params) (t : Shape) (w rest : ByteString) (p p' : Nat) (v : Value),
    p ≤ w.length → dec ps t w p = .ok (v, p') → dec ps t (w.take p' ++ rest) p = .ok (v, p')

/-- R182, R185 to R189: where each kind of shape fails, at any position of a window, and with which error. A numeric shape,
a Bool and a discriminant need their bytes; a Bool word is 0 or 1; a discriminant has a variant; an unsupported kind
always fails. An aggregate reports its first field's error; when that field is read, it reports what the fields behind
it report from the position reached, and without fields it always succeeds. An Enum reports its variant's error. -/
def Obligations.DecodeErrorsByShape : Prop :=
  ∀ (ps : Config.Params) (pre w : ByteString),
    (∀ k : NumKind, w.length < k.size → dec ps (.num k) (pre ++ w) pre.length = .error .unexpectedEnd) ∧
    (w.length < 2 → dec ps .bool (pre ++ w) pre.length = .error .unexpectedEnd) ∧
    (∀ u : Word, 2 ≤ u.toNat → dec ps .bool (pre ++ (be 2 u.toNat ++ w)) pre.length = .error .badBool) ∧
    (∀ vs : Variants, w.length < 2 → dec ps (.enum vs) (pre ++ w) pre.length = .error .unexpectedEnd) ∧
    (∀ (vs : Variants) (d : Word), vs.length ≤ d.toNat →
      dec ps (.enum vs) (pre ++ (be 2 d.toNat ++ w)) pre.length = .error .badEnumDiscriminant) ∧
    (∀ (vs : Variants) (d : Word) (ts : Shapes) (e : ErrKind), variantAt vs d.toNat = some ts →
      dec ps (.agg ts) (pre ++ (be 2 d.toNat ++ w)) (pre.length + 2) = .error e →
      dec ps (.enum vs) (pre ++ (be 2 d.toNat ++ w)) pre.length = .error e) ∧
    dec ps (.agg .nil) (pre ++ w) pre.length = .ok (.agg .nil, pre.length) ∧
    (∀ (t : Shape) (ts : Shapes) (e : ErrKind), dec ps t (pre ++ w) pre.length = .error e →
      dec ps (.agg (.cons t ts)) (pre ++ w) pre.length = .error e) ∧
    (∀ (t : Shape) (ts : Shapes) (v : Value) (p : Nat) (e : ErrKind), dec ps t (pre ++ w) pre.length = .ok (v, p) →
      dec ps (.agg ts) (pre ++ w) p = .error e → dec ps (.agg (.cons t ts)) (pre ++ w) pre.length = .error e) ∧
    (∀ k : UnsupKind, dec ps (.unsup k) (pre ++ w) pre.length = .error (unsupportedErr ps k))

/-- R157, R188: encoder and decoder report the same error kind for an unsupported kind, `NotYetImplemented` or
`WontImplement`, and nothing is written or read. -/
def Obligations.UnsupportedKindsFailAlike : Prop :=
  ∀ (ps : Config.Params) (k : UnsupKind) (draw : Nat) (tx : TxUnit) (w : ByteString) (p : Nat),
    ∃ e ∈ [ErrKind.notYetImplemented, ErrKind.wontImplement],
      enc ps draw (.unsup k) tx = .failed tx e ∧ dec ps (.unsup k) w p = .error e

/-- R152, R183: a signed integer in range is written as the bytes of `x mod 2^N` and reads back as itself. That signed
integers are two's complement is the spec's own general knowledge, not its source's (log entry 12, PRESUMED). -/
def Obligations.SignedIntegersAreTwosComplement : Prop :=
  ∀ (ps : Config.Params) (k : NumKind) (x : Int) (rest : ByteString), isSigned k = true →
    -(2 : Int) ^ (8 * k.size - 1) ≤ x → x < (2 : Int) ^ (8 * k.size - 1) →
    (numOfInt k x).image = be k.size (x % (2 : Int) ^ (8 * k.size)).toNat ∧
    numValue (numOfInt k x) = x ∧
    dec ps (.num k) ((numOfInt k x).image ++ rest) 0 = .ok (.num (numOfInt k x), k.size)

/-- R190: DEC_LOAD loads the window and drops any frame handle; nothing else changes. -/
def Obligations.DecLoadLoadsTheWindow : Prop :=
  ∀ (s : State) (window : ByteString), exec (.decLoad window) s =
    .next { s with
      dec := { state := .ready, src := .host, win := window, pos := 0, instr := none },
      reply := some (.ok .unit .none) }

/-- R191, R192: DEC_TAKE moves only the position on success and only the unit's state on an error, and is refused
without a window. -/
def Obligations.DecTakeMovesOnlyThePosition : Prop :=
  ∀ (s : State) (t : Shape),
    (s.dec.state = .ready → ∀ (v : Value) (p : Nat), dec s.params t s.dec.win s.dec.pos = .ok (v, p) →
      exec (.decTake t) s =
        .next { s with dec := { s.dec with pos := p }, reply := some (.ok (.value v) .none) }) ∧
    (s.dec.state = .ready → ∀ e : ErrKind, dec s.params t s.dec.win s.dec.pos = .error e →
      exec (.decTake t) s =
        .next { s with dec := { s.dec with state := .failed }, reply := some (.err e .none) }) ∧
    (s.dec.state ≠ .ready →
      exec (.decTake t) s = .next { s with refusedMark := true, reply := some (.refused .noWindow) })

/-! ## Whole-frame parser (45_frame_parser.md) -/

/-- R232 to R236: the stages in their order, each with the error it reports, and the result when all succeed. -/
def Obligations.ParserStagesInOrder : Prop :=
  ∀ (p : Config.Params) (crc : Bool) (input : ByteString),
    (input.length < 2 → parseFrame p crc input = .err .unexpectedEnd none) ∧
    (2 ≤ input.length → input.take 2 ≠ be 2 p.header.toNat → parseFrame p crc input = .err .badHeader none) ∧
    (input.length = 2 → input.take 2 = be 2 p.header.toNat → parseFrame p crc input = .err .unexpectedEnd none) ∧
    ∀ L : Byte, input[2]? = some L → input.take 2 = be 2 p.header.toNat →
      (L.toNat < minLen crc → parseFrame p crc input = .err .badLen none) ∧
      (minLen crc ≤ L.toNat → input.length < 3 + L.toNat → parseFrame p crc input = .err .unexpectedEnd none) ∧
      (minLen crc ≤ L.toNat → ∀ (data : ByteString) (lo hi : Byte) (rest : ByteString),
        input.drop 3 = data ++ lo :: hi :: rest → data.length + 2 = L.toNat → crc = true →
        crc16 data ≠ fromLe2 lo hi → parseFrame p crc input = .err .badCrc (some (3 + L.toNat))) ∧
      (minLen crc ≤ L.toNat → ∀ (data trailer rest : ByteString),
        input.drop 3 = data ++ trailer ++ rest → data.length + trailer.length = L.toNat →
        (crc = true → trailer = le2 (crc16 data)) → (crc = false → trailer = []) →
        (∀ e : ErrKind, instrDecode data = .error e → parseFrame p crc input = .err e (some (3 + L.toNat))) ∧
        (∀ (i : WireInstr) (n : Nat), instrDecode data = .ok (i, n) →
          parseFrame p crc input = .ok i (data.drop n) (3 + L.toNat)))

/-- R237 to R239: both commands complete on every input; a parse loads the frame handle and an error clears it;
RX_PARSE_REM alone reports the offset; no other state is written. -/
def Obligations.ParseCommandsWriteOnlyTheFrameHandle : Prop :=
  ∀ (s : State) (crc : Bool) (input : ByteString), ∃ d : DecUnit,
    (∀ (i : WireInstr) (w : ByteString) (k : Nat), parseFrame s.params crc input = .ok i w k →
      d = { state := .ready, src := .parser, win := w, pos := 0, instr := some i } ∧
      exec (.rxParse crc input) s = .next { s with dec := d, reply := some (.ok (.instr i) .none) } ∧
      exec (.rxParseRem crc input) s =
        .next { s with dec := d, reply := some (.ok (.instr i) (.optional (some k))) }) ∧
    (∀ (e : ErrKind) (k : Option Nat), parseFrame s.params crc input = .err e k →
      d = { state := .empty, src := s.dec.src, win := [], pos := 0, instr := none } ∧
      exec (.rxParse crc input) s = .next { s with dec := d, reply := some (.err e .none) } ∧
      exec (.rxParseRem crc input) s = .next { s with dec := d, reply := some (.err e (.optional k)) })

/-- R240, R241: an offset that is reported is 3 plus the declared length, whatever the later stages read, and the bytes
behind it have no say in the outcome. -/
def Obligations.RemainderIsFixedByTheDeclaredLength : Prop :=
  ∀ (p : Config.Params) (crc : Bool) (input : ByteString) (k : Nat),
    ((∃ i w, parseFrame p crc input = .ok i w k) ∨ (∃ e, parseFrame p crc input = .err e (some k))) →
    (∃ L : Byte, input[2]? = some L ∧ k = 3 + L.toNat) ∧ k ≤ input.length ∧
    ∀ rest : ByteString, parseFrame p crc (input.take k ++ rest) = parseFrame p crc input

/-- R240: an error without an offset is the header stage's or the length stage's; every error of the CRC and instruction
stages has the offset `3 + L`. -/
def Obligations.OffsetIsMissingOnlyBeforeTheBody : Prop :=
  ∀ (p : Config.Params) (crc : Bool) (input : ByteString) (e : ErrKind) (k : Option Nat),
    parseFrame p crc input = .err e k →
    (k = none → e ∈ [ErrKind.unexpectedEnd, .badHeader, .badLen] ∧
      (headerStage p input = .error e ∨ headerStage p input = .ok () ∧ lengthStage crc input = .error e)) ∧
    (k ≠ none → e ∈ [ErrKind.badCrc, .badInstruction, .unexpectedEnd] ∧
      ∃ L : Nat, headerStage p input = .ok () ∧ lengthStage crc input = .ok L ∧ k = some (3 + L) ∧
        bodyStages crc (bodyStage input L) = .error e)

/-- R61: repeating a parse with the same operands gives the same outcome and the same state. -/
def Obligations.RepeatedParseGivesTheSameState : Prop :=
  ∀ (s t : State) (crc : Bool) (input : ByteString),
    (exec (.rxParse crc input) s = .next t → exec (.rxParse crc input) t = .next t) ∧
    (exec (.rxParseRem crc input) s = .next t → exec (.rxParseRem crc input) t = .next t)

/-! ## Accumulator (46_accumulator.md) -/

/-- R250, R260, R254: ACC_INIT and ACC_RESET empty the accumulator, set or keep its CRC flag, take back an accumulator
window and leave any other; ACC_RESET is refused before ACC_INIT. -/
def Obligations.AccInitAndResetEmptyTheAccumulator : Prop :=
  ∀ (s : State) (crc : Bool), ∃ d : DecUnit,
    (s.AccWindow → d = { s.dec with state := .empty, win := [], pos := 0, instr := none }) ∧
    (¬s.AccWindow → d = s.dec) ∧
    exec (.accInit crc) s = .next { s with
      acc := { s.acc with init := true, crc := crc, state := .empty, widx := 0 }, dec := d,
      reply := some (.ok .unit .none) } ∧
    (s.acc.init = true → exec .accReset s = .next { s with
      acc := { s.acc with state := .empty, widx := 0 }, dec := d, reply := some (.ok .unit .none) }) ∧
    (s.acc.init = false → exec .accReset s =
      .next { s with refusedMark := true, reply := some (.refused .accUninit) })

/-- R252, R253, R255: what a header or length byte does to the accumulator. -/
def Obligations.HeaderAndLengthBytes : Prop :=
  ∀ (p : Config.Params) (b : Byte) (a : AccUnit),
    (a.state = .empty → a.step p b =
      if be 2 p.header.toNat = [b, p.header.setWidth 8] then ({ a with state := .headerByte1Seen }, .more)
      else ({ a with state := .empty, widx := 0 }, .err .badHeader)) ∧
    (a.state = .headerByte1Seen → a.step p b =
      if (be 2 p.header.toNat).drop 1 = [b] then ({ a with state := .headerByte2Seen }, .more)
      else ({ a with state := .empty, widx := 0 }, .err .badHeader)) ∧
    (a.state = .headerByte2Seen → a.step p b =
      if b.toNat < (if a.crc then 5 else 3) then ({ a with state := .empty, widx := 0 }, .err .badLen)
      else if p.accCap < b.toNat then ({ a with state := .empty, widx := 0 }, .err .tooLarge)
      else ({ a with len := b, widx := 0, state := .payloadByte b.toNat }, .more))

/-- R256, R264: the bytes of a body are taken whatever they are, one after the other, until the last. -/
def Obligations.BodyBytesAreSwallowed : Prop :=
  ∀ (s : State) (rem : Nat) (bs : ByteString),
    s.Inv → s.acc.init = true → s.acc.state = .payloadByte rem → bs.length < rem →
    ∃ t : State, exec (.accFeed bs) s = .next t ∧ t.reply = some .consumed ∧
      t.acc = { s.acc with
        state := .payloadByte (rem - bs.length),
        widx := s.acc.widx + bs.length,
        buf := s.acc.buf.take s.acc.widx ++ bs ++ s.acc.buf.drop (s.acc.widx + bs.length) }

/-- R251, R254, R258, R320: ACC_FEED is refused before ACC_INIT; otherwise it completes with one of its three outcomes,
the offset counts at least one byte and at most all, an event leaves the accumulator empty, a frame is loaded, any other
outcome takes back the whole of an accumulator window and leaves any other as it is, and nothing outside the accumulator
and the frame handle changes. -/
def Obligations.AccFeedCompletes : Prop :=
  ∀ (s : State) (input : ByteString),
    (s.acc.init = false → exec (.accFeed input) s =
      .next { s with refusedMark := true, reply := some (.refused .accUninit) }) ∧
    (s.acc.init = true → ∃ t : State, exec (.accFeed input) s = .next t ∧
      t.acc.init = true ∧ t.acc.crc = s.acc.crc ∧ t.params = s.params ∧ t.crcAcc = s.crcAcc ∧ t.tx = s.tx ∧
      t.refusedMark = s.refusedMark ∧ t.draws = s.draws ∧ SamePorts s t ∧
      ((t.reply = some .consumed ∧
          (s.AccWindow → t.dec = { s.dec with state := .empty, win := [], pos := 0, instr := none }) ∧
          (¬s.AccWindow → t.dec = s.dec)) ∨
       (∃ e k, t.reply = some (.err e (.plain k)) ∧ 1 ≤ k ∧ k ≤ input.length ∧
          e ∈ [ErrKind.badHeader, .badLen, .tooLarge, .bufferFull, .badCrc, .badInstruction, .unexpectedEnd] ∧
          t.acc.state = .empty ∧ t.acc.widx = 0 ∧
          (s.AccWindow → t.dec = { s.dec with state := .empty, win := [], pos := 0, instr := none }) ∧
          (¬s.AccWindow → t.dec = s.dec)) ∨
       (∃ i k w, t.reply = some (.ok (.instr i) (.plain k)) ∧ 1 ≤ k ∧ k ≤ input.length ∧
          t.acc.state = .empty ∧ t.acc.widx = 0 ∧
          t.dec = { state := .ready, src := .acc, win := w, pos := 0, instr := some i })))

/-- R262: a host that feeds a byte sequence in any chunks, re-feeding each remainder, sees the errors, instructions and
windows, at the offsets in the sequence, that it sees when it feeds the whole in one command and re-feeds its
remainders. -/
def Obligations.ChunkingDoesNotMatter : Prop :=
  ∀ (s : State) (chunks : List ByteString), s.acc.init = true →
    (drainChunks 0 chunks s).1 = (drain chunks.flatten.length 0 chunks.flatten s).1 ∧
    (drainChunks 0 chunks s).2.acc = (drain chunks.flatten.length 0 chunks.flatten s).2.acc

/-- The accumulator and the whole-frame parser agree: from the empty accumulator, one feed of an input that begins with
a frame the parser takes, or rejects after its length stage, gives the parser's instruction, window, error and offset
(45_frame_parser.md R230, R231; 46_accumulator.md R257), when the declared length fits the accumulator. -/
def Obligations.AccumulatorAgreesWithParser : Prop :=
  ∀ (s : State) (input : ByteString) (k : Nat), s.Inv → s.acc.init = true → s.acc.state = .empty →
    k ≤ 3 + s.params.accCap →
    (∀ (i : WireInstr) (w : ByteString), parseFrame s.params s.acc.crc input = .ok i w k →
      ∃ t : State, exec (.accFeed input) s = .next t ∧ t.reply = some (.ok (.instr i) (.plain k)) ∧
        t.dec = { state := .ready, src := .acc, win := w, pos := 0, instr := some i }) ∧
    (∀ e : ErrKind, parseFrame s.params s.acc.crc input = .err e (some k) →
      ∃ t : State, exec (.accFeed input) s = .next t ∧ t.reply = some (.err e (.plain k)))

/-- R259: from the empty accumulator a frame is reported only when the whole of it has arrived and, with CRC on, its
check has passed: the bytes fed are a frame the parser takes. -/
def Obligations.NoPartialFrameEscapes : Prop :=
  ∀ (s t : State) (input : ByteString) (i : WireInstr) (k : Nat), s.Inv → s.acc.state = .empty →
    exec (.accFeed input) s = .next t → t.reply = some (.ok (.instr i) (.plain k)) →
    parseFrame s.params s.acc.crc (input.take k) = .ok i t.dec.win k ∧ k ≤ 3 + s.params.accCap

/-- R263: one garbage byte other than `HDR_HI` costs one error and the frame behind it is received; with
`HDR_HI != HDR_LO` a garbage byte `HDR_HI` costs the frame's header, at k = 2 and then at k = 1. -/
def Obligations.ResynchronisationAfterOneGarbageByte : Prop :=
  ∀ (s : State) (hi lo : Byte), s.Inv → s.acc.init = true → s.acc.state = .empty →
    be 2 s.params.header.toNat = [hi, lo] →
    (∀ (g : Byte) (F : ByteString) (i : WireInstr) (w : ByteString), g ≠ hi →
      parseFrame s.params s.acc.crc F = .ok i w F.length → F.length ≤ 3 + s.params.accCap →
      ∃ t u : State, exec (.accFeed (g :: F)) s = .next t ∧ t.reply = some (.err .badHeader (.plain 1)) ∧
        exec (.accFeed F) t = .next u ∧ u.reply = some (.ok (.instr i) (.plain F.length)) ∧ u.dec.win = w) ∧
    (∀ rest : ByteString, hi ≠ lo →
      ∃ t u : State, exec (.accFeed (hi :: hi :: lo :: rest)) s = .next t ∧
        t.reply = some (.err .badHeader (.plain 2)) ∧
        exec (.accFeed (lo :: rest)) t = .next u ∧ u.reply = some (.err .badHeader (.plain 1)) ∧
        u.acc.state = .empty)

/-- R256: the accumulator's `BufferFull` cannot be reached. -/
def Obligations.AccumulatorNeverReportsBufferFull : Prop :=
  ∀ (s t : State) (input : ByteString) (k : Offset), s.Inv →
    exec (.accFeed input) s = .next t → t.reply ≠ some (.err .bufferFull k)

/-- R320: an accumulator window can be read only until the next accumulator command; after ACC_INIT, ACC_RESET or an
ACC_FEED that reports no new frame a DEC_TAKE is refused. -/
def Obligations.AccumulatorWindowIsTakenBack : Prop :=
  ∀ (s t : State) (c : Instr) (shape : Shape), s.AccWindow → s.acc.init = true →
    (c = .accReset ∨ (∃ crc, c = .accInit crc) ∨ (∃ input, c = .accFeed input)) →
    exec c s = .next t → (∀ i k, t.reply ≠ some (.ok (.instr i) k)) →
    ∃ u : State, exec (.decTake shape) t = .next u ∧ u.reply = some (.refused .noWindow)

/-! ## Errors, refusals and the whole machine -/

/-- R282, R283: every instruction ends with exactly one outcome; none traps and none is without a meaning. -/
def Obligations.EveryInstructionEndsWithAnOutcome : Prop :=
  ∀ (i : Instr) (s : State), ∃ (t : State) (r : Reply), exec i s = .next t ∧ t.reply = some r

/-- R290: an instruction is refused exactly in the states the rule lists, with the reason it lists, and then nothing but
`refused_mark` and the outcome changes. -/
def Obligations.RefusedExactlyWhereListed : Prop :=
  ∀ (i : Instr) (s t : State), exec i s = .next t →
    (∀ r : RefuseReason, refusalOf i s = some r →
      t = { s with refusedMark := true, reply := some (.refused r) }) ∧
    (refusalOf i s = none → t.wasRefused = false ∧ t.refusedMark = s.refusedMark)

/-- R38, R312: `refused_mark` is 0 at first, no step clears it, not even a reset, every refusal sets it, and only a
refusal does. -/
def Obligations.RefusedMarkIsSticky : Prop :=
  State.reset.refusedMark = false ∧ ∀ s t : State, step s = .next t →
    (s.refusedMark = true → t.refusedMark = true) ∧
    (s.pending ≠ [] → t.wasRefused = true → t.refusedMark = true) ∧
    (s.refusedMark = false → t.refusedMark = true → t.wasRefused = true)

/-- R313: no step changes the parameters. -/
def Obligations.ParametersNeverChange : Prop :=
  ∀ s t : State, step s = .next t → t.params = s.params

/-- R22: no command outside the CRC unit reads or writes `crc_acc`: run from a state with another value there, it gives
the same state with that other value. -/
def Obligations.CrcRegisterIsPrivateToTheCrcUnit : Prop :=
  ∀ (i : Instr) (s t : State) (c : Word), i.opcode ∉ [0x01, 0x02, 0x03] → exec i s = .next t →
    t.crcAcc = s.crcAcc ∧ exec i { s with crcAcc := c } = .next { t with crcAcc := c }

/-- 20_memory.md R67, 45_frame_parser.md R237: only the TX commands write the builder, only the accumulator commands
write the accumulator, and the CRC and TX commands leave the frame handle alone. -/
def Obligations.UnitsAreWrittenByTheirOwnCommands : Prop :=
  ∀ (i : Instr) (s t : State), exec i s = .next t →
    (i.opcode ∉ [0x10, 0x11, 0x12, 0x13] → t.tx = s.tx) ∧
    (i.opcode ∉ [0x40, 0x41, 0x42] → t.acc = s.acc) ∧
    (i.opcode ∈ [0x01, 0x02, 0x03, 0x10, 0x11, 0x12, 0x13] → t.dec = s.dec) ∧
    t.pending = s.pending ∧ t.rxTail = s.rxTail

/-- R41: the invariants hold at reset, where the parameters and the unspecified fields are the model's own choice (log
entries 2 and 4). -/
def Obligations.ResetMeetsTheInvariant : Prop := State.reset.Inv

/-- R41: every step keeps the invariants, from every state that has them. Beside R41's clauses the invariant holds the range
of `P_ACC_CAP` (R9), the form of the buffers (R25, R36) and a bound on a loaded window. That bound is the model's own
reading, log entry 11: R29's `P_ACC_CAP` from the accumulator, and from the parser 255 bytes less the instruction's, which
is R29's 252 but 253 behind a CurveWrite. -/
def Obligations.StepKeepsTheInvariant : Prop :=
  ∀ s t : State, s.Inv → step s = .next t → t.Inv

/-- R281: the status bytes of every outcome; two outcomes share one only when they are of one kind. -/
def Obligations.StatusCodesTellOutcomesApart : Prop :=
  (∀ e f : ErrKind, errCode e = errCode f → e = f) ∧
  (∀ r : Reply,
    (statusCode r = 0x00 ↔ ∃ out k, r = .ok out k) ∧ (statusCode r = 0x01 ↔ r = .consumed) ∧
    (statusCode r = 0x10 ↔ ∃ k, r = .err .badHeader k) ∧ (statusCode r = 0x11 ↔ ∃ k, r = .err .badLen k) ∧
    (statusCode r = 0x12 ↔ ∃ k, r = .err .tooLarge k) ∧ (statusCode r = 0x13 ↔ ∃ k, r = .err .badInstruction k) ∧
    (statusCode r = 0x14 ↔ ∃ k, r = .err .unexpectedEnd k) ∧ (statusCode r = 0x20 ↔ ∃ k, r = .err .badCrc k) ∧
    (statusCode r = 0x30 ↔ ∃ k, r = .err .badBool k) ∧
    (statusCode r = 0x31 ↔ ∃ k, r = .err .badEnumDiscriminant k) ∧
    (statusCode r = 0x32 ↔ ∃ k, r = .err .notYetImplemented k) ∧
    (statusCode r = 0x33 ↔ ∃ k, r = .err .wontImplement k) ∧
    (statusCode r = 0x40 ↔ ∃ k, r = .err .bufferFull k) ∧ (statusCode r = 0xFF ↔ ∃ x, r = .refused x) ∧
    statusCode r ∈ [0x00, 0x01, 0x10, 0x11, 0x12, 0x13, 0x14, 0x20, 0x30, 0x31, 0x32, 0x33, 0x40, 0xFF])
end

