-- ==== Sys2Proof/Laws/Bytes.lean ====
section
/-! SUPPORT. Laws of byte strings and byte order (00_scope.md R13): lengths, and that `from_be` undoes `be_N` and back. -/

namespace Sys2Proof

@[simp] theorem be_length (n v : Nat) : (be n v).length = n := by
  induction n with
  | zero => rfl
  | succ n ih => simp [be, ih]

/-- Only the low `n` bytes of the number count. -/
theorem be_mod (n v : Nat) : be n (v % 256 ^ n) = be n v := by
  have aux : ∀ m n v, m ≤ n → be m (v % 256 ^ n) = be m v := by
    intro m
    induction m with
    | zero => intros; rfl
    | succ m ih =>
      intro n v h
      simp only [be, ih n v (by omega), List.cons.injEq, and_true]
      apply BitVec.eq_of_toNat_eq
      simp only [BitVec.toNat_ofNat]
      obtain ⟨k, rfl⟩ : ∃ k, n = m + 1 + k := ⟨n - (m + 1), by omega⟩
      have hsplit : (256 : Nat) ^ (m + 1 + k) = 256 ^ m * (256 * 256 ^ k) := by
        rw [pow_add, pow_add, pow_one, mul_assoc]
      rw [hsplit, Nat.mod_mul_right_div_self]
      exact Nat.mod_mul_right_mod _ _ _
  exact aux n n v (Nat.le_refl n)

theorem fromBe_lt (bs : ByteString) : fromBe bs < 256 ^ bs.length := by
  induction bs with
  | nil => simp [fromBe]
  | cons b bs ih =>
    simp only [fromBe, List.length_cons]
    have hb : b.toNat < 256 := b.isLt
    have h1 : b.toNat * 256 ^ bs.length ≤ 255 * 256 ^ bs.length := Nat.mul_le_mul_right _ (by omega)
    have h2 : 256 ^ (bs.length + 1) = 256 * 256 ^ bs.length := by rw [pow_succ, mul_comm]
    omega

@[simp] theorem fromBe_be (n v : Nat) : fromBe (be n v) = v % 256 ^ n := by
  induction n with
  | zero => simp [be, fromBe, Nat.mod_one]
  | succ n ih =>
    simp only [be, fromBe, ih, be_length, BitVec.toNat_ofNat]
    have h := Nat.mod_mul (x := v) (a := 256 ^ n) (b := 256)
    rw [pow_succ 256 n, h, mul_comm (v / 256 ^ n % 2 ^ 8), add_comm]

theorem be_fromBe (bs : ByteString) : be bs.length (fromBe bs) = bs := by
  induction bs with
  | nil => rfl
  | cons b bs ih =>
    have hlt := fromBe_lt bs
    simp only [List.length_cons, be, fromBe, List.cons.injEq]
    constructor
    · rw [mul_comm, Nat.mul_add_div (by positivity), Nat.div_eq_of_lt hlt]
      simp
    · rw [← be_mod, mul_comm, Nat.mul_add_mod, Nat.mod_eq_of_lt hlt, ih]

/-- `fromBe` tells byte strings of one length apart. -/
theorem fromBe_inj {as bs : ByteString} (hl : as.length = bs.length) (h : fromBe as = fromBe bs) : as = bs := by
  rw [← be_fromBe as, ← be_fromBe bs, hl, h]

@[simp] theorem le2_length (v : Word) : (le2 v).length = 2 := rfl

@[simp] theorem fromLe2_le2 (v : Word) : fromLe2 (v.setWidth 8) ((v >>> 8).setWidth 8) = v := by
  unfold fromLe2
  ext i hi
  simp only [BitVec.getElem_or, BitVec.getElem_setWidth, BitVec.getLsbD_setWidth, BitVec.getElem_shiftLeft,
    BitVec.getLsbD_ushiftRight]
  by_cases h : i < 8
  · simp [h, BitVec.getLsbD_eq_getElem, hi]
  · have h8 : i - 8 < 8 := by omega
    simp [h, h8, show 8 + (i - 8) = i by omega, BitVec.getLsbD_eq_getElem, hi]

/-- A little-endian pair is the two bytes of its value. -/
theorem le2_fromLe2 (lo hi : Byte) : le2 (fromLe2 lo hi) = [lo, hi] := by
  unfold le2 fromLe2
  simp only [List.cons.injEq, and_true]
  constructor <;>
  · ext i hi'
    simp only [BitVec.getElem_setWidth, BitVec.getLsbD_or, BitVec.getLsbD_setWidth, BitVec.getLsbD_shiftLeft,
      BitVec.getLsbD_ushiftRight]
    simp [hi', show i < 16 by omega, show 8 + i < 16 by omega]

/-- The two bytes of a word, the high one first: the header's `HDR_HI` and `HDR_LO` (00_scope.md R6). -/
theorem be_two (w : Word) : be 2 w.toNat = [(w >>> 8).setWidth 8, w.setWidth 8] := by
  simp only [be, List.cons.injEq, and_true]
  constructor
  · apply BitVec.eq_of_toNat_eq
    simp [Nat.shiftRight_eq_div_pow]
  · apply BitVec.eq_of_toNat_eq
    simp

/-! ## `takeExact` -/

theorem takeExact_append (bs rest : ByteString) : takeExact bs.length (bs ++ rest) = some (bs, rest) := by
  induction bs with
  | nil => simp [takeExact]
  | cons b bs ih => simp [takeExact, ih]

theorem takeExact_of_length {n : Nat} {bs : ByteString} (rest : ByteString) (h : bs.length = n) :
    takeExact n (bs ++ rest) = some (bs, rest) := h ▸ takeExact_append bs rest

/-- What `takeExact` gives: the first `n` bytes and the rest, or that there are fewer. -/
theorem takeExact_eq (n : Nat) (bs : ByteString) :
    takeExact n bs = if n ≤ bs.length then some (bs.take n, bs.drop n) else none := by
  induction n generalizing bs with
  | zero => simp [takeExact]
  | succ n ih =>
    cases bs with
    | nil => simp [takeExact]
    | cons b bs =>
      simp only [takeExact, ih, List.length_cons, Nat.add_le_add_iff_right]
      split <;> simp

end Sys2Proof
end

