-- ==== Sys2Proof/Laws/State.lean ====
section
/-! SUPPORT. One lemma per field per update of the state, so that no later proof unfolds a record update. -/

namespace Sys2Proof.Machine

/-! ### `State.answer` -/

@[simp] theorem State.answer_params (out : Output) (k : Offset) (s : State) :
    (s.answer out k).params = s.params := rfl

@[simp] theorem State.answer_crcAcc (out : Output) (k : Offset) (s : State) :
    (s.answer out k).crcAcc = s.crcAcc := rfl

@[simp] theorem State.answer_tx (out : Output) (k : Offset) (s : State) :
    (s.answer out k).tx = s.tx := rfl

@[simp] theorem State.answer_dec (out : Output) (k : Offset) (s : State) :
    (s.answer out k).dec = s.dec := rfl

@[simp] theorem State.answer_acc (out : Output) (k : Offset) (s : State) :
    (s.answer out k).acc = s.acc := rfl

@[simp] theorem State.answer_refusedMark (out : Output) (k : Offset) (s : State) :
    (s.answer out k).refusedMark = s.refusedMark := rfl

@[simp] theorem State.answer_pending (out : Output) (k : Offset) (s : State) :
    (s.answer out k).pending = s.pending := rfl

@[simp] theorem State.answer_rxTail (out : Output) (k : Offset) (s : State) :
    (s.answer out k).rxTail = s.rxTail := rfl

@[simp] theorem State.answer_reply (out : Output) (k : Offset) (s : State) :
    (s.answer out k).reply = some (.ok out k) := rfl

@[simp] theorem State.answer_draws (out : Output) (k : Offset) (s : State) :
    (s.answer out k).draws = s.draws := rfl

/-! ### `State.answerConsumed` -/

@[simp] theorem State.answerConsumed_params (s : State) :
    s.answerConsumed.params = s.params := rfl

@[simp] theorem State.answerConsumed_crcAcc (s : State) :
    s.answerConsumed.crcAcc = s.crcAcc := rfl

@[simp] theorem State.answerConsumed_tx (s : State) :
    s.answerConsumed.tx = s.tx := rfl

@[simp] theorem State.answerConsumed_dec (s : State) :
    s.answerConsumed.dec = s.dec := rfl

@[simp] theorem State.answerConsumed_acc (s : State) :
    s.answerConsumed.acc = s.acc := rfl

@[simp] theorem State.answerConsumed_refusedMark (s : State) :
    s.answerConsumed.refusedMark = s.refusedMark := rfl

@[simp] theorem State.answerConsumed_pending (s : State) :
    s.answerConsumed.pending = s.pending := rfl

@[simp] theorem State.answerConsumed_rxTail (s : State) :
    s.answerConsumed.rxTail = s.rxTail := rfl

@[simp] theorem State.answerConsumed_reply (s : State) :
    s.answerConsumed.reply = some .consumed := rfl

@[simp] theorem State.answerConsumed_draws (s : State) :
    s.answerConsumed.draws = s.draws := rfl

/-! ### `State.raise` -/

@[simp] theorem State.raise_params (e : ErrKind) (k : Offset) (s : State) :
    (s.raise e k).params = s.params := rfl

@[simp] theorem State.raise_crcAcc (e : ErrKind) (k : Offset) (s : State) :
    (s.raise e k).crcAcc = s.crcAcc := rfl

@[simp] theorem State.raise_tx (e : ErrKind) (k : Offset) (s : State) :
    (s.raise e k).tx = s.tx := rfl

@[simp] theorem State.raise_dec (e : ErrKind) (k : Offset) (s : State) :
    (s.raise e k).dec = s.dec := rfl

@[simp] theorem State.raise_acc (e : ErrKind) (k : Offset) (s : State) :
    (s.raise e k).acc = s.acc := rfl

@[simp] theorem State.raise_refusedMark (e : ErrKind) (k : Offset) (s : State) :
    (s.raise e k).refusedMark = s.refusedMark := rfl

@[simp] theorem State.raise_pending (e : ErrKind) (k : Offset) (s : State) :
    (s.raise e k).pending = s.pending := rfl

@[simp] theorem State.raise_rxTail (e : ErrKind) (k : Offset) (s : State) :
    (s.raise e k).rxTail = s.rxTail := rfl

@[simp] theorem State.raise_reply (e : ErrKind) (k : Offset) (s : State) :
    (s.raise e k).reply = some (.err e k) := rfl

@[simp] theorem State.raise_draws (e : ErrKind) (k : Offset) (s : State) :
    (s.raise e k).draws = s.draws := rfl

/-! ### `State.refuse` -/

@[simp] theorem State.refuse_params (r : RefuseReason) (s : State) :
    (s.refuse r).params = s.params := rfl

@[simp] theorem State.refuse_crcAcc (r : RefuseReason) (s : State) :
    (s.refuse r).crcAcc = s.crcAcc := rfl

@[simp] theorem State.refuse_tx (r : RefuseReason) (s : State) :
    (s.refuse r).tx = s.tx := rfl

@[simp] theorem State.refuse_dec (r : RefuseReason) (s : State) :
    (s.refuse r).dec = s.dec := rfl

@[simp] theorem State.refuse_acc (r : RefuseReason) (s : State) :
    (s.refuse r).acc = s.acc := rfl

@[simp] theorem State.refuse_refusedMark (r : RefuseReason) (s : State) :
    (s.refuse r).refusedMark = true := rfl

@[simp] theorem State.refuse_pending (r : RefuseReason) (s : State) :
    (s.refuse r).pending = s.pending := rfl

@[simp] theorem State.refuse_rxTail (r : RefuseReason) (s : State) :
    (s.refuse r).rxTail = s.rxTail := rfl

@[simp] theorem State.refuse_reply (r : RefuseReason) (s : State) :
    (s.refuse r).reply = some (.refused r) := rfl

@[simp] theorem State.refuse_draws (r : RefuseReason) (s : State) :
    (s.refuse r).draws = s.draws := rfl

/-! ### `State.loadWindow` -/

@[simp] theorem State.loadWindow_params (i : Option WireInstr) (w : ByteString) (src : DecSrc) (s : State) :
    (s.loadWindow i w src).params = s.params := rfl

@[simp] theorem State.loadWindow_crcAcc (i : Option WireInstr) (w : ByteString) (src : DecSrc) (s : State) :
    (s.loadWindow i w src).crcAcc = s.crcAcc := rfl

@[simp] theorem State.loadWindow_tx (i : Option WireInstr) (w : ByteString) (src : DecSrc) (s : State) :
    (s.loadWindow i w src).tx = s.tx := rfl

@[simp] theorem State.loadWindow_dec (i : Option WireInstr) (w : ByteString) (src : DecSrc) (s : State) :
    (s.loadWindow i w src).dec = { state := .ready, src := src, win := w, pos := 0, instr := i } := rfl

@[simp] theorem State.loadWindow_acc (i : Option WireInstr) (w : ByteString) (src : DecSrc) (s : State) :
    (s.loadWindow i w src).acc = s.acc := rfl

@[simp] theorem State.loadWindow_refusedMark (i : Option WireInstr) (w : ByteString) (src : DecSrc) (s : State) :
    (s.loadWindow i w src).refusedMark = s.refusedMark := rfl

@[simp] theorem State.loadWindow_pending (i : Option WireInstr) (w : ByteString) (src : DecSrc) (s : State) :
    (s.loadWindow i w src).pending = s.pending := rfl

@[simp] theorem State.loadWindow_rxTail (i : Option WireInstr) (w : ByteString) (src : DecSrc) (s : State) :
    (s.loadWindow i w src).rxTail = s.rxTail := rfl

@[simp] theorem State.loadWindow_reply (i : Option WireInstr) (w : ByteString) (src : DecSrc) (s : State) :
    (s.loadWindow i w src).reply = s.reply := rfl

@[simp] theorem State.loadWindow_draws (i : Option WireInstr) (w : ByteString) (src : DecSrc) (s : State) :
    (s.loadWindow i w src).draws = s.draws := rfl

/-! ### `State.clearWindow` -/

@[simp] theorem State.clearWindow_params (s : State) :
    s.clearWindow.params = s.params := rfl

@[simp] theorem State.clearWindow_crcAcc (s : State) :
    s.clearWindow.crcAcc = s.crcAcc := rfl

@[simp] theorem State.clearWindow_tx (s : State) :
    s.clearWindow.tx = s.tx := rfl

@[simp] theorem State.clearWindow_dec (s : State) :
    s.clearWindow.dec = { s.dec with state := .empty, win := [], pos := 0, instr := none } := rfl

@[simp] theorem State.clearWindow_acc (s : State) :
    s.clearWindow.acc = s.acc := rfl

@[simp] theorem State.clearWindow_refusedMark (s : State) :
    s.clearWindow.refusedMark = s.refusedMark := rfl

@[simp] theorem State.clearWindow_pending (s : State) :
    s.clearWindow.pending = s.pending := rfl

@[simp] theorem State.clearWindow_rxTail (s : State) :
    s.clearWindow.rxTail = s.rxTail := rfl

@[simp] theorem State.clearWindow_reply (s : State) :
    s.clearWindow.reply = s.reply := rfl

@[simp] theorem State.clearWindow_draws (s : State) :
    s.clearWindow.draws = s.draws := rfl

/-! ### `State.fetched` -/

@[simp] theorem State.fetched_params (q : List Input) (tail : ByteString) (s : State) :
    (s.fetched q tail).params = s.params := rfl

@[simp] theorem State.fetched_crcAcc (q : List Input) (tail : ByteString) (s : State) :
    (s.fetched q tail).crcAcc = s.crcAcc := rfl

@[simp] theorem State.fetched_tx (q : List Input) (tail : ByteString) (s : State) :
    (s.fetched q tail).tx = s.tx := rfl

@[simp] theorem State.fetched_dec (q : List Input) (tail : ByteString) (s : State) :
    (s.fetched q tail).dec = s.dec := rfl

@[simp] theorem State.fetched_acc (q : List Input) (tail : ByteString) (s : State) :
    (s.fetched q tail).acc = s.acc := rfl

@[simp] theorem State.fetched_refusedMark (q : List Input) (tail : ByteString) (s : State) :
    (s.fetched q tail).refusedMark = s.refusedMark := rfl

@[simp] theorem State.fetched_pending (q : List Input) (tail : ByteString) (s : State) :
    (s.fetched q tail).pending = q := rfl

@[simp] theorem State.fetched_rxTail (q : List Input) (tail : ByteString) (s : State) :
    (s.fetched q tail).rxTail = tail := rfl

@[simp] theorem State.fetched_reply (q : List Input) (tail : ByteString) (s : State) :
    (s.fetched q tail).reply = s.reply := rfl

@[simp] theorem State.fetched_draws (q : List Input) (tail : ByteString) (s : State) :
    (s.fetched q tail).draws = s.draws := rfl

/-! ### `State.invalidateAccWindow` -/

/-- The one law of `invalidate_acc_window()` (70_reset_and_hazards.md R320): it writes the decode unit alone. -/
theorem State.invalidateAccWindow_eq (s : State) :
    s.invalidateAccWindow =
      { s with dec := if s.dec.state ≠ .empty ∧ s.dec.src = .acc
                      then { s.dec with state := .empty, win := [], pos := 0, instr := none } else s.dec } := by
  unfold State.invalidateAccWindow
  split <;> rfl

@[simp] theorem State.invalidateAccWindow_params (s : State) :
    s.invalidateAccWindow.params = s.params := by rw [State.invalidateAccWindow_eq]

@[simp] theorem State.invalidateAccWindow_crcAcc (s : State) :
    s.invalidateAccWindow.crcAcc = s.crcAcc := by rw [State.invalidateAccWindow_eq]

@[simp] theorem State.invalidateAccWindow_tx (s : State) :
    s.invalidateAccWindow.tx = s.tx := by rw [State.invalidateAccWindow_eq]

@[simp] theorem State.invalidateAccWindow_acc (s : State) :
    s.invalidateAccWindow.acc = s.acc := by rw [State.invalidateAccWindow_eq]

@[simp] theorem State.invalidateAccWindow_refusedMark (s : State) :
    s.invalidateAccWindow.refusedMark = s.refusedMark := by rw [State.invalidateAccWindow_eq]

@[simp] theorem State.invalidateAccWindow_pending (s : State) :
    s.invalidateAccWindow.pending = s.pending := by rw [State.invalidateAccWindow_eq]

@[simp] theorem State.invalidateAccWindow_rxTail (s : State) :
    s.invalidateAccWindow.rxTail = s.rxTail := by rw [State.invalidateAccWindow_eq]

@[simp] theorem State.invalidateAccWindow_reply (s : State) :
    s.invalidateAccWindow.reply = s.reply := by rw [State.invalidateAccWindow_eq]

@[simp] theorem State.invalidateAccWindow_draws (s : State) :
    s.invalidateAccWindow.draws = s.draws := by rw [State.invalidateAccWindow_eq]

/-! ### `State.afterParse` and `State.receive` -/

@[simp] theorem State.afterParse_params (r : Parse) (s : State) :
    (s.afterParse r).params = s.params := by cases r <;> rfl

@[simp] theorem State.afterParse_crcAcc (r : Parse) (s : State) :
    (s.afterParse r).crcAcc = s.crcAcc := by cases r <;> rfl

@[simp] theorem State.afterParse_tx (r : Parse) (s : State) :
    (s.afterParse r).tx = s.tx := by cases r <;> rfl

@[simp] theorem State.afterParse_acc (r : Parse) (s : State) :
    (s.afterParse r).acc = s.acc := by cases r <;> rfl

@[simp] theorem State.afterParse_refusedMark (r : Parse) (s : State) :
    (s.afterParse r).refusedMark = s.refusedMark := by cases r <;> rfl

@[simp] theorem State.afterParse_pending (r : Parse) (s : State) :
    (s.afterParse r).pending = s.pending := by cases r <;> rfl

@[simp] theorem State.afterParse_rxTail (r : Parse) (s : State) :
    (s.afterParse r).rxTail = s.rxTail := by cases r <;> rfl

@[simp] theorem State.afterParse_reply (r : Parse) (s : State) :
    (s.afterParse r).reply = s.reply := by cases r <;> rfl

@[simp] theorem State.afterParse_draws (r : Parse) (s : State) :
    (s.afterParse r).draws = s.draws := by cases r <;> rfl

@[simp] theorem State.afterParse_ok_dec (i : WireInstr) (w : ByteString) (k : Nat) (s : State) :
    (s.afterParse (.ok i w k)).dec = { state := .ready, src := .parser, win := w, pos := 0, instr := some i } := rfl

@[simp] theorem State.afterParse_err_dec (e : ErrKind) (k : Option Nat) (s : State) :
    (s.afterParse (.err e k)).dec = { s.dec with state := .empty, win := [], pos := 0, instr := none } := rfl

@[simp] theorem State.receive_params (i : WireInstr) (s : State) : (s.receive i).params = s.params := rfl

@[simp] theorem State.receive_crcAcc (i : WireInstr) (s : State) : (s.receive i).crcAcc = s.crcAcc := rfl

@[simp] theorem State.receive_tx (i : WireInstr) (s : State) : (s.receive i).tx = s.tx := rfl

@[simp] theorem State.receive_acc (i : WireInstr) (s : State) : (s.receive i).acc = s.acc := rfl

@[simp] theorem State.receive_refusedMark (i : WireInstr) (s : State) : (s.receive i).refusedMark = s.refusedMark := rfl

@[simp] theorem State.receive_pending (i : WireInstr) (s : State) : (s.receive i).pending = s.pending := rfl

@[simp] theorem State.receive_rxTail (i : WireInstr) (s : State) : (s.receive i).rxTail = s.rxTail := rfl

@[simp] theorem State.receive_draws (i : WireInstr) (s : State) : (s.receive i).draws = s.draws := rfl

@[simp] theorem State.receive_dec (i : WireInstr) (s : State) :
    (s.receive i).dec = { state := .ready, src := .parser, win := s.rxTail, pos := 0, instr := some i } := rfl

@[simp] theorem State.receive_reply (i : WireInstr) (s : State) :
    (s.receive i).reply = some (.ok (.instr i) .none) := rfl

/-! ### The builder's updates -/

@[simp] theorem TxUnit.scramble_state (draw c0 : Nat) (t : TxUnit) :
    (t.scramble draw c0).state = t.state := rfl

@[simp] theorem TxUnit.scramble_cap (draw c0 : Nat) (t : TxUnit) :
    (t.scramble draw c0).cap = t.cap := rfl

@[simp] theorem TxUnit.scramble_buf (draw c0 : Nat) (t : TxUnit) :
    (t.scramble draw c0).buf = t.buf.take c0 ++ freeBytes draw (t.buf.length - c0) := rfl

@[simp] theorem TxUnit.scramble_cur (draw c0 : Nat) (t : TxUnit) :
    (t.scramble draw c0).cur = freeCursorIn draw c0 t.cap.toNat := rfl

@[simp] theorem TxUnit.backPatch_state (t : TxUnit) :
    t.backPatch.state = t.state := rfl

@[simp] theorem TxUnit.backPatch_cap (t : TxUnit) :
    t.backPatch.cap = t.cap := rfl

@[simp] theorem TxUnit.backPatch_buf (t : TxUnit) :
    t.backPatch.buf = bufWrite t.buf 2 (BitVec.ofNat 8 (t.cur - 3)) := rfl

@[simp] theorem TxUnit.backPatch_cur (t : TxUnit) :
    t.backPatch.cur = t.cur := rfl

/-! ### The accumulator's updates -/

@[simp] theorem AccUnit.toEmpty_init (a : AccUnit) :
    a.toEmpty.init = a.init := rfl

@[simp] theorem AccUnit.toEmpty_state (a : AccUnit) :
    a.toEmpty.state = .empty := rfl

@[simp] theorem AccUnit.toEmpty_crc (a : AccUnit) :
    a.toEmpty.crc = a.crc := rfl

@[simp] theorem AccUnit.toEmpty_len (a : AccUnit) :
    a.toEmpty.len = a.len := rfl

@[simp] theorem AccUnit.toEmpty_buf (a : AccUnit) :
    a.toEmpty.buf = a.buf := rfl

@[simp] theorem AccUnit.toEmpty_widx (a : AccUnit) :
    a.toEmpty.widx = 0 := rfl

@[simp] theorem AccUnit.store_init (b : Byte) (a : AccUnit) :
    (a.store b).init = a.init := rfl

@[simp] theorem AccUnit.store_state (b : Byte) (a : AccUnit) :
    (a.store b).state = a.state := rfl

@[simp] theorem AccUnit.store_crc (b : Byte) (a : AccUnit) :
    (a.store b).crc = a.crc := rfl

@[simp] theorem AccUnit.store_len (b : Byte) (a : AccUnit) :
    (a.store b).len = a.len := rfl

@[simp] theorem AccUnit.store_buf (b : Byte) (a : AccUnit) :
    (a.store b).buf = bufWrite a.buf a.widx b := rfl

@[simp] theorem AccUnit.store_widx (b : Byte) (a : AccUnit) :
    (a.store b).widx = a.widx + 1 := rfl

end Sys2Proof.Machine
end

