-- ==== Sys2Proof/Laws/Storage.lean ====
section
/-! SUPPORT. What the storage operations can do (42_encode.md R141 to R144) and what the encoder can do (R150, R159), said
once; the reads and writes of a buffer; and that every storage operation keeps the buffer's form. -/

namespace Sys2Proof.Machine

/-! ## Byte buffers -/

@[simp] theorem bufWrite_length (buf : ByteString) (i : Nat) (b : Byte) : (bufWrite buf i b).length = buf.length := by
  simp [bufWrite]

theorem bufRead_bufWrite_same {buf : ByteString} {i : Nat} (h : i < buf.length) (b : Byte) :
    bufRead (bufWrite buf i b) i = some b := by
  simp [bufRead, bufWrite, h]

theorem bufRead_bufWrite_other {i j : Nat} (h : i ≠ j) (buf : ByteString) (b : Byte) :
    bufRead (bufWrite buf i b) j = bufRead buf j := by
  simp [bufRead, bufWrite, h]

/-- A write splits the buffer around its byte. -/
theorem bufWrite_eq {buf : ByteString} {i : Nat} (h : i < buf.length) (b : Byte) :
    bufWrite buf i b = buf.take i ++ b :: buf.drop (i + 1) := by
  simp [bufWrite, List.set_eq_take_append_cons_drop, h]

@[simp] theorem freeBytes_length (draw n : Nat) : (freeBytes draw n).length = n := by simp [freeBytes]

theorem freeCursorIn_bounds {lo hi : Nat} (draw : Nat) (h : lo ≤ hi) :
    lo ≤ freeCursorIn draw lo hi ∧ freeCursorIn draw lo hi ≤ hi := by
  have := Nat.mod_lt (Config.freeCursor draw) (show 0 < hi - lo + 1 by omega)
  unfold freeCursorIn
  omega

/-! ## Storage operations -/

@[simp] theorem Stored.andThen_done (t : TxUnit) (f : TxUnit → Stored) : (Stored.done t).andThen f = f t := rfl

@[simp] theorem Stored.andThen_failed (t : TxUnit) (e : ErrKind) (f : TxUnit → Stored) :
    (Stored.failed t e).andThen f = .failed t e := rfl

/-- The form of a storage: its buffer has `tx_cap` bytes (10_state.md R25) and its cursor is in range (R26). -/
structure TxUnit.Sound (t : TxUnit) : Prop where
  length : t.buf.length = t.cap.toNat
  cursor : t.cur ≤ t.cap.toNat

/-- The storage with `bs` written at the cursor. -/
def TxUnit.wrote (bs : ByteString) (t : TxUnit) : TxUnit :=
  { t with buf := t.buf.take t.cur ++ bs ++ t.buf.drop (t.cur + bs.length), cur := t.cur + bs.length }

@[simp] theorem TxUnit.wrote_state (bs : ByteString) (t : TxUnit) : (t.wrote bs).state = t.state := rfl
@[simp] theorem TxUnit.wrote_cap (bs : ByteString) (t : TxUnit) : (t.wrote bs).cap = t.cap := rfl
@[simp] theorem TxUnit.wrote_cur (bs : ByteString) (t : TxUnit) : (t.wrote bs).cur = t.cur + bs.length := rfl

theorem TxUnit.wrote_buf (bs : ByteString) (t : TxUnit) :
    (t.wrote bs).buf = t.buf.take t.cur ++ bs ++ t.buf.drop (t.cur + bs.length) := rfl

@[simp] theorem TxUnit.wrote_nil (t : TxUnit) : t.wrote [] = t := by simp [TxUnit.wrote]

theorem TxUnit.Sound.wrote {t : TxUnit} (h : t.Sound) {bs : ByteString} (hr : t.cur + bs.length ≤ t.cap.toNat) :
    (t.wrote bs).Sound := by
  refine ⟨?_, by simpa using hr⟩
  have := h.length
  simp only [TxUnit.wrote_buf, TxUnit.wrote_cap, List.length_append, List.length_take, List.length_drop]
  omega

/-- The bytes written so far grow by what was written. -/
theorem TxUnit.Sound.written_wrote {t : TxUnit} (h : t.Sound) (bs : ByteString) :
    (t.wrote bs).buf.take (t.cur + bs.length) = t.buf.take t.cur ++ bs := by
  have hl := h.length
  have hc := h.cursor
  rw [TxUnit.wrote_buf, List.take_append_of_le_length (by simp; omega), List.take_of_length_le (by simp)]

/-- The bytes behind what was written are as before. -/
theorem TxUnit.Sound.drop_wrote {t : TxUnit} (h : t.Sound) (bs : ByteString) (k : Nat) :
    (t.wrote bs).buf.drop (t.cur + bs.length + k) = t.buf.drop (t.cur + bs.length + k) := by
  have hl := h.length
  have hc := h.cursor
  have hlen : (t.buf.take t.cur ++ bs).length = t.cur + bs.length := by simp; omega
  rw [TxUnit.wrote_buf, ← List.drop_drop, ← hlen, List.drop_left, List.drop_drop, hlen]

theorem TxUnit.Sound.wrote_wrote {t : TxUnit} (h : t.Sound) (as bs : ByteString) :
    (t.wrote as).wrote bs = t.wrote (as ++ bs) := by
  have hw := h.written_wrote as
  have hd := h.drop_wrote as bs.length
  simp only [TxUnit.wrote] at hw hd
  simp only [TxUnit.wrote, hw, hd]
  simp only [List.length_append, Nat.add_assoc, List.append_assoc]

theorem TxUnit.Sound.scramble {t : TxUnit} (h : t.Sound) (draw : Nat) {c0 : Nat} (hc : c0 ≤ t.cap.toNat) :
    (t.scramble draw c0).Sound := by
  have hl := h.length
  refine ⟨?_, (freeCursorIn_bounds draw hc).2⟩
  simp only [TxUnit.scramble_buf, TxUnit.scramble_cap, List.length_append, List.length_take, freeBytes_length]
  omega

/-- A scrambled storage keeps the bytes before the cursor it was scrambled from. -/
theorem TxUnit.Sound.take_scramble {t : TxUnit} (h : t.Sound) (draw : Nat) {c0 : Nat} (hc : c0 ≤ t.cap.toNat) :
    (t.scramble draw c0).buf.take c0 = t.buf.take c0 := by
  have hl := h.length
  rw [TxUnit.scramble_buf, List.take_append_of_le_length (by simp; omega), List.take_take, Nat.min_self]

/-- What the pushes of a byte string can do: all are done when there is room, and otherwise one fails. -/
theorem TxUnit.Sound.pushAll_eq {t : TxUnit} (h : t.Sound) (bs : ByteString) :
    (t.cur + bs.length ≤ t.cap.toNat → t.pushAll bs = .done (t.wrote bs)) ∧
    (t.cap.toNat < t.cur + bs.length → ∃ t', t.pushAll bs = .failed t' .bufferFull) := by
  induction bs generalizing t with
  | nil => exact ⟨fun _ => by simp [TxUnit.pushAll], fun hlt => by have := h.cursor; simp at hlt; omega⟩
  | cons b bs ih =>
    have hl := h.length
    have hc := h.cursor
    simp only [List.length_cons]
    by_cases hfull : t.cur = t.cap.toNat
    · refine ⟨fun hr => by omega, fun _ => ⟨t, ?_⟩⟩
      simp [TxUnit.pushAll, TxUnit.push, hfull]
    · have hpush : t.push b = .done (t.wrote [b]) := by
        simp only [TxUnit.push, hfull, if_false, TxUnit.wrote, Stored.done.injEq, TxUnit.mk.injEq, true_and]
        rw [bufWrite_eq (by omega)]
        simp
      have hs : (t.wrote [b]).Sound := h.wrote (by simp; omega)
      obtain ⟨ih1, ih2⟩ := ih hs
      simp only [TxUnit.wrote_cur, TxUnit.wrote_cap, List.length_cons, List.length_nil] at ih1 ih2
      simp only [TxUnit.pushAll, hpush, Stored.andThen_done]
      refine ⟨fun hr => ?_, fun hr => ih2 (by omega)⟩
      rw [ih1 (by omega), h.wrote_wrote]
      rfl

/-- The spec of extend (R142, R143). -/
theorem TxUnit.Sound.extend_eq {t : TxUnit} (h : t.Sound) (draw : Nat) (bs : ByteString) :
    t.extend draw bs =
      if t.cur + bs.length ≤ t.cap.toNat then .done (t.wrote bs) else .failed (t.scramble draw t.cur) .bufferFull := by
  obtain ⟨h1, h2⟩ := h.pushAll_eq bs
  split
  · rename_i hr
    simp [TxUnit.extend, h1 hr]
  · rename_i hr
    obtain ⟨t', ht'⟩ := h2 (by omega)
    simp [TxUnit.extend, ht']

/-- The spec of push (R141). -/
theorem TxUnit.Sound.push_eq {t : TxUnit} (h : t.Sound) (b : Byte) :
    t.push b = if t.cur + 1 ≤ t.cap.toNat then .done (t.wrote [b]) else .failed t .bufferFull := by
  have hl := h.length
  have hc := h.cursor
  by_cases hfull : t.cur = t.cap.toNat
  · simp [TxUnit.push, hfull]
  · simp only [TxUnit.push, hfull, if_false, show t.cur + 1 ≤ t.cap.toNat by omega, if_true, TxUnit.wrote,
      Stored.done.injEq, TxUnit.mk.injEq, true_and]
    rw [bufWrite_eq (by omega)]
    simp

/-! ## The encoder -/

@[simp] theorem Num.image_length (n : Num) : n.image.length = n.kind.size := by simp [Num.image]

@[simp] theorem boolWord_length (b : Bool) : (boolWord b).length = 2 := by simp [boolWord]

mutual

theorem image_length : ∀ v : Value, encodable v = true → (image v).length = size v
  | .num n, _ => by simp [image, size]
  | .bool b, _ => by simp [image, size]
  | .agg fs, h => by simpa [image, size] using imageFields_length fs (by simpa [encodable] using h)
  | .enum d fs, h => by
    simp only [encodable, Bool.and_eq_true] at h
    simp [image, size, imageFields_length fs h.2]
  | .unsup k, h => by simp [encodable] at h

theorem imageFields_length : ∀ vs : Values, encodableFields vs = true → (imageFields vs).length = sizeFields vs
  | .nil, _ => rfl
  | .cons v vs, h => by
    simp only [encodableFields, Bool.and_eq_true] at h
    simp [imageFields, sizeFields, image_length v h.1, imageFields_length vs h.2]

end

/-- What a failed encode leaves of the storage it began with: the state tag, the capacity, the form, the bytes before
the cursor it began at, and a cursor not before that one (R143, R157). -/
structure TxUnit.LeftBy (t t' : TxUnit) : Prop where
  sound : t'.Sound
  state : t'.state = t.state
  cap : t'.cap = t.cap
  cursor : t.cur ≤ t'.cur
  before : t'.buf.take t.cur = t.buf.take t.cur

theorem TxUnit.LeftBy.refl {t : TxUnit} (h : t.Sound) : t.LeftBy t := ⟨h, rfl, rfl, Nat.le_refl _, rfl⟩

theorem TxUnit.LeftBy.scramble {t : TxUnit} (h : t.Sound) (draw : Nat) : t.LeftBy (t.scramble draw t.cur) :=
  ⟨h.scramble draw h.cursor, rfl, rfl, (freeCursorIn_bounds draw h.cursor).1, h.take_scramble draw h.cursor⟩

/-- What is left of a storage that already held `bs` is what is left of the storage before. -/
theorem TxUnit.LeftBy.of_wrote {t t' : TxUnit} {bs : ByteString} (h : t.Sound) (hl : (t.wrote bs).LeftBy t') :
    t.LeftBy t' := by
  refine ⟨hl.sound, hl.state, hl.cap, Nat.le_trans (by simp) hl.cursor, ?_⟩
  have hb := congrArg (List.take t.cur) hl.before
  have hlen := h.length
  have hcur := h.cursor
  rw [List.take_take, Nat.min_eq_left (by simp), TxUnit.wrote_cur, h.written_wrote,
    List.take_append_of_le_length (by simp; omega), List.take_take, Nat.min_self] at hb
  exact hb

mutual

/-- The spec of the encoder against its walk (R150, R158, R159): it writes the image exactly when the walk finds room,
and otherwise fails with the walk's error. -/
theorem enc_spec (p : Config.Params) (draw : Nat) : ∀ (v : Value) (t : TxUnit), t.Sound →
    match encodeWalk p v (t.cap.toNat - t.cur) with
    | .ok room => enc p draw v t = .done (t.wrote (image v)) ∧ (image v).length = size v ∧ encodable v = true ∧
        t.cur + size v ≤ t.cap.toNat ∧ room = t.cap.toNat - (t.cur + size v)
    | .error e => (∃ t', enc p draw v t = .failed t' e ∧ t.LeftBy t') ∧
        ¬(encodable v = true ∧ t.cur + size v ≤ t.cap.toNat)
  | .num n, t, h => by
    have hc := h.cursor
    by_cases hr : t.cur + n.kind.size ≤ t.cap.toNat
    · simp [encodeWalk, show n.kind.size ≤ t.cap.toNat - t.cur by omega, enc, image, size, encodable, h.extend_eq, hr]
      omega
    · simp only [encodeWalk, show ¬n.kind.size ≤ t.cap.toNat - t.cur by omega, if_false, enc, size, encodable,
        h.extend_eq, Num.image_length, hr]
      exact ⟨⟨_, rfl, .scramble h draw⟩, by simp⟩
  | .bool b, t, h => by
    have hc := h.cursor
    by_cases hr : t.cur + 2 ≤ t.cap.toNat
    · simp [encodeWalk, show 2 ≤ t.cap.toNat - t.cur by omega, enc, image, size, encodable, h.extend_eq, hr]
      omega
    · simp only [encodeWalk, show ¬2 ≤ t.cap.toNat - t.cur by omega, if_false, enc, size, encodable, h.extend_eq,
        boolWord_length, hr]
      exact ⟨⟨_, rfl, .scramble h draw⟩, by simp⟩
  | .agg fs, t, h => by
    have := encFields_spec p draw fs t h
    simpa only [encodeWalk, enc, image, size, encodable] using this
  | .enum d fs, t, h => by
    have hc := h.cursor
    by_cases hd : d.toNat > 65535
    · simp only [encodeWalk, hd, if_true, enc, encodable]
      exact ⟨⟨_, rfl, .refl h⟩, by simp; omega⟩
    · by_cases hr : t.cur + 2 ≤ t.cap.toNat
      · have hw : (t.wrote (be 2 d.toNat)).Sound := h.wrote (by simpa using hr)
        have := encFields_spec p draw fs _ hw
        simp only [encodeWalk, hd, if_false, show 2 ≤ t.cap.toNat - t.cur by omega, if_true, enc, h.extend_eq,
          be_length, hr, Stored.andThen_done]
        simp only [TxUnit.wrote_cap, TxUnit.wrote_cur, be_length, ← Nat.sub_sub] at this
        split at this
        · obtain ⟨h1, h2, h3, h4, h5⟩ := this
          rw [h.wrote_wrote] at h1
          simp only [image, size, encodable, List.length_append, be_length, h2, h3, h1, Bool.and_true,
            decide_eq_true_eq, true_and]
          omega
        · obtain ⟨⟨t', h1, h2⟩, h3⟩ := this
          refine ⟨⟨t', h1, .of_wrote h h2⟩, ?_⟩
          simp only [encodable, size, Bool.and_eq_true, decide_eq_true_eq] at h3 ⊢
          intro hh
          exact h3 ⟨hh.1.2, by omega⟩
      · simp only [encodeWalk, hd, if_false, show ¬2 ≤ t.cap.toNat - t.cur by omega, enc, h.extend_eq, be_length, hr,
          Stored.andThen_failed, size]
        exact ⟨⟨_, rfl, .scramble h draw⟩, fun hh => by omega⟩
  | .unsup k, t, h => by
    simp only [encodeWalk, enc, encodable]
    exact ⟨⟨_, rfl, .refl h⟩, by simp⟩

theorem encFields_spec (p : Config.Params) (draw : Nat) : ∀ (vs : Values) (t : TxUnit), t.Sound →
    match encodeWalkFields p vs (t.cap.toNat - t.cur) with
    | .ok room => encFields p draw vs t = .done (t.wrote (imageFields vs)) ∧
        (imageFields vs).length = sizeFields vs ∧ encodableFields vs = true ∧
        t.cur + sizeFields vs ≤ t.cap.toNat ∧ room = t.cap.toNat - (t.cur + sizeFields vs)
    | .error e => (∃ t', encFields p draw vs t = .failed t' e ∧ t.LeftBy t') ∧
        ¬(encodableFields vs = true ∧ t.cur + sizeFields vs ≤ t.cap.toNat)
  | .nil, t, h => by
    have hc := h.cursor
    simp [encodeWalkFields, encFields, imageFields, sizeFields, encodableFields, hc]
  | .cons v vs, t, h => by
    have hv := enc_spec p draw v t h
    simp only [encodeWalkFields, encFields, encodableFields, sizeFields, imageFields]
    cases hwalk : encodeWalk p v (t.cap.toNat - t.cur) with
    | error e =>
      simp only [hwalk] at hv ⊢
      obtain ⟨⟨t', h1, h2⟩, h3⟩ := hv
      refine ⟨⟨t', by simp [h1], h2⟩, ?_⟩
      simp only [Bool.and_eq_true]
      exact fun hh => h3 ⟨hh.1.1, by omega⟩
    | ok room =>
      simp only [hwalk] at hv ⊢
      obtain ⟨h1, h2, h3, h4, h5⟩ := hv
      have hw : (t.wrote (image v)).Sound := h.wrote (by omega)
      have := encFields_spec p draw vs _ hw
      simp only [TxUnit.wrote_cap, TxUnit.wrote_cur, h2, ← h5] at this
      simp only [h1, Stored.andThen_done]
      split at this
      · obtain ⟨g1, g2, g3, g4, g5⟩ := this
        rw [h.wrote_wrote] at g1
        simp only [g1, List.length_append, h2, g2, h3, g3, Bool.and_self, true_and]
        omega
      · obtain ⟨⟨t', g1, g2⟩, g3⟩ := this
        refine ⟨⟨t', g1, .of_wrote h g2⟩, ?_⟩
        simp only [Bool.and_eq_true]
        exact fun hh => g3 ⟨hh.1.2, by omega⟩

end

end Sys2Proof.Machine
end

