-- ==== Sys2Proof/Laws/Memory.lean ====
section
/-! SUPPORT. Every operation on a byte buffer keeps the form of the buffers (`Memory.wf`: 10_state.md R25, R36): the
builder buffer keeps its `tx_cap` bytes and the accumulator buffer its `P_ACC_CAP` bytes, whatever the operation does.
Reset's buffers have the form. -/

namespace Sys2Proof.Machine

/-- What a storage operation leaves unchanged whatever its outcome: the capacity, the buffer's length and the state
tag. -/
structure TxUnit.SameForm (t t' : TxUnit) : Prop where
  cap : t'.cap = t.cap
  length : t'.buf.length = t.buf.length
  state : t'.state = t.state

theorem TxUnit.SameForm.refl (t : TxUnit) : t.SameForm t := ⟨rfl, rfl, rfl⟩

theorem TxUnit.SameForm.trans {t u v : TxUnit} (h : t.SameForm u) (g : u.SameForm v) : t.SameForm v :=
  ⟨g.cap.trans h.cap, g.length.trans h.length, g.state.trans h.state⟩

/-- The storage of an outcome. -/
def Stored.unit : Stored → TxUnit
  | .done t => t
  | .failed t _ => t

theorem Stored.andThen_sameForm {t : TxUnit} {r : Stored} {f : TxUnit → Stored} (hr : t.SameForm r.unit)
    (hf : ∀ u : TxUnit, u.SameForm (f u).unit) : t.SameForm (r.andThen f).unit := by
  cases r with
  | done u => exact hr.trans (hf u)
  | failed u e => exact hr

theorem TxUnit.push_sameForm (b : Byte) (t : TxUnit) : t.SameForm (t.push b).unit := by
  unfold TxUnit.push
  split
  · exact .refl t
  · exact ⟨rfl, by simp [Stored.unit], rfl⟩

theorem TxUnit.pushAll_sameForm (bs : ByteString) (t : TxUnit) : t.SameForm (t.pushAll bs).unit := by
  induction bs generalizing t with
  | nil => exact .refl t
  | cons b bs ih => exact Stored.andThen_sameForm (t.push_sameForm b) ih

theorem TxUnit.scramble_sameForm (draw c0 : Nat) (t : TxUnit) : t.SameForm (t.scramble draw c0) :=
  ⟨rfl, by simp; omega, rfl⟩

theorem TxUnit.extend_sameForm (draw : Nat) (bs : ByteString) (t : TxUnit) : t.SameForm (t.extend draw bs).unit := by
  have h := t.pushAll_sameForm bs
  unfold TxUnit.extend
  split
  · rename_i heq
    rwa [heq] at h
  · exact t.scramble_sameForm draw t.cur

mutual

theorem enc_sameForm (p : Config.Params) (draw : Nat) : ∀ (v : Value) (t : TxUnit), t.SameForm (enc p draw v t).unit
  | .num n, t => by simpa [enc] using t.extend_sameForm draw n.image
  | .bool b, t => by simpa [enc] using t.extend_sameForm draw (boolWord b)
  | .agg fs, t => by simpa [enc] using encFields_sameForm p draw fs t
  | .enum d fs, t => by
    unfold enc
    split
    · exact .refl t
    · exact Stored.andThen_sameForm (t.extend_sameForm draw _) (encFields_sameForm p draw fs)
  | .unsup k, t => by simpa [enc, Stored.unit] using TxUnit.SameForm.refl t

theorem encFields_sameForm (p : Config.Params) (draw : Nat) :
    ∀ (vs : Values) (t : TxUnit), t.SameForm (encFields p draw vs t).unit
  | .nil, t => by simpa [encFields, Stored.unit] using TxUnit.SameForm.refl t
  | .cons v vs, t => by
    simpa [encFields] using Stored.andThen_sameForm (enc_sameForm p draw v t) (encFields_sameForm p draw vs)

end

theorem TxUnit.writeFront_sameForm (p : Config.Params) (draw : Nat) (i : WireInstr) (t : TxUnit) :
    t.SameForm (t.writeFront p draw i).unit :=
  Stored.andThen_sameForm
    (Stored.andThen_sameForm (t.extend_sameForm draw _) (fun u => u.push_sameForm 0x00))
    (fun u => u.extend_sameForm draw (instrEncode i))

theorem TxUnit.writeTrailer_sameForm (draw : Nat) (crc : Bool) (t : TxUnit) :
    t.SameForm (t.writeTrailer draw crc).unit := by
  unfold TxUnit.writeTrailer
  split
  · exact t.extend_sameForm draw _
  · exact .refl t

@[simp] theorem TxUnit.backPatch_length (t : TxUnit) : t.backPatch.buf.length = t.buf.length := by simp

theorem TxUnit.poison_length (draw c0 : Nat) (e : ErrKind) (t : TxUnit) :
    (t.poison draw c0 e).buf.length = t.buf.length := by
  unfold TxUnit.poison
  split
  · exact (t.scramble_sameForm draw c0).length
  · rfl

@[simp] theorem TxUnit.fresh_length (draw : Nat) (cap : Byte) : (TxUnit.fresh draw cap).buf.length = cap.toNat := by
  simp [TxUnit.fresh]

@[simp] theorem AccUnit.store_length (b : Byte) (a : AccUnit) : (a.store b).buf.length = a.buf.length := by simp

/-- Reset's buffers have the form, whatever the parameters. -/
theorem created_memory_wf (p : Config.Params) : Memory.wf (State.created p) := by
  simp [Memory.wf, State.created, TxUnit.reset, AccUnit.reset]

/-- A cleared frame handle, or one without an instruction, meets the decode unit's clause. -/
theorem DecUnit.Inv.noInstr {p : Config.Params} {d : DecUnit} (hp : d.pos ≤ d.win.length) (hi : d.instr = none) :
    d.Inv p :=
  ⟨hp, fun _ => hi, by simp [hi], by simp [hi]⟩

/-- Taking back an accumulator window keeps the decode unit's clause (70_reset_and_hazards.md R320). -/
theorem State.invalidateAccWindow_inv {p : Config.Params} {s : State} (h : s.dec.Inv p) :
    s.invalidateAccWindow.dec.Inv p := by
  rw [State.invalidateAccWindow_eq]
  simp only
  split
  · exact .noInstr (Nat.zero_le _) rfl
  · exact h

end Sys2Proof.Machine
end

