-- ==== Sys2Proof/Laws/Parser.lean ====
section
/-! SUPPORT. What the whole-frame parser can do, said once (45_frame_parser.md R230 to R237), and what the shared
instruction stage can do (41_instruction_model.md R121, R122). -/

namespace Sys2Proof

theorem instrEncode_length (i : WireInstr) : 2 ≤ (instrEncode i).length ∧ (instrEncode i).length ≤ 6 := by
  cases i <;> simp [instrEncode, WireInstr.fields]

/-- `instr_decode` undoes `instr_encode` (R122). -/
theorem instrDecode_encode (i : WireInstr) (rest : ByteString) :
    instrDecode (instrEncode i ++ rest) = .ok (i, (instrEncode i).length) := by
  cases i <;>
    simp [instrDecode, instrEncode, WireInstr.opcode, WireInstr.fields, fieldLen, be, takeExact, instrOfFields, fromBe] <;>
    (apply BitVec.eq_of_toNat_eq; simp; omega)

theorem fieldLen_eq_some {op : Byte} {n : Nat} (h : fieldLen op = some n) :
    op = 0x80 ∧ n = 2 ∨ op = 0x81 ∧ n = 3 ∨ op = 0x82 ∧ n = 2 ∨ op = 0x83 ∧ n = 3 ∨ op = 0x84 ∧ n = 1 ∨
      op = 0x86 ∧ n = 4 ∨ op = 0x87 ∧ n = 5 := by
  unfold fieldLen at h
  split at h <;> simp only [Option.some.injEq, reduceCtorEq] at h <;> subst h <;> rename_i heq <;>
    simp [BitVec.toNat_eq, heq]

/-- Fields of the right number make an instruction, whose encoding they are. -/
theorem instrOfFields_spec {op : Byte} {n : Nat} (h : fieldLen op = some n) (f : ByteString) (hf : f.length = n) :
    ∃ i, instrOfFields op f = some i ∧ instrEncode i = op :: f := by
  have hbe : ∀ (m : Nat) (bs : ByteString), bs.length = m → be m (fromBe bs % 256 ^ m) = bs := by
    rintro _ bs rfl
    rw [be_mod, be_fromBe]
  rcases fieldLen_eq_some h with ⟨rfl, rfl⟩ | ⟨rfl, rfl⟩ | ⟨rfl, rfl⟩ | ⟨rfl, rfl⟩ | ⟨rfl, rfl⟩ | ⟨rfl, rfl⟩ | ⟨rfl, rfl⟩
  · obtain ⟨a, b, rfl⟩ := List.length_eq_two.1 hf
    exact ⟨_, rfl, rfl⟩
  · obtain ⟨a, b, c, rfl⟩ := List.length_eq_three.1 hf
    exact ⟨_, rfl, rfl⟩
  · obtain ⟨a, b, rfl⟩ := List.length_eq_two.1 hf
    exact ⟨_, rfl, by simpa [instrEncode, WireInstr.opcode, WireInstr.fields] using hbe 2 [a, b] rfl⟩
  · obtain ⟨a, b, c, rfl⟩ := List.length_eq_three.1 hf
    refine ⟨_, rfl, ?_⟩
    have := hbe 2 [a, b] rfl
    simp [instrEncode, WireInstr.opcode, WireInstr.fields] at this ⊢
    rw [this]; rfl
  · obtain ⟨a, rfl⟩ := List.length_eq_one_iff.1 hf
    exact ⟨_, rfl, rfl⟩
  · match f, hf with
    | [a, b, c, d], _ =>
      exact ⟨_, rfl, by simpa [instrEncode, WireInstr.opcode, WireInstr.fields] using hbe 4 [a, b, c, d] rfl⟩
  · match f, hf with
    | [a, b, c, d, e], _ =>
      refine ⟨_, rfl, ?_⟩
      have := hbe 4 [a, b, c, d] rfl
      simp [instrEncode, WireInstr.opcode, WireInstr.fields] at this ⊢
      rw [this]; rfl

/-- What `instr_decode` can do (R121). -/
theorem instrDecode_spec (op : Byte) (rest : ByteString) :
    (fieldLen op = none ∧ instrDecode (op :: rest) = .error .badInstruction) ∨
    ∃ n, fieldLen op = some n ∧
      ((rest.length < n ∧ instrDecode (op :: rest) = .error .unexpectedEnd) ∨
       (n ≤ rest.length ∧ ∃ i, instrDecode (op :: rest) = .ok (i, 1 + n) ∧ instrEncode i = op :: rest.take n)) := by
  cases hf : fieldLen op with
  | none => simp [instrDecode, hf]
  | some n =>
    right
    refine ⟨n, rfl, ?_⟩
    by_cases hl : n ≤ rest.length
    · obtain ⟨i, h1, h2⟩ := instrOfFields_spec hf (rest.take n) (by simp [hl])
      exact .inr ⟨hl, i, by simp [instrDecode, hf, takeExact_eq, hl, h1], h2⟩
    · exact .inl ⟨Nat.lt_of_not_le hl, by simp [instrDecode, hf, takeExact_eq, hl]⟩

/-- What is decoded is the front of the data, and its length the count reported. -/
theorem instrDecode_ok {data : ByteString} {i : WireInstr} {n : Nat} (h : instrDecode data = .ok (i, n)) :
    n = (instrEncode i).length ∧ data = instrEncode i ++ data.drop n := by
  cases data with
  | nil => simp [instrDecode] at h
  | cons op rest =>
    rcases instrDecode_spec op rest with ⟨_, g⟩ | ⟨m, _, ⟨_, g⟩ | ⟨hl, j, g, he⟩⟩ <;> rw [h] at g <;>
      simp only [reduceCtorEq, Except.ok.injEq, Prod.mk.injEq] at g
    obtain ⟨rfl, rfl⟩ := g
    rw [he]
    refine ⟨by simp [hl, Nat.add_comm], ?_⟩
    simp [Nat.add_comm 1 m]

end Sys2Proof

namespace Sys2Proof.Machine

theorem bodyDecode_encode (i : WireInstr) (w : ByteString) : bodyDecode (instrEncode i ++ w) = .ok (i, w) := by
  simp [bodyDecode, instrDecode_encode]

theorem bodyDecode_ok {data w : ByteString} {i : WireInstr} (h : bodyDecode data = .ok (i, w)) :
    data = instrEncode i ++ w := by
  unfold bodyDecode at h
  split at h
  · rename_i heq
    simp only [Except.ok.injEq, Prod.mk.injEq] at h
    obtain ⟨rfl, rfl⟩ := h
    exact (instrDecode_ok heq).2
  · simp at h

theorem splitTrailer_append (data : ByteString) (lo hi : Byte) :
    splitTrailer (data ++ [lo, hi]) = (data, fromLe2 lo hi) := by
  simp [splitTrailer]

/-- A body of two bytes or more is its data and its trailer. -/
theorem exists_trailer {body : ByteString} (h : 2 ≤ body.length) : ∃ data lo hi, body = data ++ [lo, hi] := by
  obtain ⟨lo, hi, he⟩ := List.length_eq_two.1 (show (body.drop (body.length - 2)).length = 2 by simp; omega)
  exact ⟨body.take (body.length - 2), lo, hi, by rw [← he, List.take_append_drop]⟩

/-- The frames that pass stages 1 to 3, laid out: the header, the length byte, the body it counts, and what follows. -/
structure IsFront (p : Config.Params) (crc : Bool) (L : Byte) (body rest input : ByteString) : Prop where
  input : input = be 2 p.header.toNat ++ L :: (body ++ rest)
  length : body.length = L.toNat
  min : minLen crc ≤ L.toNat

/-- Stages 4 and 5 decide what becomes of a laid-out frame. -/
theorem IsFront.parseFrame {p : Config.Params} {crc : Bool} {L : Byte} {body rest input : ByteString}
    (h : IsFront p crc L body rest input) :
    parseFrame p crc input =
      match bodyStages crc body with
      | .error e => .err e (some (3 + L.toNat))
      | .ok (i, w) => .ok i w (3 + L.toNat) := by
  obtain ⟨rfl, hl, hm⟩ := h
  have h2 : be 2 p.header.toNat = [BitVec.ofNat 8 (p.header.toNat / 256), BitVec.ofNat 8 p.header.toNat] := by
    simp [be]
  have hb : bodyStage (be 2 p.header.toNat ++ L :: (body ++ rest)) L.toNat = body := by
    simp [bodyStage, h2, ← hl]
  have hh : headerStage p (be 2 p.header.toNat ++ L :: (body ++ rest)) = .ok () := by
    simp [headerStage, h2]
  have hs : lengthStage crc (be 2 p.header.toNat ++ L :: (body ++ rest)) = .ok L.toNat := by
    simp only [lengthStage, h2, List.cons_append, List.nil_append, List.getElem?_cons_succ, List.getElem?_cons_zero]
    rw [if_neg (by omega), if_neg (by simp; omega)]
  unfold Sys2Proof.Machine.parseFrame
  rw [hh]
  simp only [hs, hb] <;> rfl

/-- The inversion lemma of the parser: stage 1 or 2 fails with its error and no offset, or the frame is laid out. -/
theorem parseFrame_cases (p : Config.Params) (crc : Bool) (input : ByteString) :
    (∃ e ∈ [ErrKind.unexpectedEnd, .badHeader, .badLen], parseFrame p crc input = .err e none) ∨
    ∃ L body rest, IsFront p crc L body rest input := by
  by_cases h2 : input.length < 2
  · exact .inl ⟨.unexpectedEnd, by simp, by simp [parseFrame, headerStage, h2]⟩
  · by_cases hh : input.take 2 = be 2 p.header.toNat
    · have hd : input = be 2 p.header.toNat ++ input.drop 2 := by rw [← hh, List.take_append_drop]
      have hhs : headerStage p input = .ok () := by simp [headerStage, h2, hh]
      cases hd2 : input.drop 2 with
      | nil =>
        have h3 : input[2]? = none := by
          have := congrArg List.length hd2
          simp at this ⊢
          omega
        exact .inl ⟨.unexpectedEnd, by simp, by simp [parseFrame, hhs, lengthStage, h3]⟩
      | cons L tail =>
        have h3 : input[2]? = some L := by
          have := congrArg (·[0]?) hd2
          simpa using this
        have hlen : input.length = 3 + tail.length := by
          have := congrArg List.length hd2
          simp at this
          omega
        by_cases hmin : L.toNat < minLen crc
        · exact .inl ⟨.badLen, by simp, by simp [parseFrame, hhs, lengthStage, h3, hmin]⟩
        · by_cases hav : 3 + L.toNat > input.length
          · exact .inl ⟨.unexpectedEnd, by simp, by simp [parseFrame, hhs, lengthStage, h3, hmin, hav]⟩
          · refine .inr ⟨L, tail.take L.toNat, tail.drop L.toNat, ⟨?_, by simp; omega, by omega⟩⟩
            rw [List.take_append_drop, ← hd2]
            exact hd
    · exact .inl ⟨.badHeader, by simp, by simp [parseFrame, headerStage, h2, hh]⟩

/-- A parse that reports an offset is of a laid-out frame. -/
theorem parseFrame_offset {p : Config.Params} {crc : Bool} {input : ByteString} {k : Nat}
    (h : (∃ i w, parseFrame p crc input = .ok i w k) ∨ ∃ e, parseFrame p crc input = .err e (some k)) :
    ∃ L body rest, IsFront p crc L body rest input ∧ k = 3 + L.toNat := by
  rcases parseFrame_cases p crc input with ⟨e, _, he⟩ | ⟨L, body, rest, hf⟩
  · rcases h with ⟨i, w, h⟩ | ⟨e', h⟩ <;> rw [he] at h <;> simp at h
  · refine ⟨L, body, rest, hf, ?_⟩
    rw [hf.parseFrame] at h
    rcases h with ⟨i, w, h⟩ | ⟨e', h⟩ <;> split at h <;> simp at h
    · exact h.2.2.symm
    · exact h.2.symm

/-- The CRC stage on a body with its trailer in sight (R235). -/
theorem crcStage_trailer (data : ByteString) (lo hi : Byte) :
    crcStage true (data ++ [lo, hi]) = if crc16 data = fromLe2 lo hi then .ok data else .error .badCrc := by
  simp only [crcStage, splitTrailer_append, if_true]
  split <;> simp_all

/-- The instruction and the window a body gives are no longer than the body (R235, R236). -/
theorem bodyStages_window {crc : Bool} {body w : ByteString} {i : WireInstr} (h : bodyStages crc body = .ok (i, w)) :
    (instrEncode i).length + w.length ≤ body.length := by
  have hd : ∀ data : ByteString, bodyDecode data = .ok (i, w) → data.length = (instrEncode i).length + w.length :=
    fun data h => by rw [bodyDecode_ok h, List.length_append]
  unfold bodyStages at h
  split at h
  · rename_i data hc
    have hlen : data.length ≤ body.length := by
      unfold crcStage at hc
      split at hc
      · split at hc <;> simp only [reduceCtorEq, Except.ok.injEq] at hc
        rw [← hc]
        simp only [splitTrailer, List.length_take]
        omega
      · simp only [Except.ok.injEq] at hc
        rw [hc]
    exact hd data h ▸ hlen
  · simp at h

/-- The instruction and the window of a parsed frame are at most what a length byte counts (10_state.md R29, log
entry 11). -/
theorem parseFrame_window {p : Config.Params} {crc : Bool} {input w : ByteString} {i : WireInstr} {k : Nat}
    (h : parseFrame p crc input = .ok i w k) : (instrEncode i).length + w.length ≤ 255 := by
  obtain ⟨L, body, rest, hf, -⟩ := parseFrame_offset (.inl ⟨i, w, h⟩)
  rw [hf.parseFrame] at h
  split at h <;> simp only [reduceCtorEq, Parse.ok.injEq] at h
  obtain ⟨rfl, rfl, -⟩ := h
  have := bodyStages_window (by assumption)
  have := hf.length
  omega

end Sys2Proof.Machine
end

