-- ==== Sys2Proof/Laws/Accumulator.lean ====
section
/-! SUPPORT. What one byte can do to the accumulator, said once (46_accumulator.md R252 to R257), and what a feed can do
(R251). -/

namespace Sys2Proof.Machine

/-- What no byte changes: the init and CRC flags and the buffer's length (R254, R34). -/
structure AccUnit.SameSetup (a a' : AccUnit) : Prop where
  init : a'.init = a.init
  crc : a'.crc = a.crc
  length : a'.buf.length = a.buf.length

theorem AccUnit.SameSetup.refl (a : AccUnit) : a.SameSetup a := ⟨rfl, rfl, rfl⟩

theorem AccUnit.SameSetup.trans {a b c : AccUnit} (h : a.SameSetup b) (g : b.SameSetup c) : a.SameSetup c :=
  ⟨g.init.trans h.init, g.crc.trans h.crc, g.length.trans h.length⟩

/-- The accumulator awaits a first header byte, with nothing taken. -/
structure AccUnit.IsEmpty (a : AccUnit) : Prop where
  state : a.state = .empty
  widx : a.widx = 0

theorem AccUnit.toEmpty_isEmpty (a : AccUnit) : a.toEmpty.IsEmpty := ⟨rfl, rfl⟩

theorem instrDecode_error {data : ByteString} {e : ErrKind} (h : instrDecode data = .error e) :
    e ∈ [ErrKind.badInstruction, .unexpectedEnd] := by
  unfold instrDecode at h
  repeat' split at h
  all_goals simp_all

theorem bodyStages_error {crc : Bool} {body : ByteString} {e : ErrKind} (h : bodyStages crc body = .error e) :
    e ∈ [ErrKind.badCrc, .badInstruction, .unexpectedEnd] := by
  unfold bodyStages at h
  split at h
  · unfold bodyDecode at h
    split at h
    · simp at h
    · rename_i heq
      simp only [Except.error.injEq] at h
      have := instrDecode_error heq
      simp_all
  · rename_i heq
    unfold crcStage at heq
    repeat' split at heq
    all_goals simp_all

/-- The inversion lemma of one byte: the setup stays; a byte that ends a frame or fails leaves the accumulator empty;
and the error is one of the list. -/
theorem AccUnit.step_spec (p : Config.Params) (b : Byte) (a : AccUnit) :
    a.SameSetup (a.step p b).1 ∧
    ((a.step p b).2 = .more ∨
     (a.step p b).1.IsEmpty ∧
      ((∃ i w, (a.step p b).2 = .done i w) ∨
       ∃ e ∈ [ErrKind.badHeader, .badLen, .tooLarge, .bufferFull, .badCrc, .badInstruction, .unexpectedEnd],
        (a.step p b).2 = .err e)) := by
  have hrej : ∀ (a' : AccUnit) (e : ErrKind), a.SameSetup a' →
      e ∈ [ErrKind.badHeader, .badLen, .tooLarge, .bufferFull, .badCrc, .badInstruction, .unexpectedEnd] →
      a.SameSetup (a'.reject e).1 ∧ ((a'.reject e).2 = .more ∨ (a'.reject e).1.IsEmpty ∧
        ((∃ i w, (a'.reject e).2 = .done i w) ∨
         ∃ e' ∈ [ErrKind.badHeader, .badLen, .tooLarge, .bufferFull, .badCrc, .badInstruction, .unexpectedEnd],
          (a'.reject e).2 = .err e')) :=
    fun a' e hs he => ⟨⟨hs.init, hs.crc, hs.length⟩, .inr ⟨a'.toEmpty_isEmpty, .inr ⟨e, he, rfl⟩⟩⟩
  unfold AccUnit.step
  split
  · split
    · exact ⟨⟨rfl, rfl, rfl⟩, .inl rfl⟩
    · exact hrej a _ (.refl a) (by simp)
  · split
    · exact ⟨⟨rfl, rfl, rfl⟩, .inl rfl⟩
    · exact hrej a _ (.refl a) (by simp)
  · unfold AccUnit.lengthByte
    split
    · exact hrej a _ (.refl a) (by simp)
    · split
      · exact hrej a _ (.refl a) (by simp)
      · exact ⟨⟨rfl, rfl, rfl⟩, .inl rfl⟩
  · unfold AccUnit.bodyByte
    have hst : a.SameSetup (a.store b) := ⟨rfl, rfl, by simp⟩
    split
    · exact hrej a _ (.refl a) (by simp)
    · split
      · exact ⟨⟨rfl, rfl, by simp⟩, .inl rfl⟩
      · unfold AccUnit.complete
        split
        · exact ⟨⟨rfl, rfl, by simp⟩, .inr ⟨AccUnit.toEmpty_isEmpty _, .inl ⟨_, _, rfl⟩⟩⟩
        · rename_i heq
          have he := bodyStages_error heq
          exact hrej _ _ hst (by simp only [List.mem_cons, List.not_mem_nil, or_false] at he ⊢; tauto)

/-- A feed of two byte strings in a row: the first, and then, if it took everything, the second (R251, R261). -/
theorem AccUnit.feed_append (p : Config.Params) (j : Nat) (xs ys : ByteString) (a : AccUnit) :
    a.feed p j (xs ++ ys) =
      match a.feed p j xs with
      | (a', .consumed) => a'.feed p (j + xs.length) ys
      | r => r := by
  induction xs generalizing j a with
  | nil => simp [AccUnit.feed]
  | cons b bs ih =>
    simp only [List.cons_append, AccUnit.feed, List.length_cons]
    split <;> simp [ih, Nat.add_assoc, Nat.add_comm]

/-- The offset of a feed's outcome counted from `n` bytes earlier. -/
def AccFeed.rebased (n : Nat) : AccFeed → AccFeed
  | .consumed => .consumed
  | .err e k => .err e (n + k)
  | .done i w k => .done i w (n + k)

theorem AccUnit.feed_rebased (p : Config.Params) (n j : Nat) (bs : ByteString) (a : AccUnit) :
    a.feed p (n + j) bs = ((a.feed p j bs).1, (a.feed p j bs).2.rebased n) := by
  induction bs generalizing j a with
  | nil => simp [AccUnit.feed, AccFeed.rebased]
  | cons b bs ih =>
    simp only [AccUnit.feed]
    split
    · rw [Nat.add_assoc, ih]
    · simp [AccFeed.rebased, Nat.add_assoc]
    · simp [AccFeed.rebased, Nat.add_assoc]

/-- The inversion lemma of a feed (R251): the setup stays; an event's offset counts at least one byte and at most all,
and leaves the accumulator empty. -/
theorem AccUnit.feed_spec (p : Config.Params) (j : Nat) (bs : ByteString) (a : AccUnit) :
    a.SameSetup (a.feed p j bs).1 ∧
    ((a.feed p j bs).2 = .consumed ∨
     (a.feed p j bs).1.IsEmpty ∧ ∃ k, j + 1 ≤ k ∧ k ≤ j + bs.length ∧
      ((∃ i w, (a.feed p j bs).2 = .done i w k) ∨
       ∃ e ∈ [ErrKind.badHeader, .badLen, .tooLarge, .bufferFull, .badCrc, .badInstruction, .unexpectedEnd],
        (a.feed p j bs).2 = .err e k)) := by
  induction bs generalizing j a with
  | nil => exact ⟨.refl a, .inl rfl⟩
  | cons b bs ih =>
    obtain ⟨hs, hc⟩ := a.step_spec p b
    obtain ⟨a', ev, hstep⟩ : ∃ a' ev, a.step p b = (a', ev) := ⟨_, _, rfl⟩
    simp only [hstep] at hs hc
    cases ev with
    | more =>
      simp only [AccUnit.feed, hstep, List.length_cons]
      obtain ⟨gs, gc⟩ := ih (j + 1) a'
      refine ⟨hs.trans gs, gc.imp id fun ⟨he, k, h1, h2, h3⟩ => ⟨he, k, by omega, by omega, h3⟩⟩
    | err e =>
      simp only [AccUnit.feed, hstep, List.length_cons]
      simp only [reduceCtorEq, false_or] at hc
      obtain ⟨he, ⟨i, w, hd⟩ | ⟨e', hm, heq⟩⟩ := hc
      · simp at hd
      simp only [AccEvent.err.injEq] at heq
      exact ⟨hs, .inr ⟨he, j + 1, by omega, by omega, .inr ⟨e', hm, by rw [heq]⟩⟩⟩
    | done i w =>
      simp only [AccUnit.feed, hstep, List.length_cons]
      simp only [reduceCtorEq, false_or] at hc
      exact ⟨hs, .inr ⟨hc.1, j + 1, by omega, by omega, .inl ⟨i, w, rfl⟩⟩⟩

/-- A byte leaves the accumulator's clause of 10_state.md R41 true (R252 to R257). -/
theorem AccUnit.step_inv {p : Config.Params} (b : Byte) {a : AccUnit} (h : a.Inv p) : (a.step p b).1.Inv p := by
  have hempty : ∀ a' : AccUnit, a'.toEmpty.Inv p := fun _ => rfl
  unfold AccUnit.Inv at h
  unfold AccUnit.step
  cases hs : a.state with
  | empty =>
    simp only [hs] at h ⊢
    split
    · exact h
    · exact hempty a
  | headerByte1Seen =>
    simp only [hs] at h ⊢
    split
    · exact h
    · exact hempty a
  | headerByte2Seen =>
    simp only [AccUnit.lengthByte]
    split
    · exact hempty a
    · split
      · exact hempty a
      · have hm : 1 ≤ minLen a.crc := by unfold minLen; split <;> omega
        simp only [AccUnit.Inv]
        omega
  | payloadByte rem =>
    simp only [hs] at h
    simp only [AccUnit.bodyByte]
    split
    · exact hempty a
    · split
      · simp only [AccUnit.Inv, AccUnit.store]
        omega
      · unfold AccUnit.complete
        split
        · exact hempty _
        · exact hempty _

theorem AccUnit.feed_inv {p : Config.Params} (j : Nat) (bs : ByteString) {a : AccUnit} (h : a.Inv p) :
    (a.feed p j bs).1.Inv p := by
  induction bs generalizing j a with
  | nil => exact h
  | cons b bs ih =>
    have hb := AccUnit.step_inv b h
    unfold AccUnit.feed
    split <;> rename_i heq <;> rw [heq] at hb
    · exact ih _ hb
    · exact hb
    · exact hb

/-- The instruction and the window of a frame a byte completes are at most the declared length, which fits the buffer
(10_state.md R29, R41). -/
theorem AccUnit.step_window {p : Config.Params} {b : Byte} {a a' : AccUnit} {i : WireInstr} {w : ByteString}
    (h : a.Inv p) (hd : a.step p b = (a', .done i w)) : (instrEncode i).length + w.length ≤ p.accCap := by
  unfold AccUnit.Inv at h
  unfold AccUnit.step at hd
  cases hs : a.state with
  | payloadByte rem =>
    simp only [hs] at h hd
    unfold AccUnit.bodyByte AccUnit.reject at hd
    repeat' split at hd
    all_goals try simp at hd
    unfold AccUnit.complete AccUnit.reject at hd
    split at hd <;> simp at hd
    obtain ⟨-, rfl, rfl⟩ := hd
    have hw := bodyStages_window (by assumption)
    simp only [AccUnit.store_len, List.length_take] at hw
    omega
  | empty => simp only [hs, AccUnit.reject] at hd; split at hd <;> simp at hd
  | headerByte1Seen => simp only [hs, AccUnit.reject] at hd; split at hd <;> simp at hd
  | headerByte2Seen =>
    simp only [hs, AccUnit.lengthByte, AccUnit.reject] at hd
    repeat' split at hd
    all_goals simp at hd

/-- The same of a feed's frame. -/
theorem AccUnit.feed_window {p : Config.Params} {j k : Nat} {bs w : ByteString} {a a' : AccUnit} {i : WireInstr}
    (h : a.Inv p) (hd : a.feed p j bs = (a', .done i w k)) : (instrEncode i).length + w.length ≤ p.accCap := by
  induction bs generalizing j a with
  | nil => simp [AccUnit.feed] at hd
  | cons b bs ih =>
    have hb := AccUnit.step_inv b h
    unfold AccUnit.feed at hd
    split at hd <;> rename_i heq
    · rw [heq] at hb
      exact ih hb hd
    · simp at hd
    · simp only [Prod.mk.injEq, AccFeed.done.injEq] at hd
      obtain ⟨-, rfl, rfl, -⟩ := hd
      exact AccUnit.step_window h heq

/-- A body byte that is not the last is stored and the next awaited (R256). -/
theorem AccUnit.step_body {p : Config.Params} {a : AccUnit} {rem : Nat} (b : Byte) (hs : a.state = .payloadByte rem)
    (hi : a.Inv p) (hr : 2 ≤ rem) : a.step p b = ({ a.store b with state := .payloadByte (rem - 1) }, .more) := by
  simp only [AccUnit.Inv, hs] at hi
  simp only [AccUnit.step, hs, AccUnit.bodyByte]
  rw [if_neg (by omega), if_pos (by omega)]

/-- The last body byte is stored and completes the frame (R256, R257). -/
theorem AccUnit.step_last {p : Config.Params} {a : AccUnit} (b : Byte) (hs : a.state = .payloadByte 1)
    (hi : a.Inv p) : a.step p b = (a.store b).complete := by
  simp only [AccUnit.Inv, hs] at hi
  simp only [AccUnit.step, hs, AccUnit.bodyByte]
  rw [if_neg (by omega), if_neg (by omega)]

theorem take_drop_around {xs : ByteString} {w : Nat} (b : Byte) (ys : ByteString) (h : xs.length = w) (n : Nat) :
    (xs ++ b :: ys).take (w + 1) = xs ++ [b] ∧ (xs ++ b :: ys).drop (w + (n + 1)) = ys.drop n := by
  subst h
  rw [List.take_length_add_append, List.drop_length_add_append]
  exact ⟨rfl, rfl⟩

/-- Body bytes but for the last are stored one after the other (R256, R264). -/
theorem AccUnit.feed_body {p : Config.Params} {a : AccUnit} {rem : Nat} (j : Nat) (bs : ByteString)
    (hs : a.state = .payloadByte rem) (hi : a.Inv p) (hb : a.buf.length = p.accCap) (hr : bs.length < rem) :
    a.feed p j bs = ({ a with
      state := .payloadByte (rem - bs.length),
      widx := a.widx + bs.length,
      buf := a.buf.take a.widx ++ bs ++ a.buf.drop (a.widx + bs.length) }, .consumed) := by
  induction bs generalizing j a rem with
  | nil => simp [AccUnit.feed, ← hs]
  | cons b bs ih =>
    simp only [List.length_cons] at hr ⊢
    have hstep := a.step_body b hs hi (by omega)
    have hinv := AccUnit.step_inv b hi
    rw [hstep] at hinv
    simp only [AccUnit.Inv, hs] at hi
    simp only [AccUnit.feed, hstep]
    rw [ih (rem := rem - 1) _ rfl hinv (by simpa using hb) (by omega)]
    have hw : a.widx < a.buf.length := by omega
    simp only [AccUnit.store, bufWrite_eq hw]
    rw [show rem - 1 - bs.length = rem - (bs.length + 1) by omega,
      show a.widx + 1 + bs.length = a.widx + (bs.length + 1) by omega]
    congr 2
    have hx : (a.buf.take a.widx).length = a.widx := by simp; omega
    obtain ⟨h1, h2⟩ := take_drop_around b (a.buf.drop (a.widx + 1)) hx bs.length
    rw [h1, h2]
    simp [Nat.add_assoc, Nat.add_comm 1]

/-- What ACC_FEED does in terms of the accumulator's feed (R251, R258, 70_reset_and_hazards.md R320). -/
theorem execAccFeed_eq {s : State} (h : s.acc.init = true) (input : ByteString) :
    execAccFeed input s =
      match s.acc.feed s.params 0 input with
      | (a, .consumed) => .next { s.invalidateAccWindow with acc := a, reply := some .consumed }
      | (a, .err e k) => .next { s.invalidateAccWindow with acc := a, reply := some (.err e (.plain k)) }
      | (a, .done i w k) => .next { s with
          acc := a, dec := { state := .ready, src := .acc, win := w, pos := 0, instr := some i },
          reply := some (.ok (.instr i) (.plain k)) } := by
  simp only [execAccFeed, h, Bool.true_eq_false, if_false]
  split <;> simp_all [State.answerConsumed, State.raise, State.answer, State.loadWindow, State.invalidateAccWindow_eq]

end Sys2Proof.Machine
end

