-- ==== Sys2Proof/Laws/Builder.lean ====
section
/-! SUPPORT. What the builder's commands do in terms of the storage operations they run (44_frame_builder.md R211 to
R214), and what the front of a frame can do (R211). -/

namespace Sys2Proof.Machine

theorem State.Inv.sound {s : State} (h : s.Inv) : s.tx.Sound := ⟨h.memory.1, h.tx.1⟩

theorem TxUnit.fresh_sound (draw : Nat) (cap : Byte) : (TxUnit.fresh draw cap).Sound :=
  ⟨by simp [TxUnit.fresh], by simp [TxUnit.fresh]⟩

/-- The front of a frame, into an empty storage: header, placeholder and instruction when they fit, and otherwise
`BufferFull` (R211). -/
theorem TxUnit.Sound.writeFront_eq {t : TxUnit} (h : t.Sound) (h0 : t.cur = 0) (p : Config.Params) (draw : Nat)
    (i : WireInstr) :
    (3 + (instrEncode i).length ≤ t.cap.toNat →
      t.writeFront p draw i = .done (t.wrote (be 2 p.header.toNat ++ 0x00 :: instrEncode i))) ∧
    (t.cap.toNat < 3 + (instrEncode i).length →
      ∃ t', t.writeFront p draw i = .failed t' .bufferFull ∧ t.SameForm t' ∧ t'.cur ≤ t.cap.toNat) := by
  have hpos : 1 ≤ (instrEncode i).length := by simp [instrEncode]
  unfold TxUnit.writeFront
  by_cases h2 : 2 ≤ t.cap.toNat
  · have hr2 : t.cur + (be 2 p.header.toNat).length ≤ t.cap.toNat := by simp; omega
    have hw := h.wrote hr2
    rw [h.extend_eq, if_pos hr2, Stored.andThen_done]
    by_cases h3 : 3 ≤ t.cap.toNat
    · have hr3 : t.cur + (be 2 p.header.toNat ++ [0x00]).length ≤ t.cap.toNat := by simp; omega
      have hw' := h.wrote hr3
      rw [hw.push_eq, if_pos (by simp; omega), Stored.andThen_done, h.wrote_wrote, hw'.extend_eq]
      simp only [TxUnit.wrote_cur, TxUnit.wrote_cap, List.length_append, be_length, List.length_cons, List.length_nil]
      constructor
      · intro hr
        rw [if_pos (by omega), h.wrote_wrote]
        simp
      · intro hr
        rw [if_neg (by omega)]
        refine ⟨_, rfl, ?_, (hw'.scramble draw (by simpa using hr3)).cursor⟩
        exact TxUnit.SameForm.trans (u := t.wrote (be 2 p.header.toNat ++ [0x00]))
          ⟨rfl, by rw [hw'.length, h.length]; rfl, rfl⟩ (TxUnit.scramble_sameForm _ _ _)
    · rw [hw.push_eq, if_neg (by simp; omega), Stored.andThen_failed]
      exact ⟨fun _ => by omega, fun _ => ⟨_, rfl, ⟨rfl, by rw [hw.length, h.length]; rfl, rfl⟩, hw.cursor⟩⟩
  · rw [h.extend_eq, if_neg (by simp; omega), Stored.andThen_failed, Stored.andThen_failed]
    exact ⟨fun _ => by omega,
      fun _ => ⟨_, rfl, t.scramble_sameForm _ _, (h.scramble draw h.cursor).cursor⟩⟩

theorem execTxOpen_done {s : State} {cap : Byte} {i : WireInstr} {t : TxUnit} (hi : s.tx.state = .idle)
    (hc : s.params.minBuildCap ≤ cap.toNat)
    (hw : (TxUnit.fresh s.draws cap).writeFront s.params (s.draws + 1) i = .done t) :
    execTxOpen cap i s = .next { s with
      tx := { t with state := .opened }, draws := s.draws + 2, reply := some (.ok .unit .none) } := by
  have := cap.isLt
  have hb : ¬(cap.toNat < s.params.minBuildCap ∨ cap.toNat > 255) := by omega
  simp only [execTxOpen, hi, ne_eq, not_true, if_false, hb, hw]
  rfl

theorem execTxOpen_failed {s : State} {cap : Byte} {i : WireInstr} {t : TxUnit} {e : ErrKind}
    (hi : s.tx.state = .idle) (hc : s.params.minBuildCap ≤ cap.toNat)
    (hw : (TxUnit.fresh s.draws cap).writeFront s.params (s.draws + 1) i = .failed t e) :
    execTxOpen cap i s = .next { s with
      tx := { t with state := .idle }, draws := s.draws + 2, reply := some (.err e .none) } := by
  have := cap.isLt
  have hb : ¬(cap.toNat < s.params.minBuildCap ∨ cap.toNat > 255) := by omega
  simp only [execTxOpen, hi, ne_eq, not_true, if_false, hb, hw]
  rfl

theorem execTxPush_done {s : State} {v : Value} {t : TxUnit} (ho : s.tx.state = .opened)
    (he : enc s.params s.draws v s.tx = .done t) :
    execTxPush v s = .next { s with tx := t, reply := some (.ok .unit .none) } := by
  simp only [execTxPush, ho, ne_eq, not_true, if_false, he]
  rfl

theorem execTxPush_failed {s : State} {v : Value} {t : TxUnit} {e : ErrKind} (ho : s.tx.state = .opened)
    (he : enc s.params s.draws v s.tx = .failed t e) :
    execTxPush v s = .next { s with
      tx := t.poison (s.draws + 1) s.tx.cur e, draws := s.draws + 2, reply := some (.err e .none) } := by
  simp only [execTxPush, ho, ne_eq, not_true, if_false, he]
  rfl

theorem execTxFinal_done {s : State} {crc : Bool} {t : TxUnit} (ho : s.tx.state = .opened)
    (hw : s.tx.writeTrailer s.draws crc = .done t) :
    execTxFinal crc s = .next { s with
      tx := { t.backPatch with state := .idle }, reply := some (.ok (.bytes t.backPatch.written) .none) } := by
  simp only [execTxFinal, ho, ne_eq, not_true, if_false, hw]
  rfl

theorem execTxFinal_failed {s : State} {crc : Bool} {t : TxUnit} {e : ErrKind} (ho : s.tx.state = .opened)
    (hw : s.tx.writeTrailer s.draws crc = .failed t e) :
    execTxFinal crc s = .next { s with
      tx := { t with state := .idle }, draws := s.draws + 1, reply := some (.err e .none) } := by
  simp only [execTxFinal, ho, ne_eq, not_true, if_false, hw]
  rfl

/-- The spec of the trailer (R213). -/
theorem TxUnit.Sound.writeTrailer_eq {t : TxUnit} (h : t.Sound) (draw : Nat) (crc : Bool) :
    t.writeTrailer draw crc =
      if t.cur + (if crc then 2 else 0) ≤ t.cap.toNat then
        .done (t.wrote (if crc then le2 (crc16 ((t.buf.take t.cur).drop 3)) else []))
      else .failed (t.scramble draw t.cur) .bufferFull := by
  have := h.cursor
  cases crc
  · simp [TxUnit.writeTrailer, this]
  · simp only [TxUnit.writeTrailer, if_true, h.extend_eq, TxUnit.written]
    rfl

/-- The finished bytes: the length byte patched, and the trailer behind what was written (R213). -/
theorem TxUnit.Sound.written_backPatch {t : TxUnit} (h : t.Sound) (h3 : 3 ≤ t.cur) (trailer : ByteString)
    (hr : t.cur + trailer.length ≤ t.cap.toNat) :
    (t.wrote trailer).backPatch.written =
      t.buf.take 2 ++ BitVec.ofNat 8 (t.cur + trailer.length - 3) :: ((t.buf.take t.cur).drop 3 ++ trailer) := by
  have hl := h.length
  have hwr := h.written_wrote trailer
  have hw := (h.wrote hr).length
  unfold TxUnit.written
  simp only [TxUnit.backPatch_buf, TxUnit.backPatch_cur, TxUnit.wrote_cur]
  unfold bufWrite
  rw [List.take_set, hwr, List.set_eq_take_append_cons_drop, if_pos (by simp; omega)]
  rw [List.take_append_of_le_length (by simp; omega), List.take_take, Nat.min_eq_left (by omega),
    List.drop_append_of_le_length (by simp; omega)]

theorem TxUnit.Sound.written_backPatch_length {t : TxUnit} (h : t.Sound) (trailer : ByteString)
    (hr : t.cur + trailer.length ≤ t.cap.toNat) :
    (t.wrote trailer).backPatch.written.length = t.cur + trailer.length := by
  have hw := (h.wrote hr).length
  rw [TxUnit.wrote_cap] at hw
  simp [TxUnit.written]
  omega

end Sys2Proof.Machine
end

