-- ==== Sys2Proof/Laws/Checksum.lean ====
section
/-! SUPPORT. What one step of the checksum function can do (40_checksum.md R102): it tells register values and bytes
apart, and rounds over zero bits only shift. -/

namespace Sys2Proof.Machine

theorem crc16_append (a b : ByteString) : crc16 (a ++ b) = crcSteps (crc16 a) b := by simp [crc16, crcSteps]

@[simp] theorem crcSteps_append (c : Word) (a b : ByteString) : crcSteps c (a ++ b) = crcSteps (crcSteps c a) b := by
  simp [crcSteps]

theorem crcSteps_cons (c : Word) (x : Byte) (bs : ByteString) : crcSteps c (x :: bs) = crcSteps (crcStep c x) bs := rfl

/-- A round keeps the bit it shifts out, as the top bit. -/
theorem crcRound_top (c : Word) : (crcRound c).getLsbD 15 = c.getLsbD 0 := by
  unfold crcRound
  split <;> rename_i h <;> simp_all

theorem crcRound_injective {a b : Word} (h : crcRound a = crcRound b) : a = b := by
  have h0 : a.getLsbD 0 = b.getLsbD 0 := by rw [← crcRound_top a, ← crcRound_top b, h]
  have hs : a >>> 1 = b >>> 1 := by
    unfold crcRound at h
    rw [h0] at h
    split at h
    · simpa using h
    · exact h
  apply BitVec.eq_of_getLsbD_eq
  intro i hi
  rcases i with _ | i
  · exact h0
  · simpa [BitVec.getLsbD_ushiftRight, Nat.add_comm] using congrArg (fun x : Word => x.getLsbD i) hs

theorem crcRounds_injective (n : Nat) {a b : Word} (h : crcRounds n a = crcRounds n b) : a = b := by
  induction n generalizing a b with
  | zero => exact h
  | succ n ih => exact crcRound_injective (ih h)

/-- `crc_step(c, b)` is injective in `c` for a fixed `b` (R108). -/
theorem crcStep_injective_left {c d : Word} {b : Byte} (h : crcStep c b = crcStep d b) : c = d := by
  simpa using crcRounds_injective _ h

/-- `crc_step(c, b)` is injective in `b` for a fixed `c` (R108). -/
theorem crcStep_injective_right {c : Word} {a b : Byte} (h : crcStep c a = crcStep c b) : a = b := by
  have h := crcRounds_injective _ h
  simp only [BitVec.xor_right_inj] at h
  simpa using congrArg (BitVec.setWidth 8) h

theorem crcSteps_injective {c d : Word} (bs : ByteString) (h : crcSteps c bs = crcSteps d bs) : c = d := by
  induction bs generalizing c d with
  | nil => exact h
  | cons b bs ih => exact crcStep_injective_left (ih h)

/-- Rounds that shift out zeros are a shift. -/
theorem crcRounds_of_zeros (n : Nat) (x : Word) (h : ∀ i < n, x.getLsbD i = false) : crcRounds n x = x >>> n := by
  induction n generalizing x with
  | zero => simp [crcRounds]
  | succ n ih =>
    have h0 := h 0 (by omega)
    simp only [crcRounds, crcRound, h0, Bool.false_eq_true, if_false]
    rw [ih, ← BitVec.shiftRight_add, Nat.add_comm]
    intro i hi
    simpa [BitVec.getLsbD_ushiftRight, Nat.add_comm] using h (i + 1) (by omega)

/-- A step leaves the byte `b` in the register exactly when the register and the byte stepped in differ in `b`'s bits,
moved up to the high byte. -/
theorem crcStep_eq_byte_iff (c : Word) (a b : Byte) :
    crcStep c a = b.setWidth 16 ↔ c = a.setWidth 16 ||| (b.setWidth 16 <<< 8) := by
  have hb : crcRounds 8 (b.setWidth 16 <<< 8) = b.setWidth 16 := by
    rw [crcRounds_of_zeros]
    · apply BitVec.eq_of_getLsbD_eq
      intro i hi
      simp only [BitVec.getLsbD_ushiftRight, BitVec.getLsbD_shiftLeft, BitVec.getLsbD_setWidth]
      by_cases h : i < 8
      · simp [h, hi, show 8 + i < 16 by omega]
      · simp [BitVec.getLsbD_of_ge b i (by omega)]
    · intro i hi
      simp [BitVec.getLsbD_shiftLeft, hi]
  have hx : ∀ x y : Word, x ^^^ a.setWidth 16 = y ↔ x = a.setWidth 16 ^^^ y := by
    intro x y
    constructor <;> rintro rfl
    · rw [BitVec.xor_comm x, ← BitVec.xor_assoc]; simp
    · rw [BitVec.xor_comm, ← BitVec.xor_assoc]; simp
  have hor : a.setWidth 16 ^^^ (b.setWidth 16 <<< 8) = a.setWidth 16 ||| (b.setWidth 16 <<< 8) := by
    apply BitVec.eq_of_getLsbD_eq
    intro i hi
    simp only [BitVec.getLsbD_xor, BitVec.getLsbD_or, BitVec.getLsbD_shiftLeft, BitVec.getLsbD_setWidth]
    by_cases h : i < 8
    · simp [h]
    · simp [BitVec.getLsbD_of_ge a i (by omega)]
  unfold crcStep
  conv => lhs; rhs; rw [← hb]
  rw [← hor, ← hx]
  exact ⟨crcRounds_injective 8, congrArg (crcRounds 8)⟩

end Sys2Proof.Machine
end

