-- ==== Sys2Proof/Laws/Descriptors.lean ====
section
/-! SUPPORT. The descriptors of host command operands (30_encoding.md R86, R88, R89): what each parser gives on what its
encoder writes, and what it has read when it gives something. -/

namespace Sys2Proof

/-! ## Pieces -/

theorem parseExact_append (bs rest : ByteString) {n : Nat} (h : bs.length = n) :
    parseExact n (bs ++ rest) = .ok (bs, rest) := by
  simp [parseExact, takeExact_of_length rest h]

theorem parseExact_ok {n : Nat} {bs a r : ByteString} (h : parseExact n bs = .ok (a, r)) :
    bs = a ++ r ∧ a.length = n := by
  simp only [parseExact, takeExact_eq] at h
  split at h <;> rename_i heq <;> split at heq <;> simp at heq h
  subst heq; simp at h; obtain ⟨rfl, rfl⟩ := h; simp; omega

theorem tagOf_num (k : NumKind) : tagOf k.tag = some (.num k) := by cases k <;> rfl

theorem tagOf_unsup (k : UnsupKind) : tagOf k.tag = some (.unsup k) := by cases k <;> rfl

theorem pow_256 (n : Nat) : (256 : Nat) ^ n = 2 ^ (8 * n) := by rw [show (256 : Nat) = 2 ^ 8 from rfl, ← pow_mul]

theorem num_ofNat_be (k : NumKind) (x : BitVec (8 * k.size)) :
    Num.ofNat k (fromBe (be k.size x.toNat)) = ⟨k, x⟩ := by
  simp only [Num.ofNat, fromBe_be]
  congr 1
  apply BitVec.eq_of_toNat_eq
  have := pow_256 k.size
  have := x.isLt
  simp_all [Nat.mod_eq_of_lt]

/-! ## Fuel a descriptor needs -/

mutual

/-- The parser's depth on the value's descriptor. -/
def Value.fuel : Value → Nat
  | .num _ => 1 | .bool _ => 1 | .unsup _ => 1
  | .agg fs => 1 + Values.fuel fs
  | .enum _ fs => 1 + Values.fuel fs

/-- The parser's depth on the fields' descriptors. -/
def Values.fuel : Values → Nat
  | .nil => 0
  | .cons v vs => 1 + max (Value.fuel v) (Values.fuel vs)

end

mutual

theorem Value.fuel_le : ∀ v, Value.fuel v + 1 ≤ 2 * (encodeValue v).length
  | .num n => by simp [Value.fuel, encodeValue]
  | .bool n => by simp [Value.fuel, encodeValue]
  | .unsup n => by simp [Value.fuel, encodeValue]
  | .agg fs => by have := Values.fuel_le fs; simp [Value.fuel, encodeValue]; omega
  | .enum d fs => by have := Values.fuel_le fs; simp [Value.fuel, encodeValue]; omega

theorem Values.fuel_le : ∀ v, Values.fuel v ≤ 2 * (encodeValues v).length
  | .nil => by simp [Values.fuel]
  | .cons v vs => by have := Value.fuel_le v; have := Values.fuel_le vs; simp [Values.fuel, encodeValues]; omega
end

mutual

theorem parseValue_encode : ∀ (v : Value) (fuel rest : ByteString), v.wf = true → Value.fuel v ≤ fuel.length →
    parseValue fuel (encodeValue v ++ rest) = .ok (v, rest)
  | .num n, [], rest, hw, hf => by simp [Value.fuel] at hf
  | .num ⟨k, x⟩, f :: fuel, rest, hw, hf => by
    simp [encodeValue, parseValue, tagOf_num, Num.image, parseExact_append, bind, Except.bind, pure, Except.pure]
    simpa using num_ofNat_be k x
  | .bool b, [], rest, hw, hf => by simp [Value.fuel] at hf
  | .bool b, f :: fuel, rest, hw, hf => by
    cases b <;> simp [encodeValue, parseValue, tagOf, encodeFlag, parseBoolByte, bind, Except.bind, pure, Except.pure]
  | .unsup b, [], rest, hw, hf => by simp [Value.fuel] at hf
  | .unsup b, f :: fuel, rest, hw, hf => by simp [encodeValue, parseValue, tagOf_unsup]
  | .agg fs, [], rest, hw, hf => by simp [Value.fuel] at hf
  | .agg fs, f :: fuel, rest, hw, hf => by
    simp [Value.wf] at hw
    have := parseValues_encode fs fuel rest hw.2 (by simp [Value.fuel] at hf; omega)
    simp [encodeValue, parseValue, tagOf, parseB8, bind, Except.bind, pure, Except.pure,
        Nat.mod_eq_of_lt (show fs.length < 256 by omega), this]
  | .enum d fs, [], rest, hw, hf => by simp [Value.fuel] at hf
  | .enum d fs, f :: fuel, rest, hw, hf => by
    simp [Value.wf] at hw
    have := parseValues_encode fs fuel rest hw.2 (by simp [Value.fuel] at hf; omega)
    simp [encodeValue, parseValue, tagOf, parseExact_append, parseB8, bind, Except.bind, pure, Except.pure,
        Nat.mod_eq_of_lt (show fs.length < 256 by omega), this]
    apply BitVec.eq_of_toNat_eq
    have := d.isLt
    simp; omega

theorem parseValues_encode : ∀ (v : Values) (fuel rest : ByteString), v.wf = true → Values.fuel v ≤ fuel.length →
    parseValues fuel v.length (encodeValues v ++ rest) = .ok (v, rest)
  | .nil, fuel, rest, hw, hf => by cases fuel <;> simp [Values.length, parseValues, encodeValues]
  | .cons v vs, [], rest, hw, hf => by simp [Values.fuel] at hf
  | .cons v vs, f :: fuel, rest, hw, hf => by
    simp [Values.wf] at hw
    simp [Values.fuel] at hf
    have h1 := parseValue_encode v fuel (encodeValues vs ++ rest) hw.1 (by omega)
    have h2 := parseValues_encode vs fuel rest hw.2 (by omega)
    simp [Values.length, parseValues, encodeValues, bind, Except.bind, pure, Except.pure, h1, h2]
end

mutual

/-- The parser's depth on the shape's descriptor. -/
def Shape.fuel : Shape → Nat
  | .num _ => 1 | .bool => 1 | .unsup _ => 1
  | .agg fs => 1 + Shapes.fuel fs
  | .enum fs => 1 + Variants.fuel fs

/-- The parser's depth on the field shapes' descriptors. -/
def Shapes.fuel : Shapes → Nat
  | .nil => 0
  | .cons v vs => 1 + max (Shape.fuel v) (Shapes.fuel vs)

/-- The parser's depth on the variants' descriptors. -/
def Variants.fuel : Variants → Nat
  | .nil => 0
  | .cons v vs => 1 + max (Shapes.fuel v) (Variants.fuel vs)

end

mutual

theorem Shape.fuel_le : ∀ v, Shape.fuel v + 1 ≤ 2 * (encodeShape v).length
  | .num n => by simp [Shape.fuel, encodeShape]
  | .bool => by simp [Shape.fuel, encodeShape]
  | .unsup n => by simp [Shape.fuel, encodeShape]
  | .agg fs => by have := Shapes.fuel_le fs; simp [Shape.fuel, encodeShape]; omega
  | .enum fs => by have := Variants.fuel_le fs; simp [Shape.fuel, encodeShape]; omega

theorem Shapes.fuel_le : ∀ v, Shapes.fuel v ≤ 2 * (encodeShapes v).length
  | .nil => by simp [Shapes.fuel]
  | .cons v vs => by have := Shape.fuel_le v; have := Shapes.fuel_le vs; simp [Shapes.fuel, encodeShapes]; omega

theorem Variants.fuel_le : ∀ v, Variants.fuel v ≤ 2 * (encodeVariants v).length
  | .nil => by simp [Variants.fuel]
  | .cons v vs => by have := Shapes.fuel_le v; have := Variants.fuel_le vs; simp [Variants.fuel, encodeVariants]; omega

end

mutual

theorem parseShape_encode : ∀ (v : Shape) (fuel rest : ByteString), v.wf = true → Shape.fuel v ≤ fuel.length →
    parseShape fuel (encodeShape v ++ rest) = .ok (v, rest)
  | .num n, [], rest, hw, hf => by simp [Shape.fuel] at hf
  | .num k, f :: fuel, rest, hw, hf => by
    simp [encodeShape, parseShape, tagOf_num]
  | .bool, [], rest, hw, hf => by simp [Shape.fuel] at hf
  | .bool, f :: fuel, rest, hw, hf => by simp [encodeShape, parseShape, tagOf]
  | .unsup b, [], rest, hw, hf => by simp [Shape.fuel] at hf
  | .unsup b, f :: fuel, rest, hw, hf => by simp [encodeShape, parseShape, tagOf_unsup]
  | .agg fs, [], rest, hw, hf => by simp [Shape.fuel] at hf
  | .agg fs, f :: fuel, rest, hw, hf => by
    simp [Shape.wf] at hw
    have := parseShapes_encode fs fuel rest hw.2 (by simp [Shape.fuel] at hf; omega)
    simp [encodeShape, parseShape, tagOf, parseB8, bind, Except.bind, pure, Except.pure,
        Nat.mod_eq_of_lt (show fs.length < 256 by omega), this]
  | .enum fs, [], rest, hw, hf => by simp [Shape.fuel] at hf
  | .enum fs, f :: fuel, rest, hw, hf => by
    simp [Shape.wf] at hw
    have := parseVariants_encode fs fuel rest hw.2.2 (by simp [Shape.fuel] at hf; omega)
    simp [encodeShape, parseShape, tagOf, parseExact_append, bind, Except.bind, pure, Except.pure,
        Nat.mod_eq_of_lt (show fs.length < 65536 by omega), this, show fs.length ≠ 0 by omega]

theorem parseShapes_encode : ∀ (v : Shapes) (fuel rest : ByteString), v.wf = true → Shapes.fuel v ≤ fuel.length →
    parseShapes fuel v.length (encodeShapes v ++ rest) = .ok (v, rest)
  | .nil, fuel, rest, hw, hf => by cases fuel <;> simp [Shapes.length, parseShapes, encodeShapes]
  | .cons v vs, [], rest, hw, hf => by simp [Shapes.fuel] at hf
  | .cons v vs, f :: fuel, rest, hw, hf => by
    simp [Shapes.wf] at hw
    simp [Shapes.fuel] at hf
    have h1 := parseShape_encode v fuel (encodeShapes vs ++ rest) hw.1 (by omega)
    have h2 := parseShapes_encode vs fuel rest hw.2 (by omega)
    simp [Shapes.length, parseShapes, encodeShapes, bind, Except.bind, pure, Except.pure, h1, h2]

theorem parseVariants_encode : ∀ (v : Variants) (fuel rest : ByteString), v.wf = true →
    Variants.fuel v ≤ fuel.length → parseVariants fuel v.length (encodeVariants v ++ rest) = .ok (v, rest)
  | .nil, fuel, rest, hw, hf => by cases fuel <;> simp [Variants.length, parseVariants, encodeVariants]
  | .cons v vs, [], rest, hw, hf => by simp [Variants.fuel] at hf
  | .cons v vs, f :: fuel, rest, hw, hf => by
    simp [Variants.wf] at hw
    simp [Variants.fuel] at hf
    have h1 := parseShapes_encode v fuel (encodeVariants vs ++ rest) hw.1.2 (by omega)
    have h2 := parseVariants_encode vs fuel rest hw.2 (by omega)
    simp [Variants.length, parseVariants, encodeVariants, tagOf, parseB8, bind, Except.bind, pure, Except.pure, h1,
        h2, Nat.mod_eq_of_lt (show v.length < 256 by omega)]
end

theorem be_fromBe_of_length {m : ByteString} {n} (h : m.length = n) : be n (fromBe m) = m := h ▸ be_fromBe m

theorem tagOf_ok {b : Byte} {t : Tag} (h : tagOf b = some t) :
    b = match t with | .num k => k.tag | .bool => 0x30 | .agg => 0x40 | .enum => 0x50 | .unsup k => k.tag := by
  unfold tagOf at h
  split at h <;> simp only [Option.some.injEq,
      reduceCtorEq] at h <;> subst h <;> rename_i heq <;> (apply BitVec.eq_of_toNat_eq; rw [heq]; rfl)

theorem num_image_ofNat {k : NumKind} {d : ByteString} (h : d.length = k.size) :
    (Num.ofNat k (fromBe d)).image = d := by
  have hlt := fromBe_lt d
  rw [h, pow_256] at hlt
  simp only [Num.image, Num.ofNat, BitVec.toNat_ofNat]
  rw [Nat.mod_eq_of_lt hlt, be_fromBe_of_length h]

theorem bind_eq_ok {ε α β : Type} {x : Except ε α} {f : α → Except ε β} {y : β} (h : (x >>= f) = .ok y) :
    ∃ a, x = .ok a ∧ f a = .ok y := by
  cases x with
  | error e => simp [bind, Except.bind] at h
  | ok a => exact ⟨a, rfl, h⟩

theorem parseB8_ok {bs b r} (h : parseB8 bs = .ok (b, r)) : bs = b :: r := by
  cases bs <;> simp [parseB8] at h; obtain ⟨rfl, rfl⟩ := h; rfl

theorem parseFlag_ok {bs b r} (h : parseFlag bs = .ok (b, r)) : bs = encodeFlag b :: r := by
  cases bs with
  | nil => simp [parseFlag] at h
  | cons x xs =>
    simp only [parseFlag] at h
    split at h
    · simp at h; obtain ⟨rfl, rfl⟩ := h; simp_all [encodeFlag]
    · split at h <;> simp at h
      obtain ⟨rfl, rfl⟩ := h; simp_all [encodeFlag]

theorem parseBoolByte_ok {bs b r} (h : parseBoolByte bs = .ok (b, r)) : bs = encodeFlag b :: r := by
  cases bs with
  | nil => simp [parseBoolByte] at h
  | cons x xs =>
    simp only [parseBoolByte] at h
    split at h
    · simp at h; obtain ⟨rfl, rfl⟩ := h; simp_all [encodeFlag]
    · split at h <;> simp at h
      obtain ⟨rfl, rfl⟩ := h; simp_all [encodeFlag]

theorem parseBstr_ok {bs d r} (h : parseBstr bs = .ok (d, r)) : bs = encodeBstr d ++ r ∧ ByteString.fits d = true := by
  match bs with
  | [] => simp [parseBstr] at h
  | [_] => simp [parseBstr] at h
  | hi :: lo :: bs =>
    simp only [parseBstr] at h
    obtain ⟨rfl, hl⟩ := parseExact_ok h
    have hlt := fromBe_lt [hi, lo]
    have := be_fromBe_of_length (m := [hi, lo]) (n := 2) rfl
    constructor
    · simp [encodeBstr, hl, this]
    · simp [ByteString.fits]; simp at hlt; omega

mutual

theorem parseValue_ok : ∀ (fuel bs : ByteString) (v r), parseValue fuel bs = .ok (v, r) →
    v.wf = true ∧ bs = encodeValue v ++ r
  | [], [], v, r, h => by simp [parseValue] at h
  | _ :: _, [], v, r, h => by simp [parseValue] at h
  | [], _ :: _, v, r, h => by simp [parseValue] at h
  | f :: fuel, tag :: bs, v, r, h => by
    simp only [parseValue] at h
    split at h
    · simp at h
    · rename_i k hk
      obtain ⟨⟨d, bs'⟩, h1, h2⟩ := bind_eq_ok h
      simp [pure, Except.pure] at h2; obtain ⟨rfl, rfl⟩ := h2
      obtain ⟨rfl, hl⟩ := parseExact_ok h1
      have := tagOf_ok hk
      simp [Value.wf, encodeValue, num_image_ofNat hl, this]; rfl
    · rename_i hk
      obtain ⟨⟨d, bs'⟩, h1, h2⟩ := bind_eq_ok h
      simp [pure, Except.pure] at h2; obtain ⟨rfl, rfl⟩ := h2
      have := tagOf_ok hk
      simp [Value.wf, encodeValue, parseBoolByte_ok h1, this]
    · rename_i hk
      obtain ⟨⟨n, bs'⟩, h1, h⟩ := bind_eq_ok h
      obtain ⟨⟨fs, bs''⟩, h2, h3⟩ := bind_eq_ok h
      simp [pure, Except.pure] at h3; obtain ⟨rfl, rfl⟩ := h3
      obtain ⟨g1, g2, g3⟩ := parseValues_ok fuel _ _ _ _ h2
      dsimp only at g1 g3
      have := tagOf_ok hk
      have hn := n.isLt
      have h1 := parseB8_ok h1
      subst h1
      refine ⟨by simp [Value.wf, g1, g2]; omega, ?_⟩
      simp [encodeValue, g1, g3, this]
    · rename_i hk
      obtain ⟨⟨d, bs0⟩, h0, h⟩ := bind_eq_ok h
      obtain ⟨⟨n, bs'⟩, h1, h⟩ := bind_eq_ok h
      obtain ⟨⟨fs, bs''⟩, h2, h3⟩ := bind_eq_ok h
      simp [pure, Except.pure] at h3; obtain ⟨rfl, rfl⟩ := h3
      obtain ⟨g1, g2, g3⟩ := parseValues_ok fuel _ _ _ _ h2
      dsimp only at g1 g3
      have := tagOf_ok hk
      have hn := n.isLt
      have h1 := parseB8_ok h1
      subst h1
      obtain ⟨rfl, hl⟩ := parseExact_ok h0
      have hlt := fromBe_lt d
      rw [hl] at hlt
      refine ⟨by simp [Value.wf, g1, g2]; omega, ?_⟩
      simp only [encodeValue, BitVec.toNat_ofNat]
      rw [Nat.mod_eq_of_lt (by omega), be_fromBe_of_length hl]
      simp [g1, g3, this]
    · rename_i k hk
      simp at h; obtain ⟨rfl, rfl⟩ := h
      have := tagOf_ok hk
      simp [Value.wf, encodeValue, this]

theorem parseValues_ok : ∀ (fuel : ByteString) (n : Nat) (bs : ByteString) (v r), 
    parseValues fuel n bs = .ok (v, r) → v.length = n ∧ v.wf = true ∧ bs = encodeValues v ++ r
  | fuel, 0, bs, v, r, h => by
    cases fuel <;> simp only [parseValues, Except.ok.injEq, Prod.mk.injEq] at h <;> obtain ⟨rfl, rfl⟩ := h <;>
      simp [Values.length, Values.wf, encodeValues]
  | [], n+1, bs, v, r, h => by simp [parseValues] at h
  | f :: fuel, n+1, bs, v, r, h => by
    simp only [parseValues] at h
    obtain ⟨⟨d, bs'⟩, h1, h⟩ := bind_eq_ok h
    obtain ⟨⟨ds, bs''⟩, h2, h3⟩ := bind_eq_ok h
    simp [pure, Except.pure] at h3; obtain ⟨rfl, rfl⟩ := h3
    obtain ⟨a1, a2⟩ := parseValue_ok fuel _ _ _ h1
    obtain ⟨b1, b2, b3⟩ := parseValues_ok fuel _ _ _ _ h2
    dsimp only at b1 b3
    simp [Values.length, Values.wf, encodeValues, b1, a1, b2, a2, b3]
end

mutual

theorem parseShape_ok : ∀ (fuel bs : ByteString) (v r), parseShape fuel bs = .ok (v, r) →
    v.wf = true ∧ bs = encodeShape v ++ r
  | [], [], v, r, h => by simp [parseShape] at h
  | _ :: _, [], v, r, h => by simp [parseShape] at h
  | [], _ :: _, v, r, h => by simp [parseShape] at h
  | f :: fuel, tag :: bs, v, r, h => by
    simp only [parseShape] at h
    split at h
    · simp at h
    · rename_i k hk
      simp at h; obtain ⟨rfl, rfl⟩ := h
      have := tagOf_ok hk
      simp [Shape.wf, encodeShape, this]
    · rename_i hk
      simp at h; obtain ⟨rfl, rfl⟩ := h
      have := tagOf_ok hk
      simp [Shape.wf, encodeShape, this]
    · rename_i hk
      obtain ⟨⟨n, bs'⟩, h1, h⟩ := bind_eq_ok h
      obtain ⟨⟨fs, bs''⟩, h2, h3⟩ := bind_eq_ok h
      simp [pure, Except.pure] at h3; obtain ⟨rfl, rfl⟩ := h3
      obtain ⟨g1, g2, g3⟩ := parseShapes_ok fuel _ _ _ _ h2
      dsimp only at g1 g3
      have := tagOf_ok hk
      have hn := n.isLt
      have h1 := parseB8_ok h1
      subst h1
      refine ⟨by simp [Shape.wf, g1, g2]; omega, ?_⟩
      simp [encodeShape, g1, g3, this]
    · rename_i hk
      obtain ⟨⟨m, bs0⟩, h0, h⟩ := bind_eq_ok h
      split at h
      · simp at h
      · rename_i hm
        obtain ⟨⟨fs, bs''⟩, h2, h3⟩ := bind_eq_ok h
        simp [pure, Except.pure] at h3; obtain ⟨rfl, rfl⟩ := h3
        obtain ⟨g1, g2, g3⟩ := parseVariants_ok fuel _ _ _ _ h2
        dsimp only at g1 g3
        have := tagOf_ok hk
        obtain ⟨rfl, hl⟩ := parseExact_ok h0
        have hlt := fromBe_lt m
        rw [hl] at hlt
        dsimp only at hm
        refine ⟨by simp [Shape.wf, g1, g2]; omega, ?_⟩
        simp only [encodeShape, g1]
        rw [be_fromBe_of_length hl]
        simp [g3, this]
    · rename_i k hk
      simp at h; obtain ⟨rfl, rfl⟩ := h
      have := tagOf_ok hk
      simp [Shape.wf, encodeShape, this]

theorem parseShapes_ok : ∀ (fuel : ByteString) (n : Nat) (bs : ByteString) (v r),
    parseShapes fuel n bs = .ok (v, r) → v.length = n ∧ v.wf = true ∧ bs = encodeShapes v ++ r
  | fuel, 0, bs, v, r, h => by
    cases fuel <;> simp only [parseShapes, Except.ok.injEq, Prod.mk.injEq] at h <;> obtain ⟨rfl, rfl⟩ := h <;>
      simp [Shapes.length, Shapes.wf, encodeShapes]
  | [], n+1, bs, v, r, h => by simp [parseShapes] at h
  | f :: fuel, n+1, bs, v, r, h => by
    simp only [parseShapes] at h
    obtain ⟨⟨d, bs'⟩, h1, h⟩ := bind_eq_ok h
    obtain ⟨⟨ds, bs''⟩, h2, h3⟩ := bind_eq_ok h
    simp [pure, Except.pure] at h3; obtain ⟨rfl, rfl⟩ := h3
    obtain ⟨a1, a2⟩ := parseShape_ok fuel _ _ _ h1
    obtain ⟨b1, b2, b3⟩ := parseShapes_ok fuel _ _ _ _ h2
    dsimp only at b1 b3
    simp [Shapes.length, Shapes.wf, encodeShapes, b1, a1, b2, a2, b3]

theorem parseVariants_ok : ∀ (fuel : ByteString) (n : Nat) (bs : ByteString) (v r),
    parseVariants fuel n bs = .ok (v, r) → v.length = n ∧ v.wf = true ∧ bs = encodeVariants v ++ r
  | fuel, 0, bs, v, r, h => by
    cases fuel <;> simp only [parseVariants, Except.ok.injEq, Prod.mk.injEq] at h <;> obtain ⟨rfl, rfl⟩ := h <;>
      simp [Variants.length, Variants.wf, encodeVariants]
  | [], n+1, bs, v, r, h => by simp [parseVariants] at h
  | f :: fuel, n+1, [], v, r, h => by simp [parseVariants] at h
  | f :: fuel, n+1, tag :: bs, v, r, h => by
    simp only [parseVariants] at h
    split at h
    · rename_i hk
      obtain ⟨⟨k, bs0⟩, h0, h⟩ := bind_eq_ok h
      obtain ⟨⟨d, bs'⟩, h1, h⟩ := bind_eq_ok h
      obtain ⟨⟨ds, bs''⟩, h2, h3⟩ := bind_eq_ok h
      simp [pure, Except.pure] at h3; obtain ⟨rfl, rfl⟩ := h3
      obtain ⟨a0, a1, a2⟩ := parseShapes_ok fuel _ _ _ _ h1
      dsimp only at a0 a2
      obtain ⟨b1, b2, b3⟩ := parseVariants_ok fuel _ _ _ _ h2
      dsimp only at b1 b3
      have := tagOf_ok hk
      have hn := k.isLt
      have h0 := parseB8_ok h0
      subst h0
      refine ⟨by simp [Variants.length, b1], by simp [Variants.wf, a0, a1, b2]; omega, by simp [encodeVariants,
          this, a0, a2, b3]⟩
    · simp at h
end

end Sys2Proof
end

