-- ==== Sys2Proof/Laws/PerInstr.lean ====
section
/-! SUPPORT. What holds of every instruction as syntax, constructor by constructor: its encoding begins with the byte the
opcode table matches (30_encoding.md R73, R87). -/

namespace Sys2Proof.Laws.FirstByte

/-- The first byte of the encoding is the table's `match` byte. -/
def Statement (i : Instr) : Prop := (encode i).head? = some i.opcode

theorem registerWrite (page addr : Byte) : Statement (.registerWrite page addr) := rfl
theorem registerRead (page addr len : Byte) : Statement (.registerRead page addr len) := rfl
theorem wordWrite (addr : Word) : Statement (.wordWrite addr) := rfl
theorem wordRead (addr : Word) (len : Byte) : Statement (.wordRead addr len) := rfl
theorem curveWrite (ch : Byte) : Statement (.curveWrite ch) := rfl
theorem dwordWrite (addr : Dword) : Statement (.dwordWrite addr) := rfl
theorem dwordRead (addr : Dword) (len : Byte) : Statement (.dwordRead addr len) := rfl
theorem crcInit : Statement .crcInit := rfl
theorem crcFeed (data : ByteString) : Statement (.crcFeed data) := rfl
theorem crcRead : Statement .crcRead := rfl
theorem txOpen (cap : Byte) (i : WireInstr) : Statement (.txOpen cap i) := rfl
theorem txPush (v : Value) : Statement (.txPush v) := rfl
theorem txFinal (crc : Bool) : Statement (.txFinal crc) := rfl
theorem txAbort : Statement .txAbort := rfl
theorem rxParse (crc : Bool) (input : ByteString) : Statement (.rxParse crc input) := rfl
theorem rxParseRem (crc : Bool) (input : ByteString) : Statement (.rxParseRem crc input) := rfl
theorem decLoad (window : ByteString) : Statement (.decLoad window) := rfl
theorem decTake (t : Shape) : Statement (.decTake t) := rfl
theorem accInit (crc : Bool) : Statement (.accInit crc) := rfl
theorem accReset : Statement .accReset := rfl
theorem accFeed (input : ByteString) : Statement (.accFeed input) := rfl

end Sys2Proof.Laws.FirstByte
end

