-- ==== Sys2Proof/Laws/Values.lean ====
section
/-! SUPPORT. Reads of the decode window (43_decode.md R181) and the choice of a variant (R186). -/

namespace Sys2Proof.Machine

/-- A read of the bytes that stand at the position. -/
theorem readWin_append {n : Nat} (pre bs rest : ByteString) (h : bs.length = n) :
    readWin n (pre ++ bs ++ rest) pre.length = .ok (fromBe bs, pre.length + n) := by
  subst h
  simp [readWin]

/-- What a read that succeeds has read. -/
theorem readWin_ok {n : Nat} {w : ByteString} {p u p' : Nat} (h : readWin n w p = .ok (u, p')) :
    p + n ≤ w.length ∧ p' = p + n ∧ u = fromBe ((w.drop p).take n) ∧ be n u = (w.drop p).take n ∧ u < 256 ^ n := by
  simp only [readWin] at h
  split at h
  · simp at h
  · simp only [Except.ok.injEq, Prod.mk.injEq] at h
    obtain ⟨rfl, rfl⟩ := h
    have hl : ((w.drop p).take n).length = n := by simp; omega
    exact ⟨by omega, rfl, rfl, be_fromBe_of_length hl, by simpa [hl] using fromBe_lt ((w.drop p).take n)⟩

/-- A numeric value is read back from its image. -/
theorem num_of_image (n : Num) : Num.ofNat n.kind (fromBe n.image) = n := num_ofNat_be n.kind n.pattern

theorem variantAt_lt {vs : Variants} {d : Nat} {ts : Shapes} (h : variantAt vs d = some ts) : d < vs.length := by
  induction d generalizing vs with
  | zero => cases vs <;> simp [variantAt, Variants.length] at h ⊢
  | succ d ih =>
    cases vs with
    | nil => simp [variantAt] at h
    | cons _ vs =>
      have := ih (vs := vs) (by simpa [variantAt] using h)
      simp only [Variants.length]
      omega

/-- The fields of variant `d` are decoded as that variant's shapes say. -/
theorem decVariant_of_variantAt (ps : Config.Params) {vs : Variants} {d : Nat} {ts : Shapes} (w : ByteString) (p : Nat)
    (h : variantAt vs d = some ts) : decVariant ps vs d w p = decFields ps ts w p := by
  induction d generalizing vs with
  | zero =>
    cases vs with
    | nil => simp [variantAt] at h
    | cons _ _ => simp_all [variantAt, decVariant]
  | succ d ih =>
    cases vs with
    | nil => simp [variantAt] at h
    | cons _ vs => simpa [decVariant] using ih (vs := vs) (by simpa [variantAt] using h)

/-- Where no variant has the discriminant, the decoder says so (R186). -/
theorem decVariant_of_none (ps : Config.Params) {vs : Variants} {d : Nat} (w : ByteString) (p : Nat)
    (h : variantAt vs d = none) : decVariant ps vs d w p = .error .badEnumDiscriminant := by
  induction d generalizing vs with
  | zero => cases vs <;> simp_all [variantAt, decVariant]
  | succ d ih =>
    cases vs with
    | nil => simp [decVariant]
    | cons _ vs => simpa [decVariant] using ih (vs := vs) (by simpa [variantAt] using h)

end Sys2Proof.Machine
end

