-- ==== Sys2Proof/Tests/Slice0.lean ====
section
/-! SUPPORT. Tests: the expected results are the worked examples and vectors of 95_test_vectors.md (named V<n> and P<n>)
and the words of 30_encoding.md written out by hand; and a witness for the hypotheses of every statement of
Certificates/Slice0/Obligations.lean that has some. -/

namespace Sys2Proof.Tests

open Sys2Proof Sys2Proof.Machine

set_option maxRecDepth 20000

/-! ## Helpers -/

/-- The default header and builder minimum, `P_ACC_CAP = 16` (V139), and both values of `P_UNSUPPORTED_ERR` in use. -/
def params : Config.Params where
  header := 0x5AA5
  minBuildCap := 8
  accCap := 16
  mapErr := .notYetImplemented
  strErr := .wontImplement
  seqErr := .wontImplement
  optionErr := .notYetImplemented
  bytesErr := .notYetImplemented

/-- The engine just created. -/
def s0 : State := State.created params

/-- An open builder of capacity 16 with `bs` written. -/
def building (bs : ByteString) : State :=
  { s0 with tx := { state := .opened, cap := 16, buf := bs ++ List.replicate (16 - bs.length) 0, cur := bs.length } }

/-- A decode unit with a window of the host's. -/
def reading (w : ByteString) (pos : Nat) : State :=
  { s0 with dec := { state := .ready, src := .host, win := w, pos := pos, instr := none } }

/-- An accumulator made ready with CRC on. -/
def feeding : State := { s0 with acc := { s0.acc with init := true, crc := true } }

/-- The same with `taken` of a body of `taken.length + rem` bytes. -/
def inBody (taken : ByteString) (rem : Nat) : State :=
  { feeding with acc := { feeding.acc with
      state := .payloadByte rem, len := BitVec.ofNat 8 (taken.length + rem),
      buf := taken ++ List.replicate (16 - taken.length) 0, widx := taken.length } }

/-- The frame handle of a frame the accumulator gave. -/
def lent : State :=
  { feeding with dec := { state := .ready, src := .acc, win := [0xCC, 0xDD], pos := 0, instr := some (.wordRead 0xAABB 1) } }

/-- The state after one instruction. -/
def next (i : Instr) (s : State) : State :=
  match exec i s with
  | .next t => t
  | _ => s

/-- The state after one step on one thing put before the engine. -/
def stepOn (x : Input) (s : State) : State :=
  match step { s with pending := [x] } with
  | .next t => t
  | _ => s

/-- The frame of V1 and the frame of V2. -/
def frame1 : ByteString := [0x5A, 0xA5, 0x05, 0x82, 0x4F, 0x4B, 0xA5, 0xEF]
def frame2 : ByteString := [0x5A, 0xA5, 0x08, 0x83, 0xAA, 0xBB, 0x01, 0xCC, 0xDD, 0xE7, 0x8D]

/-- Aggregates and enums as the vectors write them. -/
def fields : List Value → Values
  | [] => .nil
  | v :: vs => .cons v (fields vs)
def fieldShapes : List Shape → Shapes
  | [] => .nil
  | t :: ts => .cons t (fieldShapes ts)
def variants : List (List Shape) → Variants
  | [] => .nil
  | ts :: vs => .cons (fieldShapes ts) (variants vs)

/-- `enum{agg(), agg(u16)}` (V75). -/
def enumShape : Shape := .enum (variants [[], [.num .u16]])

/-! ## Well-formedness: one ill-formed term for each check -/

theorem test_wf_refuses_long_operands (data : ByteString) (h : data.length = 65536) (crc : Bool) :
    (Instr.crcFeed data).wf = false ∧ (Instr.rxParse crc data).wf = false ∧ (Instr.rxParseRem crc data).wf = false ∧
    (Instr.decLoad data).wf = false ∧ (Instr.accFeed data).wf = false := by
  simp [Instr.wf, ByteString.fits, h]

theorem test_wf_takes_the_longest_operand (data : ByteString) (h : data.length = 65535) :
    (Instr.crcFeed data).wf = true := by
  simp [Instr.wf, ByteString.fits, h]

theorem test_wf_refuses_256_fields :
    (Instr.txPush (.agg (fields (List.replicate 256 (.bool true))))).wf = false ∧
    (Instr.txPush (.enum 0 (fields (List.replicate 256 (.bool true))))).wf = false ∧
    (Instr.txPush (.agg (fields [.agg (fields (List.replicate 256 (.bool true)))]))).wf = false ∧
    (Instr.decTake (.agg (fieldShapes (List.replicate 256 .bool)))).wf = false ∧
    (Instr.decTake (.enum (variants [List.replicate 256 .bool]))).wf = false ∧
    (Instr.decTake (.agg (fieldShapes [.agg (fieldShapes (List.replicate 256 .bool))]))).wf = false := by
  decide

theorem test_wf_refuses_an_enum_without_variants : (Instr.decTake (.enum .nil)).wf = false := by decide

theorem test_wf_refuses_65536_variants (vs : Variants) (h : vs.length = 65536) : (Instr.decTake (.enum vs)).wf = false := by
  simp [Instr.wf, Shape.wf, h]

theorem test_wf_takes_255_fields : (Instr.txPush (.agg (fields (List.replicate 255 (.bool true))))).wf = true := by decide

/-! ## Decoding: each row's word written out (30_encoding.md R73, R86 to R89) -/

/-- V30 to V36: the seven wire rows, the two addresses' bytes all different. -/
theorem test_decode_wire :
    decodeRow [0x80, 0x12, 0x34] = .ok (.registerWrite 0x12 0x34, []) ∧
    decodeRow [0x81, 0x12, 0x34, 0x02] = .ok (.registerRead 0x12 0x34 0x02, []) ∧
    decodeRow [0x82, 0x00, 0xDE, 0x5A, 0x00] = .ok (.wordWrite 0x00DE, [0x5A, 0x00]) ∧
    decodeRow [0x83, 0xAA, 0xBB, 0x01, 0xCC, 0xDD] = .ok (.wordRead 0xAABB 0x01, [0xCC, 0xDD]) ∧
    decodeRow [0x84, 0x01] = .ok (.curveWrite 0x01, []) ∧
    decodeRow [0x86, 0x12, 0x34, 0x56, 0x78] = .ok (.dwordWrite 0x12345678, []) ∧
    decodeRow [0x87, 0x12, 0x34, 0x56, 0x78, 0x9A] = .ok (.dwordRead 0x12345678 0x9A, []) := by
  decide

/-- The fourteen host commands, from the encodings of P1 to P5 where they have one. -/
theorem test_decode_commands :
    decodeTransaction [0x01] = .ok .crcInit ∧
    decodeTransaction [0x02, 0x00, 0x02, 0x82, 0x4F] = .ok (.crcFeed [0x82, 0x4F]) ∧
    decodeTransaction [0x03] = .ok .crcRead ∧
    decodeTransaction [0x10, 0x08, 0x87, 0x00, 0x00, 0x12, 0x34, 0x02] = .ok (.txOpen 8 (.dwordRead 0x00001234 2)) ∧
    decodeTransaction [0x11, 0x50, 0x00, 0x01, 0x11, 0x70, 0x01, 0x01, 0x01] =
      .ok (.txPush (.enum 70000 (fields [.num ⟨.u8, 1⟩]))) ∧
    decodeTransaction [0x12, 0x01] = .ok (.txFinal true) ∧
    decodeTransaction [0x13] = .ok .txAbort ∧
    decodeTransaction [0x20, 0x00, 0x00, 0x03, 0x5A, 0xA5, 0x02] = .ok (.rxParse false [0x5A, 0xA5, 0x02]) ∧
    decodeTransaction [0x21, 0x01, 0x00, 0x02, 0x5A, 0xA5] = .ok (.rxParseRem true [0x5A, 0xA5]) ∧
    decodeTransaction [0x30, 0x00, 0x05, 0x00, 0x01, 0x00, 0x05, 0x01] = .ok (.decLoad [0x00, 0x01, 0x00, 0x05, 0x01]) ∧
    decodeTransaction [0x31, 0x50, 0x00, 0x02, 0x40, 0x00, 0x40, 0x01, 0x02] = .ok (.decTake enumShape) ∧
    decodeTransaction [0x40, 0x01] = .ok (.accInit true) ∧
    decodeTransaction [0x41] = .ok .accReset ∧
    decodeTransaction [0x42, 0x00, 0x03, 0x5A, 0xA5, 0x11] = .ok (.accFeed [0x5A, 0xA5, 0x11]) := by
  decide

/-- A value tag of each kind (R88). -/
theorem test_decode_value_tags :
    decodeTransaction [0x11, 0x03, 0x12, 0x34, 0x56, 0x78] = .ok (.txPush (.num ⟨.u32, 0x12345678⟩)) ∧
    decodeTransaction [0x11, 0x11, 0xFF] = .ok (.txPush (.num ⟨.i8, 0xFF⟩)) ∧
    decodeTransaction [0x11, 0x23, 0x3F, 0x80, 0x00, 0x00] = .ok (.txPush (.num ⟨.f32, 0x3F800000⟩)) ∧
    decodeTransaction [0x11, 0x30, 0x01] = .ok (.txPush (.bool true)) ∧
    decodeTransaction [0x11, 0x40, 0x02, 0x01, 0x01, 0xF2] =
      .ok (.txPush (.agg (fields [.num ⟨.u8, 1⟩, .unsup .seq]))) ∧
    decodeTransaction [0x11, 0xF0] = .ok (.txPush (.unsup .map)) ∧
    decodeTransaction [0x31, 0x40, 0x02, 0x30, 0xF0] = .ok (.decTake (.agg (fieldShapes [.bool, .unsup .map]))) := by
  decide

/-- V151 to V157 and V37 to V39. -/
theorem test_decode_rejects :
    decodeTransaction [0x04] = .error .commandByte ∧ decodeTransaction [0xFF] = .error .commandByte ∧
    decodeTransaction [0x12, 0x02] = .error .flagByte ∧ decodeTransaction [0x11, 0x30, 0x02] = .error .boolByte ∧
    decodeTransaction [0x11, 0x06] = .error .valueTag ∧ decodeTransaction [0x31, 0x06] = .error .shapeTag ∧
    decodeTransaction [0x31, 0x50, 0x00, 0x00] = .error .noVariant ∧
    decodeTransaction [0x31, 0x50, 0x00, 0x01, 0x02] = .error .variantTag ∧
    decodeTransaction [0x10, 0x10, 0x85, 0x00] = .error .opcode ∧
    decodeTransaction [0x02, 0x00, 0x05, 0x01, 0x02] = .error .truncated ∧
    instrDecode [0x85] = .error .badInstruction ∧ instrDecode [0x88, 0x00] = .error .badInstruction ∧
    instrDecode [0x86, 0x00, 0x00] = .error .unexpectedEnd ∧ instrDecode [0x83, 0x4F, 0x4B] = .error .unexpectedEnd := by
  decide

/-- The table's numbering of bits: the first byte is the low byte. -/
theorem test_table_words :
    decodeTableWord 24 0x341280 = some (.registerWrite 0x12 0x34) ∧
    decodeTableWord 48 0x9A7856341287 = some (.dwordRead 0x12345678 0x9A) ∧
    decodeTableWord 8 0x12 = some (.txFinal false) ∧ decodeTableWord 8 0x02 = some (.crcFeed []) ∧
    decodeTableWord 8 0x10 = none ∧ decodeTableWord 8 0x85 = none := by
  decide

theorem test_fetch_word_runs_the_instruction :
    step (State.reset.withFetchWord 24 0x341280) = exec (.registerWrite 0x12 0x34) State.reset ∧
    step (State.reset.withFetchWord 8 0x02) = exec (.crcFeed []) State.reset := ⟨rfl, rfl⟩

/-! ## Wire instructions -/

/-- Received with the bytes behind the fields as window: V32, V33 and the examples of R123 to R129. -/
theorem test_wire_instructions_are_received :
    (stepOn (.frameData [0x80, 0x00, 0x10]) s0).dec = ⟨.ready, .parser, [], 0, some (.registerWrite 0x00 0x10)⟩ ∧
    (stepOn (.frameData [0x81, 0x00, 0x10, 0x02]) s0).dec = ⟨.ready, .parser, [], 0, some (.registerRead 0x00 0x10 2)⟩ ∧
    (stepOn (.frameData [0x82, 0x00, 0xDE, 0x5A, 0x00]) s0).dec =
      ⟨.ready, .parser, [0x5A, 0x00], 0, some (.wordWrite 0x00DE)⟩ ∧
    (stepOn (.frameData [0x83, 0xAA, 0xBB, 0x01, 0xCC, 0xDD]) s0).dec =
      ⟨.ready, .parser, [0xCC, 0xDD], 0, some (.wordRead 0xAABB 1)⟩ ∧
    (stepOn (.frameData [0x84, 0x01, 0x07]) s0).dec = ⟨.ready, .parser, [0x07], 0, some (.curveWrite 1)⟩ ∧
    (stepOn (.frameData [0x86, 0x00, 0x00, 0x12, 0x34]) s0).dec = ⟨.ready, .parser, [], 0, some (.dwordWrite 0x1234)⟩ ∧
    (stepOn (.frameData [0x87, 0x00, 0x00, 0x12, 0x34, 0x02]) s0).dec =
      ⟨.ready, .parser, [], 0, some (.dwordRead 0x1234 2)⟩ := by
  decide

/-- V37: data that carries no instruction reports `BadInstruction` and clears the frame handle (R237). -/
theorem test_wire_illegal_opcode :
    (stepOn (.frameData [0x85, 0x4F, 0x4B]) (reading [0x01] 0)).reply = some (.err .badInstruction .none) ∧
    (stepOn (.frameData [0x85, 0x4F, 0x4B]) (reading [0x01] 0)).dec.state = .empty := by
  decide

/-- R131. -/
theorem test_is_write :
    isWrite (.registerWrite 0 0) = true ∧ isWrite (.wordWrite 0) = true ∧ isWrite (.curveWrite 0) = true ∧
    isWrite (.dwordWrite 0) = true ∧ isWrite (.registerRead 0 0 0) = false ∧ isWrite (.wordRead 0 0) = false ∧
    isWrite (.dwordRead 0 0) = false := by
  decide

/-! ## CRC unit -/

/-- V25. -/
theorem test_crc_init : (next .crcInit { s0 with crcAcc := 0x1234 }).crcAcc = 0xFFFF := by decide

/-- V26's second feed: `crc16(82 4F) = 0xE420`, then `4B` gives 0xEFA5. -/
theorem test_crc_feed : (next (.crcFeed [0x4B]) { s0 with crcAcc := 0xE420 }).crcAcc = 0xEFA5 := by decide

/-- V27. -/
theorem test_crc_feed_empty : (next (.crcFeed []) { s0 with crcAcc := 0xE420 }).crcAcc = 0xE420 := by decide

/-- V28. -/
theorem test_crc_read : (next .crcRead s0).reply = some (.ok (.word 0xFFFF) .none) := by decide

/-- V1, V2 and V24. -/
theorem test_crc16 :
    crc16 [0x82, 0x4F, 0x4B] = 0xEFA5 ∧ crc16 [0x83, 0xAA, 0xBB, 0x01, 0xCC, 0xDD] = 0x8DE7 ∧
    crc16 [0x82, 0x4F, 0x4B, 0xA5, 0xEF] = 0x0000 := by
  decide

/-! ## TX framer -/

/-- V105. -/
theorem test_tx_open :
    (next (.txOpen 16 (.wordWrite 0x00DE)) s0).tx.buf.take 6 = [0x5A, 0xA5, 0x00, 0x82, 0x00, 0xDE] ∧
    (next (.txOpen 16 (.wordWrite 0x00DE)) s0).tx.cur = 6 ∧
    (next (.txOpen 16 (.wordWrite 0x00DE)) s0).tx.state = .opened := by
  decide

/-- V96, V101 and V102. -/
theorem test_tx_open_fails :
    (next (.txOpen 8 (.dwordRead 0x1234 2)) s0).reply = some (.err .bufferFull .none) ∧
    (next (.txOpen 8 (.dwordRead 0x1234 2)) s0).tx.state = .idle ∧
    next (.txOpen 7 (.wordWrite 0)) s0 = { s0 with refusedMark := true, reply := some (.refused .badCapacity) } ∧
    (next (.txOpen 16 (.wordWrite 0)) (building [0x5A, 0xA5, 0x00, 0x84, 0x01])).reply =
      some (.refused .builderBusy) := by
  decide

/-- P2 step 2. -/
theorem test_tx_push :
    (next (.txPush (.num ⟨.u16, 0x5A00⟩)) (building [0x5A, 0xA5, 0x00, 0x82, 0x00, 0xDE])).tx =
      { state := .opened, cap := 16, cur := 8,
        buf := [0x5A, 0xA5, 0x00, 0x82, 0x00, 0xDE, 0x5A, 0x00, 0, 0, 0, 0, 0, 0, 0, 0] } := by
  decide

/-- V104, and V59 in the middle of an aggregate: what was written before the unsupported field stays (R157). -/
theorem test_tx_push_fails :
    (next (.txPush (.enum 70000 (fields [.num ⟨.u8, 1⟩]))) (building [0x5A, 0xA5, 0x00, 0x84, 0x01])).reply =
      some (.err .badEnumDiscriminant .none) ∧
    (next (.txPush (.enum 70000 (fields [.num ⟨.u8, 1⟩]))) (building [0x5A, 0xA5, 0x00, 0x84, 0x01])).tx.state = .failed ∧
    (next (.txPush (.agg (fields [.num ⟨.u8, 1⟩, .unsup .seq]))) (building [0x5A, 0xA5, 0x00, 0x84, 0x01])).reply =
      some (.err .wontImplement .none) ∧
    (next (.txPush (.agg (fields [.num ⟨.u8, 1⟩, .unsup .seq]))) (building [0x5A, 0xA5, 0x00, 0x84, 0x01])).tx.buf.take 6 =
      [0x5A, 0xA5, 0x00, 0x84, 0x01, 0x01] := by
  decide

/-- V40 to V57. -/
theorem test_images :
    image (.num ⟨.u8, 0xAB⟩) = [0xAB] ∧ image (.num ⟨.u16, 0x1234⟩) = [0x12, 0x34] ∧
    image (.num ⟨.u32, 0xDEADBEEF⟩) = [0xDE, 0xAD, 0xBE, 0xEF] ∧ image (.num ⟨.u64, 1⟩) = [0, 0, 0, 0, 0, 0, 0, 1] ∧
    image (.num (numOfInt .i8 (-1))) = [0xFF] ∧ image (.num (numOfInt .i16 (-32768))) = [0x80, 0x00] ∧
    image (.num (numOfInt .i32 (-2))) = [0xFF, 0xFF, 0xFF, 0xFE] ∧
    image (.num (numOfInt .i64 (-9223372036854775808))) = [0x80, 0, 0, 0, 0, 0, 0, 0] ∧
    image (.num (numOfInt .i128 (-1))) = List.replicate 16 0xFF ∧
    image (.num ⟨.f32, 0x3F800000⟩) = [0x3F, 0x80, 0x00, 0x00] ∧ image (.bool true) = [0x00, 0x01] ∧
    image (.bool false) = [0x00, 0x00] ∧ image (.agg .nil) = [] ∧
    image (.agg (fields [.agg (fields [.num ⟨.u8, 1⟩]), .bool true])) = [0x01, 0x00, 0x01] ∧
    image (.enum 65535 .nil) = [0xFF, 0xFF] ∧ image (.enum 1 (fields [.num ⟨.u16, 5⟩])) = [0x00, 0x01, 0x00, 0x05] := by
  decide

/-- V61 and V62: with 2 bytes free `BufferFull` comes before the unsupported kind; with none free `agg()` still fits. -/
theorem test_push_precedence :
    encodeWalk params (.agg (fields [.num ⟨.u32, 0⟩, .unsup .str])) 2 = .error .bufferFull ∧
    encodeWalk params (.agg .nil) 0 = .ok 0 := by
  decide

/-- V3. -/
theorem test_tx_final :
    (next (.txFinal true) (building [0x5A, 0xA5, 0x00, 0x82, 0x00, 0xDE, 0x5A, 0x00, 0x12, 0x34])).reply =
      some (.ok (.bytes [0x5A, 0xA5, 0x09, 0x82, 0x00, 0xDE, 0x5A, 0x00, 0x12, 0x34, 0x0E, 0xB4]) .none) ∧
    (next (.txFinal true) (building [0x5A, 0xA5, 0x00, 0x82, 0x00, 0xDE, 0x5A, 0x00, 0x12, 0x34])).tx.cur = 12 := by
  decide

/-- V98, and as V86: CRC on with one byte free. -/
theorem test_tx_final_off_and_full :
    (next (.txFinal false) (building [0x5A, 0xA5, 0x00, 0x82, 0x00, 0xDE, 0x5A, 0x00, 0x12, 0x34])).reply =
      some (.ok (.bytes [0x5A, 0xA5, 0x07, 0x82, 0x00, 0xDE, 0x5A, 0x00, 0x12, 0x34]) .none) ∧
    (next (.txFinal true) (building ([0x5A, 0xA5, 0x00, 0x82] ++ List.replicate 11 0))).reply =
      some (.err .bufferFull .none) ∧
    (next (.txFinal true) (building ([0x5A, 0xA5, 0x00, 0x82] ++ List.replicate 11 0))).tx.state = .idle := by
  decide

/-- P4 step 4. -/
theorem test_tx_abort :
    (next .txAbort { s0 with tx := { state := .failed, cap := 8, buf := List.replicate 8 0, cur := 5 } }).tx =
      { state := .idle, cap := 8, buf := List.replicate 8 0, cur := 5 } := by
  decide

/-! ## Whole-frame parser -/

/-- V1 and V2. -/
theorem test_rx_parse :
    (next (.rxParse true frame1) s0).dec = ⟨.ready, .parser, [], 0, some (.wordWrite 0x4F4B)⟩ ∧
    (next (.rxParse true frame2) s0).dec = ⟨.ready, .parser, [0xCC, 0xDD], 0, some (.wordRead 0xAABB 1)⟩ := by
  decide

/-- V129. -/
theorem test_rx_parse_clears :
    (next (.rxParse true [0x5A, 0xA6]) (reading [0x01] 0)).reply = some (.err .badHeader .none) ∧
    (next (.rxParse true [0x5A, 0xA6]) (reading [0x01] 0)).dec.state = .empty := by
  decide

/-- V4, V114 and V115. -/
theorem test_rx_parse_rem :
    (next (.rxParseRem true [0x5A, 0xA5, 0x05, 0x82, 0x4F, 0x4B, 0xAA, 0xEF, 0x5A, 0xA5]) s0).reply =
      some (.err .badCrc (.optional (some 8))) ∧
    (next (.rxParseRem true (frame1 ++ [0x00])) s0).reply =
      some (.ok (.instr (.wordWrite 0x4F4B)) (.optional (some 8))) ∧
    (next (.rxParseRem false frame1) s0).dec.win = [0xA5, 0xEF] := by
  decide

/-- V106 to V113, V118 to V123, V127 and V128: which error, and whether the offset is known. -/
theorem test_parse_errors :
    parseFrame params true [] = .err .unexpectedEnd none ∧ parseFrame params true [0x00] = .err .unexpectedEnd none ∧
    parseFrame params true [0x5A, 0xA5] = .err .unexpectedEnd none ∧
    parseFrame params true [0xA5, 0x5A, 0x05] = .err .badHeader none ∧
    parseFrame params true [0x5A, 0xA5, 0x04] = .err .badLen none ∧
    parseFrame params false [0x5A, 0xA5, 0x02] = .err .badLen none ∧
    parseFrame params true [0x5A, 0xA5, 0x05, 0x82, 0x4F] = .err .unexpectedEnd none ∧
    parseFrame params true [0x5A, 0xA5, 0x05, 0x85, 0x4F, 0x4B, 0x14, 0x2E] = .err .badInstruction (some 8) ∧
    parseFrame params true [0x5A, 0xA5, 0x05, 0x85, 0x4F, 0x4B, 0x00, 0x00] = .err .badCrc (some 8) ∧
    parseFrame params true [0x5A, 0xA5, 0x05, 0x86, 0x00, 0x00, 0x90, 0x29] = .err .unexpectedEnd (some 8) ∧
    parseFrame params false [0x5A, 0xA5, 0x04, 0x83, 0x4F, 0x4B, 0x02] = .ok (.wordRead 0x4F4B 2) [] 7 ∧
    parseFrame params true [0x5A, 0xA5, 0x04, 0x84, 0x01, 0xA3, 0x70] = .err .badLen none ∧
    parseFrame params false [0x5A, 0xA5, 0x03, 0x84, 0x01] = .err .unexpectedEnd none := by
  decide

/-- The longest frame, `LEN` 255 with CRC off, legal by R233: 253 window bytes behind CurveWrite, 252 behind WordWrite
(log entry 11). -/
theorem test_longest_window :
    parseFrame params false ([0x5A, 0xA5, 0xFF, 0x84, 0x01] ++ List.replicate 253 0x00) =
      .ok (.curveWrite 0x01) (List.replicate 253 0x00) 258 ∧
    parseFrame params false ([0x5A, 0xA5, 0xFF, 0x82, 0x00, 0xDE] ++ List.replicate 252 0x00) =
      .ok (.wordWrite 0x00DE) (List.replicate 252 0x00) 258 := by
  decide +kernel

/-! ## Decode unit -/

/-- P5 step 1. -/
theorem test_dec_load :
    (next (.decLoad [0x00, 0x01]) lent).dec = ⟨.ready, .host, [0x00, 0x01], 0, none⟩ := by
  decide

/-- V75, and P2 step 6: a u16's bytes read as two u8. -/
theorem test_dec_take :
    next (.decTake enumShape) (reading [0x00, 0x01, 0x00, 0x05] 0) =
      { reading [0x00, 0x01, 0x00, 0x05] 4 with
        reply := some (.ok (.value (.enum 1 (fields [.num ⟨.u16, 5⟩]))) .none) } ∧
    (next (.decTake (.agg (fieldShapes [.num .u8, .num .u8]))) (reading [0x5A, 0x00, 0x12, 0x34] 0)).dec.pos = 2 := by
  decide

/-- V82's second and third take. -/
theorem test_dec_take_fails :
    (next (.decTake (.num .u16)) (reading [0xCC, 0xDD] 2)).dec = ⟨.failed, .host, [0xCC, 0xDD], 2, none⟩ ∧
    (next (.decTake (.num .u16)) (reading [0xCC, 0xDD] 2)).reply = some (.err .unexpectedEnd .none) ∧
    (next (.decTake (.agg .nil)) s0).reply = some (.refused .noWindow) := by
  decide

/-- V63 to V81. -/
theorem test_decodes :
    dec params (.num .i8) [0xFF] 0 = .ok (.num (numOfInt .i8 (-1)), 1) ∧
    dec params (.num .i32) [0xFF, 0xFF, 0xFF, 0xFE] 0 = .ok (.num (numOfInt .i32 (-2)), 4) ∧
    dec params (.num .f32) [0x7F, 0xC0, 0x00, 0x01] 0 = .ok (.num ⟨.f32, 0x7FC00001⟩, 4) ∧
    dec params .bool [0x00, 0x01] 0 = .ok (.bool true, 2) ∧ dec params .bool [0x01, 0x00] 0 = .error .badBool ∧
    dec params .bool [0x01] 0 = .error .unexpectedEnd ∧ dec params (.agg .nil) [] 0 = .ok (.agg .nil, 0) ∧
    dec params (.agg (fieldShapes [.num .u8, .num .u16])) [0x01, 0x02, 0x03, 0x04] 0 =
      .ok (.agg (fields [.num ⟨.u8, 1⟩, .num ⟨.u16, 0x0203⟩]), 3) ∧
    dec params enumShape [0x00, 0x02] 0 = .error .badEnumDiscriminant ∧
    dec params enumShape [0x00, 0x01] 0 = .error .unexpectedEnd ∧
    dec params (.unsup .seq) [] 0 = .error .wontImplement ∧
    dec params (.agg (fieldShapes [.bool, .unsup .map])) [0x00, 0x05] 0 = .error .badBool ∧
    dec params (.agg (fieldShapes [.num .u8, .unsup .map])) [] 0 = .error .unexpectedEnd := by
  decide

/-- The signed reading of V65. -/
theorem test_signed_reading :
    numValue ⟨.i8, 0xFF⟩ = -1 ∧ numValue ⟨.i16, 0x8000⟩ = -32768 ∧ numValue ⟨.i16, 0x7FFF⟩ = 32767 ∧
    numValue ⟨.u16, 0x8000⟩ = 32768 := by
  decide

/-! ## Accumulator -/

/-- The example of R250, with a window taken back (R320). -/
theorem test_acc_init :
    (next (.accInit true) { lent with acc := { lent.acc with state := .headerByte1Seen } }).acc =
      { init := true, state := .empty, crc := true, len := 0, buf := List.replicate 16 0, widx := 0 } ∧
    (next (.accInit true) lent).dec = ⟨.empty, .acc, [], 0, none⟩ := by
  decide

/-- V147 and V146. -/
theorem test_acc_reset :
    (next .accReset (inBody [0x82] 4)).acc.state = .empty ∧ (next .accReset (inBody [0x82] 4)).acc.widx = 0 ∧
    (next .accReset s0).reply = some (.refused .accUninit) := by
  decide

/-- P3 step 3 and the first five bytes of its step 4. -/
theorem test_acc_feed :
    (next (.accFeed [0x5A, 0xA5, 0x08, 0x83, 0xAA, 0xBB]) feeding).acc =
      { init := true, state := .payloadByte 5, crc := true, len := 8, widx := 3,
        buf := [0x83, 0xAA, 0xBB, 0, 0, 0, 0, 0, 0, 0, 0, 0, 0, 0, 0, 0] } ∧
    (next (.accFeed [0x01, 0xCC, 0xDD, 0xE7, 0x8D, 0x5A]) (inBody [0x83, 0xAA, 0xBB] 5)).reply =
      some (.ok (.instr (.wordRead 0xAABB 1)) (.plain 5)) ∧
    (next (.accFeed [0x01, 0xCC, 0xDD, 0xE7, 0x8D, 0x5A]) (inBody [0x83, 0xAA, 0xBB] 5)).dec =
      ⟨.ready, .acc, [0xCC, 0xDD], 0, some (.wordRead 0xAABB 1)⟩ := by
  decide +kernel

/-- V133, V134, V138, V139 and V148. -/
theorem test_acc_feed_events :
    (next (.accFeed (0x00 :: frame1)) feeding).reply = some (.err .badHeader (.plain 1)) ∧
    (next (.accFeed (0x5A :: frame1)) feeding).reply = some (.err .badHeader (.plain 2)) ∧
    (next (.accFeed [0x5A, 0xA5, 0x04]) feeding).reply = some (.err .badLen (.plain 3)) ∧
    (next (.accFeed [0x5A, 0xA5, 0x11]) feeding).reply = some (.err .tooLarge (.plain 3)) ∧
    (next (.accFeed [0x5A, 0xA5, 0x10]) feeding).acc.state = .payloadByte 16 ∧
    (next (.accFeed []) lent).reply = some .consumed ∧ (next (.accFeed []) lent).dec.state = .empty := by
  decide

/-! ## Outcomes and reset -/

/-- V4, V5, V82, V106, V114 and P2. -/
theorem test_responses :
    responseBytes (.refused .noWindow) = [0xFF] ∧ responseBytes .consumed = [0x01] ∧
    responseBytes (.ok (.word 0xEFA5) .none) = [0x00, 0xEF, 0xA5] ∧
    responseBytes (.ok (.value (.num ⟨.u16, 0xCCDD⟩)) .none) = [0x00, 0x02, 0xCC, 0xDD] ∧
    responseBytes (.ok (.bytes [0x5A, 0xA5]) .none) = [0x00, 0x00, 0x02, 0x5A, 0xA5] ∧
    responseBytes (.err .badCrc (.optional (some 8))) = [0x20, 0x01, 0x00, 0x08] ∧
    responseBytes (.err .unexpectedEnd (.optional none)) = [0x14, 0x00] ∧
    responseBytes (.ok (.instr (.wordWrite 0x4F4B)) (.optional (some 8))) = [0x00, 0x82, 0x4F, 0x4B, 0x01, 0x00, 0x08] ∧
    responseBytes (.ok (.instr (.wordRead 0xAABB 1)) (.plain 11)) = [0x00, 0x83, 0xAA, 0xBB, 0x01, 0x00, 0x0B] := by
  decide

/-- V151 and V158. -/
theorem test_illegal_command_and_reset :
    stepOn (.command [0x14]) s0 = { s0 with refusedMark := true, reply := some (.refused .illegalCommand) } ∧
    (stepOn .reset { s0 with refusedMark := true, crcAcc := 0 }).refusedMark = true ∧
    (stepOn .reset { s0 with refusedMark := true, crcAcc := 0 }).crcAcc = 0xFFFF := by
  decide

/-! ## Assembler (R92) -/

/-- The spellings R92 and the programs of §10 give. -/
theorem test_assembler :
    asm (.txFinal true) = "TX_FINAL crc=on".toList ∧ asm .crcInit = "CRC_INIT".toList ∧
    asm (.crcFeed [0x5A, 0xA5, 0x05]) = "CRC_FEED [5A A5 05]".toList ∧
    asm (.txOpen 16 (.wordWrite 0x00DE)) = "TX_OPEN 16, WordWrite(addr=0x00DE)".toList := by
  decide

/-! ## Witnesses: states and operands that meet the hypotheses of the statements

Each is named after its statement and takes the clauses in their order, at the edges of their ranges. -/

theorem feeding_inv : feeding.Inv where
  params := by decide
  memory := by decide
  tx := ⟨by decide, by decide, by decide⟩
  dec := ⟨by decide, by decide, by decide, by decide⟩
  acc := by rfl

theorem lent_inv : lent.Inv where
  params := by decide
  memory := by decide
  tx := ⟨by decide, by decide, by decide⟩
  dec := ⟨by decide, by decide, by decide, by decide⟩
  acc := by rfl

/-- What makes a builder of capacity 16 meet the invariants. -/
theorem building_inv {bs : ByteString} (h3 : 3 ≤ bs.length) (h16 : bs.length ≤ 16) (hh : bs.take 2 = [0x5A, 0xA5]) :
    (building bs).Inv where
  params := feeding_inv.params
  memory := ⟨by simp [building]; omega, feeding_inv.memory.2⟩
  tx := ⟨by simpa [building] using h16, fun _ => h3, fun _ => by
    have hdr : be 2 params.header.toNat = [0x5A, 0xA5] := by decide
    exact (List.take_append_of_le_length (by omega)).trans (hh.trans hdr.symm)⟩
  dec := feeding_inv.dec
  acc := rfl

/-- The middle of a body of 5 to 16 bytes meets the invariants. -/
theorem inBody_inv {taken : ByteString} {rem : Nat} (h1 : 1 ≤ rem) (h5 : 5 ≤ taken.length + rem)
    (h16 : taken.length + rem ≤ 16) : (inBody taken rem).Inv where
  params := feeding_inv.params
  memory := ⟨feeding_inv.memory.1, by
    have : params.accCap = 16 := rfl
    simp [inBody, feeding, s0, State.created, this]; omega⟩
  tx := feeding_inv.tx
  dec := feeding_inv.dec
  acc := by
    have : (inBody taken rem).acc.len.toNat = taken.length + rem := by simp [inBody]; omega
    exact ⟨h1, this.symm, this.symm ▸ h5, this.symm ▸ h16⟩

/-- `[5A A5 00 84 01]`: a builder holding `CurveWrite ch=01`. -/
def curveFront : ByteString := [0x5A, 0xA5, 0x00, 0x84, 0x01]

theorem curve_inv : (building curveFront).Inv := building_inv (by decide) (by decide) (by decide)

theorem witness_FlippedByteIsReportedAsBadCrc :
    (0x00 : Byte) ≠ 0xFF ∧ parseFrame params true frame1 = .ok (.wordWrite 0x4F4B) [] 8 ∧
    frame1[3]? ≠ some 0x83 ∧ frame1[7]? ≠ some 0xEE := by
  decide

theorem witness_InstrDecodeByOpcodeThenLength :
    (∀ op ∈ ([0x00, 0x7F, 0x85, 0x88, 0xFF] : ByteString), op ∉ ([0x80, 0x81, 0x82, 0x83, 0x84, 0x86, 0x87] : ByteString)) ∧
    (∀ op ∈ ([0x80, 0x81, 0x82, 0x83, 0x84, 0x86, 0x87] : ByteString), ∃ n ∈ List.range 6, fieldLen op = some n ∧
      0 < n) := by
  decide

theorem witness_ParsedFrameIsItsInstructionReceived :
    parseFrame s0.params true frame2 = .ok (.wordRead 0xAABB 1) [0xCC, 0xDD] 11 := by
  decide

theorem witness_DecodeOfEncode :
    (Instr.dwordRead 0xFFFFFFFF 0xFF).wf = true ∧ (Instr.accFeed (List.replicate 300 0xFF)).wf = true ∧
    (Instr.txPush (.enum 0xFFFFFFFF (fields [.num ⟨.u128, 1⟩]))).wf = true ∧ (Instr.decTake enumShape).wf = true := by
  decide

theorem witness_EncodeOfDecode :
    decodeRow [0x83, 0xAA, 0xBB, 0x01, 0xCC, 0xDD] = .ok (.wordRead 0xAABB 0x01, [0xCC, 0xDD]) ∧
    decodeRow [0x41, 0xFF] = .ok (.accReset, [0xFF]) := by
  decide

theorem witness_IllegalEncodingsAreRejected :
    (∀ c ∈ ([0x00, 0x04, 0x0F, 0x14, 0x22, 0x43, 0xFF] : ByteString), c ∉
      ([0x01, 0x02, 0x03, 0x10, 0x11, 0x12, 0x13, 0x20, 0x21, 0x30, 0x31, 0x40, 0x41, 0x42] : ByteString)) ∧
    (∀ f ∈ ([0x02, 0xFF] : ByteString), f ∉ ([0x00, 0x01] : ByteString)) ∧
    (∀ g ∈ ([0x00, 0x06, 0x16, 0x22, 0x25, 0x51, 0xEF, 0xF5, 0xFF] : ByteString), g ∉
      ([0x01, 0x02, 0x03, 0x04, 0x05, 0x11, 0x12, 0x13, 0x14, 0x15, 0x23, 0x24, 0x30, 0x40, 0x50,
        0xF0, 0xF1, 0xF2, 0xF3, 0xF4] : ByteString)) ∧
    ¬((0x00 : Byte) = 0x00 ∧ (0x01 : Byte) = 0x00) ∧ ¬((0x01 : Byte) = 0x00 ∧ (0x00 : Byte) = 0x00) ∧
    (0x3F : Byte) ≠ 0x40 ∧
    (∀ op ∈ ([0x7F, 0x85, 0x88] : ByteString), op ∉ ([0x80, 0x81, 0x82, 0x83, 0x84, 0x86, 0x87] : ByteString)) ∧
    (Instr.txFinal true).wf = true ∧ 0 < (encode (.txFinal true)).length ∧ 1 < (encode (.txFinal true)).length := by
  decide

theorem witness_IllegalCommandIsRefused :
    ({ s0 with pending := [.command [0x14], .reset] } : State).pending = .command [0x14] :: [.reset] ∧
    decodeTransaction [0x14] = .error .commandByte := by
  decide

theorem witness_StepRunsTheDecodedInstruction :
    ({ s0 with pending := [.command [0x12, 0x01]] } : State).pending = .command [0x12, 0x01] :: [] ∧
    decodeTransaction [0x12, 0x01] = .ok (.txFinal true) ∧
    ({ s0 with pending := [.frameData [0x84, 0x01, 0x07]] } : State).pending =
      .frameData (instrEncode (.curveWrite 0x01) ++ [0x07]) :: [] ∧ s0.pending = [] := by
  decide

theorem witness_ResetKeepsTheRefusedMark :
    ({ s0 with refusedMark := true, pending := [.reset] } : State).pending = .reset :: [] := by
  decide

/-- Capacity 7 is one below the minimum; capacity 8 holds `DwordWrite`'s 3 + 5 bytes and not `DwordRead`'s 3 + 6. -/
theorem witness_TxOpenWritesHeaderPlaceholderInstruction :
    (building curveFront).tx.state ≠ .idle ∧ s0.tx.state = .idle ∧
    (7 : Byte).toNat < s0.params.minBuildCap ∧ s0.params.minBuildCap ≤ (8 : Byte).toNat ∧
    (8 : Byte).toNat < 3 + (instrEncode (.dwordRead 0 0)).length ∧
    3 + (instrEncode (.dwordWrite 0)).length ≤ (8 : Byte).toNat := by
  decide

/-- A value that fills the 11 bytes left, and one without an image. -/
theorem witness_TxPushAppendsTheImage :
    (building curveFront).Inv ∧ (building curveFront).tx.state = .opened ∧
    encodable (.agg (fields [.num ⟨.u64, 0⟩, .enum 65535 (fields [.num ⟨.u8, 1⟩])])) = true ∧
    (building curveFront).tx.cur + size (.agg (fields [.num ⟨.u64, 0⟩, .enum 65535 (fields [.num ⟨.u8, 1⟩])])) =
      (building curveFront).tx.cap.toNat ∧
    encodable (.agg .nil) = true ∧ (building curveFront).tx.cur + size (.agg .nil) ≤ (building curveFront).tx.cap.toNat :=
  ⟨curve_inv, by decide, by decide, by decide, by decide, by decide⟩

/-- A value one byte too long, and the two kinds of value that are not encodable. -/
theorem witness_FailedPushPoisonsTheBuilder :
    (building curveFront).Inv ∧ (building curveFront).tx.state = .opened ∧
    (∀ v ∈ [Value.agg (fields [.num ⟨.u64, 0⟩, .num ⟨.u32, 0⟩]), .unsup .map, .enum 65536 .nil],
      ¬(encodable v = true ∧ (building curveFront).tx.cur + size v ≤ (building curveFront).tx.cap.toNat)) :=
  ⟨curve_inv, by decide, by decide⟩

/-- A walk without an error, and one with each of its errors. -/
theorem witness_PushOutcomeIsTheWalksFirstError :
    (building curveFront).Inv ∧ (building curveFront).tx.state = .opened ∧
    encodeWalk params (.num ⟨.u64, 0⟩) 11 = .ok 3 ∧ encodeWalk params (.num ⟨.u128, 0⟩) 11 = .error .bufferFull ∧
    encodeWalk params (.enum 65536 .nil) 11 = .error .badEnumDiscriminant :=
  ⟨curve_inv, by decide, by decide, by decide, by decide⟩

theorem witness_PushAndFinalNeedAnOpenBuilder :
    s0.tx.state ≠ .opened ∧ (next (.txPush (.unsup .map)) (building curveFront)).tx.state ≠ .opened := by
  decide

/-- CRC off with the storage full, and CRC on with exactly 2 bytes free. -/
theorem witness_TxFinalPatchesLengthAndAppendsCrc :
    (building (curveFront ++ List.replicate 11 0)).Inv ∧
    (building (curveFront ++ List.replicate 11 0)).tx.state = .opened ∧
    (building (curveFront ++ List.replicate 11 0)).tx.cur + (if false then 2 else 0) =
      (building (curveFront ++ List.replicate 11 0)).tx.cap.toNat ∧
    (building (curveFront ++ List.replicate 9 0)).Inv ∧
    (building (curveFront ++ List.replicate 9 0)).tx.state = .opened ∧
    (building (curveFront ++ List.replicate 9 0)).tx.cur + (if true then 2 else 0) =
      (building (curveFront ++ List.replicate 9 0)).tx.cap.toNat :=
  ⟨building_inv (by decide) (by decide) (by decide), by decide, by decide,
    building_inv (by decide) (by decide) (by decide), by decide, by decide⟩

/-- One byte free. -/
theorem witness_TxFinalWithoutRoomForCrcFails :
    (building (curveFront ++ List.replicate 10 0)).Inv ∧
    (building (curveFront ++ List.replicate 10 0)).tx.state = .opened ∧
    (building (curveFront ++ List.replicate 10 0)).tx.cap.toNat <
      (building (curveFront ++ List.replicate 10 0)).tx.cur + 2 :=
  ⟨building_inv (by decide) (by decide) (by decide), by decide, by decide⟩

/-- V3 in a capacity it fills, and the smallest capacity of all without values. -/
theorem witness_BuildGivesTheFrame :
    s0.tx.state = .idle ∧ s0.params.minBuildCap ≤ (12 : Byte).toNat ∧
    (∀ v ∈ [Value.num ⟨.u16, 0x5A00⟩, .num ⟨.u16, 0x1234⟩], encodable v = true) ∧
    3 + (instrEncode (.wordWrite 0x00DE)).length +
      ([Value.num ⟨.u16, 0x5A00⟩, .num ⟨.u16, 0x1234⟩].map size).sum + (if true then 2 else 0) = (12 : Byte).toNat ∧
    s0.params.minBuildCap ≤ (8 : Byte).toNat ∧
    3 + (instrEncode (.curveWrite 0)).length + (([] : List Value).map size).sum + (if true then 2 else 0) ≤
      (8 : Byte).toNat := by
  decide

/-- `CurveWrite ch=01` with one payload byte: LEN 5, the minimum with CRC on; and without CRC LEN 3, the minimum. -/
theorem witness_BuiltFrameParsesBack :
    (building (curveFront ++ [0x07])).Inv ∧ (building (curveFront ++ [0x07])).tx.state = .opened ∧
    (building (curveFront ++ [0x07])).tx.buf.take (building (curveFront ++ [0x07])).tx.cur =
      be 2 (building (curveFront ++ [0x07])).params.header.toNat ++ 0x00 :: (instrEncode (.curveWrite 0x01) ++ [0x07]) ∧
    (∀ crc : Bool, exec (.txFinal crc) (building (curveFront ++ [0x07])) =
        .next (next (.txFinal crc) (building (curveFront ++ [0x07])))) ∧
    (next (.txFinal true) (building (curveFront ++ [0x07]))).reply =
      some (.ok (.bytes [0x5A, 0xA5, 0x05, 0x84, 0x01, 0x07, 0x71, 0xBB]) .none) ∧
    (next (.txFinal false) (building (curveFront ++ [0x07]))).reply =
      some (.ok (.bytes [0x5A, 0xA5, 0x03, 0x84, 0x01, 0x07]) .none) ∧
    s0.params = (building (curveFront ++ [0x07])).params ∧ minLen true ≤ 8 - 3 ∧ minLen false ≤ 6 - 3 :=
  ⟨building_inv (by decide) (by decide) (by decide), by decide, by decide, fun crc => by cases crc <;> rfl, by decide,
    by decide, by decide, by decide, by decide⟩

theorem witness_DecodeOfImage :
    conforms (.enum 1 (fields [.num ⟨.u16, 5⟩])) enumShape = true ∧ encodable (.enum 1 (fields [.num ⟨.u16, 5⟩])) = true ∧
    conforms (.agg (fields [.bool true, .num ⟨.f64, 1⟩])) (.agg (fieldShapes [.bool, .num .f64])) = true ∧
    encodable (.agg (fields [.bool true, .num ⟨.f64, 1⟩])) = true := by
  decide

/-- Also the hypotheses of `DecoderReadsNothingPastItsPosition`: a window with bytes left over, and an empty shape at the
end of a window. -/
theorem witness_DecodedValueReencodesToTheBytesRead :
    (0 : Nat) ≤ ([0x01, 0x02, 0x03, 0x04] : ByteString).length ∧
    dec params (.agg (fieldShapes [.num .u8, .num .u16])) [0x01, 0x02, 0x03, 0x04] 0 =
      .ok (.agg (fields [.num ⟨.u8, 1⟩, .num ⟨.u16, 0x0203⟩]), 3) ∧
    (2 : Nat) ≤ ([0xCC, 0xDD] : ByteString).length ∧ dec params (.agg .nil) [0xCC, 0xDD] 2 = .ok (.agg .nil, 2) := by
  decide

theorem witness_DecoderReadsNothingPastItsPosition :
    (1 : Nat) ≤ ([0x00, 0x00, 0x01, 0xFF] : ByteString).length ∧
    dec params .bool [0x00, 0x00, 0x01, 0xFF] 1 = .ok (.bool true, 3) := by
  decide

/-- One byte short for each width, the word 2, the first discriminant without a variant, an error in a variant's field
(as V78), in an aggregate's first field (as V80), and in a later one at the position reached (as V74). -/
theorem witness_DecodeErrorsByShape :
    ([] : ByteString).length < NumKind.u8.size ∧ (List.replicate 15 (0 : Byte)).length < NumKind.i128.size ∧
    ([0x01] : ByteString).length < 2 ∧ 2 ≤ (2 : Word).toNat ∧ 2 ≤ (0xFFFF : Word).toNat ∧
    (variants [[], [.num .u16]]).length ≤ (2 : Word).toNat ∧ (variants [[]]).length ≤ (0xFFFF : Word).toNat ∧
    variantAt (variants [[], [.num .u16]]) (1 : Word).toNat = some (fieldShapes [.num .u16]) ∧
    dec params (.agg (fieldShapes [.num .u16])) ([0xCC] ++ (be 2 (1 : Word).toNat ++ [0x05])) (1 + 2) =
      .error .unexpectedEnd ∧
    dec params .bool ([0xCC] ++ [0x00, 0x05]) 1 = .error .badBool ∧
    dec params (.num .u8) ([0xCC] ++ [0x07]) 1 = .ok (.num ⟨.u8, 7⟩, 2) ∧
    dec params (.agg (fieldShapes [.num .u16])) ([0xCC] ++ [0x07]) 2 = .error .unexpectedEnd := by
  decide

/-- The least and the greatest integer of the narrowest and the widest kind. -/
theorem witness_SignedIntegersAreTwosComplement :
    ∀ k ∈ [NumKind.i8, .i128], isSigned k = true ∧
      -(2 : Int) ^ (8 * k.size - 1) ≤ -(2 : Int) ^ (8 * k.size - 1) ∧
      -(2 : Int) ^ (8 * k.size - 1) < (2 : Int) ^ (8 * k.size - 1) ∧
      -(2 : Int) ^ (8 * k.size - 1) ≤ (2 : Int) ^ (8 * k.size - 1) - 1 ∧
      (2 : Int) ^ (8 * k.size - 1) - 1 < (2 : Int) ^ (8 * k.size - 1) := by
  decide

theorem witness_DecTakeMovesOnlyThePosition :
    (reading [0xCC, 0xDD] 0).dec.state = .ready ∧
    dec params (.num .u16) (reading [0xCC, 0xDD] 0).dec.win (reading [0xCC, 0xDD] 0).dec.pos =
      .ok (.num ⟨.u16, 0xCCDD⟩, 2) ∧
    dec params (.num .u8) (reading [0xCC, 0xDD] 2).dec.win (reading [0xCC, 0xDD] 2).dec.pos = .error .unexpectedEnd ∧
    s0.dec.state ≠ .ready ∧ (next (.decTake (.num .u8)) (reading [] 0)).dec.state ≠ .ready := by
  decide

/-- The stages' clauses in their order: inputs of 1, 2 and 3 bytes, a length byte one below the minimum and at it, a body
one byte short, a false trailer, and bodies whose data is rejected and taken. -/
theorem witness_ParserStagesInOrder :
    ([0x5A] : ByteString).length < 2 ∧
    (2 ≤ ([0x5A, 0xA4] : ByteString).length ∧ ([0x5A, 0xA4] : ByteString).take 2 ≠ be 2 params.header.toNat) ∧
    (([0x5A, 0xA5] : ByteString).length = 2 ∧ ([0x5A, 0xA5] : ByteString).take 2 = be 2 params.header.toNat) ∧
    (frame1[2]? = some 0x05 ∧ frame1.take 2 = be 2 params.header.toNat ∧ minLen true ≤ (0x05 : Byte).toNat) ∧
    ((0x04 : Byte).toNat < minLen true ∧ (0x02 : Byte).toNat < minLen false) ∧
    (frame1.take 7).length < 3 + (0x05 : Byte).toNat ∧
    (frame1.drop 3 = [0x82, 0x4F, 0x4B] ++ 0xA5 :: 0xEF :: [] ∧
      ([0x82, 0x4F, 0x4B] : ByteString).length + 2 = (0x05 : Byte).toNat ∧ crc16 [0x82, 0x4F, 0x4B] ≠ fromLe2 0xAA 0xEF) ∧
    (frame1.drop 3 = [0x82, 0x4F, 0x4B] ++ [0xA5, 0xEF] ++ [] ∧ [0xA5, 0xEF] = le2 (crc16 [0x82, 0x4F, 0x4B]) ∧
      instrDecode [0x82, 0x4F, 0x4B] = .ok (.wordWrite 0x4F4B, 3)) ∧
    ([0x85, 0x4F, 0x4B] ++ ([] : ByteString) ++ [0x00]).length = 4 ∧ minLen false ≤ (0x03 : Byte).toNat ∧
      instrDecode [0x85, 0x4F, 0x4B] = .error .badInstruction := by
  decide

theorem witness_ParseCommandsWriteOnlyTheFrameHandle :
    parseFrame s0.params true frame1 = .ok (.wordWrite 0x4F4B) [] 8 ∧
    parseFrame s0.params true [0x5A] = .err .unexpectedEnd none ∧
    parseFrame s0.params true (frame1.set 6 0) = .err .badCrc (some 8) := by
  decide

theorem witness_RemainderIsFixedByTheDeclaredLength :
    (∃ i w, parseFrame params true (frame1 ++ [0x00]) = .ok i w 8) ∧
    (∃ e, parseFrame params true (frame1.set 6 0) = .err e (some 8)) :=
  ⟨⟨.wordWrite 0x4F4B, [], by decide⟩, ⟨.badCrc, by decide⟩⟩

theorem witness_OffsetIsMissingOnlyBeforeTheBody :
    parseFrame params true [0x5A, 0xA5, 0x04] = .err .badLen none ∧
    parseFrame params true (frame1.set 6 0) = .err .badCrc (some 8) := by
  decide

theorem witness_RepeatedParseGivesTheSameState :
    exec (.rxParse true frame2) s0 = .next (next (.rxParse true frame2) s0) ∧
    exec (.rxParseRem true frame2) s0 = .next (next (.rxParseRem true frame2) s0) := ⟨rfl, rfl⟩

theorem witness_AccInitAndResetEmptyTheAccumulator :
    lent.AccWindow ∧ ¬(reading [0x01] 0).AccWindow ∧ ¬s0.AccWindow ∧ lent.acc.init = true ∧ s0.acc.init = false := by
  decide

/-- The header's two bytes and their neighbours; length bytes at and beside the minimum and `P_ACC_CAP = 16`. -/
theorem witness_HeaderAndLengthBytes :
    feeding.acc.state = .empty ∧ be 2 params.header.toNat = [0x5A, params.header.setWidth 8] ∧
    be 2 params.header.toNat ≠ [0x5B, params.header.setWidth 8] ∧
    (next (.accFeed [0x5A]) feeding).acc.state = .headerByte1Seen ∧ (be 2 params.header.toNat).drop 1 = [0xA5] ∧
    (be 2 params.header.toNat).drop 1 ≠ [0x5A] ∧
    (next (.accFeed [0x5A, 0xA5]) feeding).acc.state = .headerByte2Seen ∧ feeding.acc.crc = true ∧
    (4 : Byte).toNat < 5 ∧ ¬(5 : Byte).toNat < 5 ∧ ¬params.accCap < (16 : Byte).toNat ∧
    params.accCap < (17 : Byte).toNat := by
  decide

/-- Nothing fed, all but the last byte fed, and the smallest and the largest body. -/
theorem witness_BodyBytesAreSwallowed :
    (inBody [0x83, 0xAA, 0xBB] 5).Inv ∧ (inBody [0x83, 0xAA, 0xBB] 5).acc.init = true ∧
    (inBody [0x83, 0xAA, 0xBB] 5).acc.state = .payloadByte 5 ∧ ([] : ByteString).length < 5 ∧
    ([0x5A, 0xA5, 0x05, 0x82] : ByteString).length < 5 ∧ (inBody [] 5).Inv ∧ (inBody [] 16).Inv :=
  ⟨inBody_inv (by decide) (by decide) (by decide), by decide, by decide, by decide, by decide,
    inBody_inv (by decide) (by decide) (by decide), inBody_inv (by decide) (by decide) (by decide)⟩

/-- Also a state with an accumulator window, and outcomes of a feed there that are no frame. -/
theorem witness_AccFeedCompletes :
    s0.acc.init = false ∧ feeding.acc.init = true ∧ ¬feeding.AccWindow ∧ lent.acc.init = true ∧ lent.AccWindow ∧
    (next (.accFeed [0x5A]) lent).reply = some .consumed ∧
    (next (.accFeed [0x00]) lent).reply = some (.err .badHeader (.plain 1)) := by
  decide

/-- Garbage, a frame split in its middle, and a false trailer: the sequence has three events. -/
theorem witness_ChunkingDoesNotMatter :
    feeding.acc.init = true ∧
    (drainChunks 0 [0x00 :: frame2.take 5, frame2.drop 5 ++ frame1.set 6 0] feeding).1 =
      [.err .badHeader 1, .frame (.wordRead 0xAABB 1) [0xCC, 0xDD] 12, .err .badCrc 20] := by
  decide +kernel

/-- A frame of 16 body bytes, the most the accumulator of `P_ACC_CAP = 16` takes, and a rejected one. -/
theorem witness_AccumulatorAgreesWithParser :
    feeding.Inv ∧ feeding.acc.init = true ∧ feeding.acc.state = .empty ∧
    (∃ lo hi : Byte, parseFrame feeding.params feeding.acc.crc
      ([0x5A, 0xA5, 0x10, 0x84, 0x01] ++ List.replicate 12 0 ++ [lo, hi]) =
        .ok (.curveWrite 1) (List.replicate 12 0) (3 + feeding.params.accCap)) ∧
    parseFrame feeding.params feeding.acc.crc (frame1.set 6 0) = .err .badCrc (some 8) ∧
    8 ≤ 3 + feeding.params.accCap :=
  ⟨feeding_inv, by decide, by decide,
    ⟨(crc16 ([0x84, 0x01] ++ List.replicate 12 0)).setWidth 8, (crc16 ([0x84, 0x01] ++ List.replicate 12 0) >>> 8).setWidth 8,
      by decide +kernel⟩, by decide +kernel, by decide⟩

theorem witness_NoPartialFrameEscapes :
    feeding.Inv ∧ feeding.acc.state = .empty ∧
    exec (.accFeed (frame2 ++ [0x5A])) feeding = .next (next (.accFeed (frame2 ++ [0x5A])) feeding) ∧
    (next (.accFeed (frame2 ++ [0x5A])) feeding).reply = some (.ok (.instr (.wordRead 0xAABB 1)) (.plain 11)) :=
  ⟨feeding_inv, by decide, rfl, by decide +kernel⟩

theorem witness_ResynchronisationAfterOneGarbageByte :
    feeding.Inv ∧ feeding.acc.init = true ∧ feeding.acc.state = .empty ∧
    be 2 feeding.params.header.toNat = [0x5A, 0xA5] ∧ (0x00 : Byte) ≠ 0x5A ∧ (0xA5 : Byte) ≠ 0x5A ∧
    parseFrame feeding.params feeding.acc.crc frame1 = .ok (.wordWrite 0x4F4B) [] frame1.length ∧
    frame1.length ≤ 3 + feeding.params.accCap :=
  ⟨feeding_inv, by decide, by decide, by decide, by decide, by decide, by decide, by decide⟩

theorem witness_AccumulatorNeverReportsBufferFull :
    (inBody (List.replicate 15 0) 1).Inv ∧
    exec (.accFeed [0x00]) (inBody (List.replicate 15 0) 1) =
      .next (next (.accFeed [0x00]) (inBody (List.replicate 15 0) 1)) :=
  ⟨inBody_inv (by decide) (by decide) (by decide), rfl⟩

theorem witness_AccumulatorWindowIsTakenBack :
    lent.AccWindow ∧ lent.acc.init = true ∧
    (∀ c ∈ [Instr.accReset, .accInit true, .accFeed [], .accFeed [0x5A], .accFeed [0x00]],
      exec c lent = .next (next c lent) ∧ (next c lent).dec.state = .empty ∧
      (next c lent).reply ∈ [some (.ok .unit .none), some .consumed, some (.err .badHeader (.plain 1))]) := by
  refine ⟨by decide, by decide, ?_⟩
  intro c hc
  fin_cases hc <;> exact ⟨rfl, by decide, by decide⟩

/-- Each reason R290 lists for an instruction, with a state it holds in, and an instruction that is not refused. -/
theorem witness_RefusedExactlyWhereListed :
    refusalOf (.txOpen 16 (.wordWrite 0)) (building curveFront) = some .builderBusy ∧
    refusalOf (.txOpen 7 (.wordWrite 0)) s0 = some .badCapacity ∧ refusalOf (.txOpen 8 (.wordWrite 0)) s0 = none ∧
    refusalOf (.txPush (.agg .nil)) s0 = some .noBuilder ∧ refusalOf (.txFinal true) s0 = some .noBuilder ∧
    refusalOf (.decTake .bool) s0 = some .noWindow ∧ refusalOf .accReset s0 = some .accUninit ∧
    refusalOf (.accFeed []) s0 = some .accUninit ∧ refusalOf (.accFeed []) feeding = none ∧
    exec (.accFeed []) s0 = .next (next (.accFeed []) s0) ∧ exec (.accFeed []) feeding = .next (next (.accFeed []) feeding) :=
  ⟨by decide, by decide, by decide, by decide, by decide, by decide, by decide, by decide, by decide, rfl, rfl⟩

theorem witness_RefusedMarkIsSticky :
    step { s0 with refusedMark := true, pending := [.reset] } =
      .next (stepOn .reset { s0 with refusedMark := true }) ∧
    step { s0 with pending := [.command [0x14]] } = .next (stepOn (.command [0x14]) s0) ∧
    ({ s0 with pending := [.command [0x14]] } : State).pending ≠ [] ∧
    (stepOn (.command [0x14]) s0).wasRefused = true ∧ s0.refusedMark = false ∧
    (stepOn (.command [0x14]) s0).refusedMark = true :=
  ⟨rfl, rfl, by decide, by decide, by decide, by decide⟩

theorem witness_ParametersNeverChange :
    step { s0 with pending := [.command [0x01]] } = .next (stepOn (.command [0x01]) s0) ∧
    step { s0 with pending := [.reset] } = .next (stepOn .reset s0) := ⟨rfl, rfl⟩

theorem witness_CrcRegisterIsPrivateToTheCrcUnit :
    (Instr.txFinal true).opcode ∉ ([0x01, 0x02, 0x03] : ByteString) ∧
    exec (.txFinal true) (building curveFront) = .next (next (.txFinal true) (building curveFront)) :=
  ⟨by decide, rfl⟩

/-- A command of each unit: the opcodes the clauses exclude and take in. -/
theorem witness_UnitsAreWrittenByTheirOwnCommands :
    (exec .crcRead s0 = .next (next .crcRead s0) ∧ Instr.crcRead.opcode ∉ ([0x10, 0x11, 0x12, 0x13] : ByteString) ∧
      Instr.crcRead.opcode ∉ ([0x40, 0x41, 0x42] : ByteString) ∧
      Instr.crcRead.opcode ∈ ([0x01, 0x02, 0x03, 0x10, 0x11, 0x12, 0x13] : ByteString)) ∧
    (exec .txAbort s0 = .next (next .txAbort s0) ∧
      Instr.txAbort.opcode ∈ ([0x01, 0x02, 0x03, 0x10, 0x11, 0x12, 0x13] : ByteString)) :=
  ⟨⟨rfl, by decide, by decide, by decide⟩, rfl, by decide⟩

/-- The engine just created meets the invariants, so does a builder at work, and both go on. -/
theorem witness_StepKeepsTheInvariant :
    feeding.Inv ∧ (building curveFront).Inv ∧
    step { building curveFront with pending := [.command [0x12, 0x01]] } =
      .next (stepOn (.command [0x12, 0x01]) (building curveFront)) :=
  ⟨feeding_inv, curve_inv, rfl⟩

end Sys2Proof.Tests
end

section
/-! SUPPORT. What one step can do and what the commands of 60_exceptions.md R290 can do, said once: each lemma lists the
cases of a definition with its guards, so that what every step keeps is read off the cases. -/

namespace Sys2Proof.Machine

/-- The inversion lemma of a step: it waits, or it takes the first thing pending, which is an instruction, an illegal
command, rejected frame data or a reset. -/
theorem step_cases {s t : State} (h : step s = .next t) :
    (s.pending = [] ∧ t = s) ∨
    ∃ inp q, s.pending = inp :: q ∧
      ((∃ i tail, fetch inp = .run i tail ∧ exec i (s.fetched q tail) = .next t) ∨
       t = s.afterIllegal q ∨ (∃ e, t = s.afterBadData q e) ∨ t = s.afterRecreate q) := by
  unfold step at h
  cases hq : s.pending with
  | nil =>
    simp only [hq] at h
    exact .inl ⟨rfl, (Host.Outcome.next.inj h).symm⟩
  | cons inp q =>
    simp only [hq] at h
    refine .inr ⟨inp, q, rfl, ?_⟩
    cases hf : fetch inp with
    | run i tail =>
      simp only [hf] at h
      exact .inl ⟨i, tail, rfl, h⟩
    | illegal =>
      simp only [hf] at h
      exact .inr (.inl (Host.Outcome.next.inj h).symm)
    | badData e =>
      simp only [hf] at h
      exact .inr (.inr (.inl ⟨e, (Host.Outcome.next.inj h).symm⟩))
    | recreate =>
      simp only [hf] at h
      exact .inr (.inr (.inr (Host.Outcome.next.inj h).symm))

/-- Every wire row means that its instruction is received. -/
theorem exec_toInstr (i : WireInstr) (s : State) : exec i.toInstr s = .next (s.receive i) := by
  cases i <;> rfl

theorem WireInstr.toInstr_injective {i j : WireInstr} (h : i.toInstr = j.toInstr) : i = j := by
  cases i <;> cases j <;> cases h <;> rfl

theorem execTxOpen_cases {cap : Byte} {i : WireInstr} {s t : State} (h : execTxOpen cap i s = .next t) :
    (s.tx.state ≠ .idle ∧ t = s.refuse .builderBusy) ∨
    (s.tx.state = .idle ∧ cap.toNat < s.params.minBuildCap ∧ t = s.refuse .badCapacity) ∨
    (s.tx.state = .idle ∧ s.params.minBuildCap ≤ cap.toNat ∧
      ((∃ u, (TxUnit.fresh s.draws cap).writeFront s.params (s.draws + 1) i = .done u ∧
          t = { s with tx := { u with state := .opened }, draws := s.draws + 2 }.answer .unit .none) ∨
       ∃ u e, (TxUnit.fresh s.draws cap).writeFront s.params (s.draws + 1) i = .failed u e ∧
          t = { s with tx := { u with state := .idle }, draws := s.draws + 2 }.raise e .none)) := by
  by_cases hi : s.tx.state = .idle
  · by_cases hc : cap.toNat < s.params.minBuildCap
    · simp only [execTxOpen, hi, ne_eq, not_true, if_false, hc, true_or, if_true] at h
      exact .inr (.inl ⟨hi, hc, (Host.Outcome.next.inj h).symm⟩)
    · refine .inr (.inr ⟨hi, by omega, ?_⟩)
      cases hw : (TxUnit.fresh s.draws cap).writeFront s.params (s.draws + 1) i with
      | done u =>
        rw [execTxOpen_done hi (by omega) hw] at h
        exact .inl ⟨u, rfl, (Host.Outcome.next.inj h).symm⟩
      | failed u e =>
        rw [execTxOpen_failed hi (by omega) hw] at h
        exact .inr ⟨u, e, rfl, (Host.Outcome.next.inj h).symm⟩
  · simp only [execTxOpen, ne_eq, hi, not_false_eq_true, if_true] at h
    exact .inl ⟨hi, (Host.Outcome.next.inj h).symm⟩

theorem execTxPush_cases {v : Value} {s t : State} (h : execTxPush v s = .next t) :
    (s.tx.state ≠ .opened ∧ t = s.refuse .noBuilder) ∨
    (s.tx.state = .opened ∧
      ((∃ u, enc s.params s.draws v s.tx = .done u ∧ t = { s with tx := u }.answer .unit .none) ∨
       ∃ u e, enc s.params s.draws v s.tx = .failed u e ∧
          t = { s with tx := u.poison (s.draws + 1) s.tx.cur e, draws := s.draws + 2 }.raise e .none)) := by
  by_cases ho : s.tx.state = .opened
  · refine .inr ⟨ho, ?_⟩
    cases he : enc s.params s.draws v s.tx with
    | done u =>
      rw [execTxPush_done ho he] at h
      exact .inl ⟨u, rfl, (Host.Outcome.next.inj h).symm⟩
    | failed u e =>
      rw [execTxPush_failed ho he] at h
      exact .inr ⟨u, e, rfl, (Host.Outcome.next.inj h).symm⟩
  · simp only [execTxPush, ne_eq, ho, not_false_eq_true, if_true] at h
    exact .inl ⟨ho, (Host.Outcome.next.inj h).symm⟩

theorem execTxFinal_cases {crc : Bool} {s t : State} (h : execTxFinal crc s = .next t) :
    (s.tx.state ≠ .opened ∧ t = s.refuse .noBuilder) ∨
    (s.tx.state = .opened ∧
      ((∃ u, s.tx.writeTrailer s.draws crc = .done u ∧
          t = { s with tx := { u.backPatch with state := .idle } }.answer (.bytes u.backPatch.written) .none) ∨
       ∃ u e, s.tx.writeTrailer s.draws crc = .failed u e ∧
          t = { s with tx := { u with state := .idle }, draws := s.draws + 1 }.raise e .none)) := by
  by_cases ho : s.tx.state = .opened
  · refine .inr ⟨ho, ?_⟩
    cases hw : s.tx.writeTrailer s.draws crc with
    | done u =>
      rw [execTxFinal_done ho hw] at h
      exact .inl ⟨u, rfl, (Host.Outcome.next.inj h).symm⟩
    | failed u e =>
      rw [execTxFinal_failed ho hw] at h
      exact .inr ⟨u, e, rfl, (Host.Outcome.next.inj h).symm⟩
  · simp only [execTxFinal, ne_eq, ho, not_false_eq_true, if_true] at h
    exact .inl ⟨ho, (Host.Outcome.next.inj h).symm⟩

theorem execDecTake_cases {sh : Shape} {s t : State} (h : execDecTake sh s = .next t) :
    (s.dec.state ≠ .ready ∧ t = s.refuse .noWindow) ∨
    (s.dec.state = .ready ∧
      ((∃ v p, dec s.params sh s.dec.win s.dec.pos = .ok (v, p) ∧
          t = { s with dec := { s.dec with pos := p } }.answer (.value v) .none) ∨
       ∃ e, dec s.params sh s.dec.win s.dec.pos = .error e ∧
          t = { s with dec := { s.dec with state := .failed } }.raise e .none)) := by
  by_cases hr : s.dec.state = .ready
  · refine .inr ⟨hr, ?_⟩
    rw [execDecTake, if_neg (not_not.2 hr)] at h
    cases hd : dec s.params sh s.dec.win s.dec.pos with
    | ok r =>
      obtain ⟨v, p⟩ := r
      simp only [hd] at h
      exact .inl ⟨v, p, rfl, (Host.Outcome.next.inj h).symm⟩
    | error e =>
      simp only [hd] at h
      exact .inr ⟨e, rfl, (Host.Outcome.next.inj h).symm⟩
  · simp only [execDecTake, ne_eq, hr, not_false_eq_true, if_true] at h
    exact .inl ⟨hr, (Host.Outcome.next.inj h).symm⟩

theorem execAccReset_cases {s t : State} (h : execAccReset s = .next t) :
    (s.acc.init = false ∧ t = s.refuse .accUninit) ∨
    (s.acc.init = true ∧ t = { s.invalidateAccWindow with acc := s.acc.toEmpty }.answer .unit .none) := by
  cases hi : s.acc.init with
  | false =>
    simp only [execAccReset, hi, if_true] at h
    exact .inl ⟨rfl, (Host.Outcome.next.inj h).symm⟩
  | true =>
    simp only [execAccReset, hi, Bool.true_eq_false, if_false] at h
    exact .inr ⟨rfl, (Host.Outcome.next.inj h).symm⟩

theorem execAccFeed_cases {input : ByteString} {s t : State} (h : execAccFeed input s = .next t) :
    (s.acc.init = false ∧ t = s.refuse .accUninit) ∨
    (s.acc.init = true ∧ ∃ a,
      ((s.acc.feed s.params 0 input = (a, .consumed) ∧ t = { s.invalidateAccWindow with acc := a }.answerConsumed) ∨
       (∃ e k, s.acc.feed s.params 0 input = (a, .err e k) ∧
          t = { s.invalidateAccWindow with acc := a }.raise e (.plain k)) ∨
       ∃ i w k, s.acc.feed s.params 0 input = (a, .done i w k) ∧
          t = ({ s.invalidateAccWindow with acc := a }.loadWindow (some i) w .acc).answer (.instr i) (.plain k))) := by
  cases hi : s.acc.init with
  | false =>
    simp only [execAccFeed, hi, if_true] at h
    exact .inl ⟨rfl, (Host.Outcome.next.inj h).symm⟩
  | true =>
    simp only [execAccFeed, hi, Bool.true_eq_false, if_false] at h
    obtain ⟨a, ev, hf⟩ : ∃ a ev, s.acc.feed s.params 0 input = (a, ev) := ⟨_, _, rfl⟩
    simp only [hf] at h
    refine .inr ⟨rfl, a, ?_⟩
    cases ev with
    | consumed => exact .inl ⟨hf, (Host.Outcome.next.inj h).symm⟩
    | err e k => exact .inr (.inl ⟨e, k, hf, (Host.Outcome.next.inj h).symm⟩)
    | done i w k => exact .inr (.inr ⟨i, w, k, hf, (Host.Outcome.next.inj h).symm⟩)

/-- Both parse commands write the frame handle as the parse says, and report it as no refusal (45_frame_parser.md R238,
R239). -/
theorem execRxParse_next {crc : Bool} {input : ByteString} {s t : State}
    (h : execRxParse crc input s = .next t ∨ execRxParseRem crc input s = .next t) :
    t = { s.afterParse (parseFrame s.params crc input) with reply := t.reply } ∧ t.wasRefused = false := by
  unfold execRxParse execRxParseRem at h
  cases hp : parseFrame s.params crc input <;> simp only [hp] at h <;>
    rcases h with h | h <;> cases h <;> exact ⟨rfl, rfl⟩

end Sys2Proof.Machine
end

section
/-! SUPPORT. When an instruction is refused (60_exceptions.md R290), and what a step does to `refused_mark`
(10_state.md R38). -/

namespace Sys2Proof.Machine

/-- The outcome is no refusal and `refused_mark` is as before. -/
structure State.CarriedOut (s t : State) : Prop where
  outcome : t.wasRefused = false
  mark : t.refusedMark = s.refusedMark

/-- An instruction is refused as `refusalOf` says, or it is carried out. -/
theorem exec_refused_or_carriedOut {i : Instr} {s t : State} (h : exec i s = .next t) :
    (∃ r, refusalOf i s = some r ∧ t = s.refuse r) ∨ (refusalOf i s = none ∧ s.CarriedOut t) := by
  cases i with
  | registerWrite | registerRead | wordWrite | wordRead | curveWrite | dwordWrite | dwordRead
  | crcInit | crcFeed | crcRead | txAbort | decLoad =>
    cases h
    exact .inr ⟨rfl, rfl, rfl⟩
  | txOpen cap w =>
    rcases execTxOpen_cases h with ⟨hi, rfl⟩ | ⟨hi, hc, rfl⟩ | ⟨hi, hc, ⟨u, -, rfl⟩ | ⟨u, e, -, rfl⟩⟩
    · exact .inl ⟨_, by simp [refusalOf, hi], rfl⟩
    · exact .inl ⟨_, by simp [refusalOf, hi, hc], rfl⟩
    · exact .inr ⟨by simp [refusalOf, hi, hc], rfl, rfl⟩
    · exact .inr ⟨by simp [refusalOf, hi, hc], rfl, rfl⟩
  | txPush v =>
    rcases execTxPush_cases h with ⟨ho, rfl⟩ | ⟨ho, ⟨u, -, rfl⟩ | ⟨u, e, -, rfl⟩⟩
    · exact .inl ⟨_, by simp [refusalOf, ho], rfl⟩
    · exact .inr ⟨by simp [refusalOf, ho], rfl, rfl⟩
    · exact .inr ⟨by simp [refusalOf, ho], rfl, rfl⟩
  | txFinal crc =>
    rcases execTxFinal_cases h with ⟨ho, rfl⟩ | ⟨ho, ⟨u, -, rfl⟩ | ⟨u, e, -, rfl⟩⟩
    · exact .inl ⟨_, by simp [refusalOf, ho], rfl⟩
    · exact .inr ⟨by simp [refusalOf, ho], rfl, rfl⟩
    · exact .inr ⟨by simp [refusalOf, ho], rfl, rfl⟩
  | rxParse crc input =>
    obtain ⟨ht, hr⟩ := execRxParse_next (.inl h)
    exact .inr ⟨rfl, hr, by rw [ht]; simp⟩
  | rxParseRem crc input =>
    obtain ⟨ht, hr⟩ := execRxParse_next (.inr h)
    exact .inr ⟨rfl, hr, by rw [ht]; simp⟩
  | decTake sh =>
    rcases execDecTake_cases h with ⟨hd, rfl⟩ | ⟨hd, ⟨v, p, -, rfl⟩ | ⟨e, -, rfl⟩⟩
    · exact .inl ⟨_, by simp [refusalOf, hd], rfl⟩
    · exact .inr ⟨by simp [refusalOf, hd], rfl, rfl⟩
    · exact .inr ⟨by simp [refusalOf, hd], rfl, rfl⟩
  | accInit crc =>
    cases h
    exact .inr ⟨rfl, rfl, by simp⟩
  | accReset =>
    rcases execAccReset_cases h with ⟨hi, rfl⟩ | ⟨hi, rfl⟩
    · exact .inl ⟨_, by simp [refusalOf, hi], rfl⟩
    · exact .inr ⟨by simp [refusalOf, hi], rfl, by simp⟩
  | accFeed input =>
    rcases execAccFeed_cases h with ⟨hi, rfl⟩ | ⟨hi, a, ⟨-, rfl⟩ | ⟨e, k, -, rfl⟩ | ⟨i, w, k, -, rfl⟩⟩
    · exact .inl ⟨_, by simp [refusalOf, hi], rfl⟩
    · exact .inr ⟨by simp [refusalOf, hi], rfl, by simp⟩
    · exact .inr ⟨by simp [refusalOf, hi], rfl, by simp⟩
    · exact .inr ⟨by simp [refusalOf, hi], rfl, by simp⟩

/-- A step waits, or ends with a refusal and the mark set, or with no refusal and the mark as before. -/
theorem step_refused_or_carriedOut {s t : State} (h : step s = .next t) :
    (s.pending = [] ∧ t = s) ∨ (t.wasRefused = true ∧ t.refusedMark = true) ∨ s.CarriedOut t := by
  rcases step_cases h with hwait | ⟨inp, q, -, ⟨i, tail, -, hx⟩ | rfl | ⟨e, rfl⟩ | rfl⟩
  · exact .inl hwait
  · rcases exec_refused_or_carriedOut hx with ⟨r, -, rfl⟩ | ⟨-, hc⟩
    · exact .inr (.inl ⟨rfl, rfl⟩)
    · exact .inr (.inr ⟨hc.outcome, hc.mark⟩)
  · exact .inr (.inl ⟨rfl, rfl⟩)
  · exact .inr (.inr ⟨rfl, rfl⟩)
  · exact .inr (.inr ⟨rfl, rfl⟩)

/-- Settles O54, from the three ways a step can end. -/
theorem refusedMarkIsSticky : Obligations.RefusedMarkIsSticky := by
  refine ⟨rfl, fun s t h => ?_⟩
  rcases step_refused_or_carriedOut h with ⟨hq, rfl⟩ | ⟨hr, hm⟩ | ⟨hr, hm⟩
  · exact ⟨id, fun hne => absurd hq hne, fun h0 h1 => by simp [h0] at h1⟩
  · exact ⟨fun _ => hm, fun _ _ => hm, fun _ _ => hr⟩
  · exact ⟨hm.trans, fun _ h1 => by simp [hr] at h1, fun h0 h1 => by simp [hm, h0] at h1⟩

end Sys2Proof.Machine
end

section
/-! SUPPORT. The checksum register does not take part in a command outside the CRC unit (10_state.md R22): the command
commutes with setting the register. -/

namespace Sys2Proof.Machine

/-- The state with another checksum register. -/
def State.withCrc (c : Word) (s : State) : State := { s with crcAcc := c }

@[simp] theorem State.withCrc_params (c : Word) (s : State) : (s.withCrc c).params = s.params := rfl
@[simp] theorem State.withCrc_tx (c : Word) (s : State) : (s.withCrc c).tx = s.tx := rfl
@[simp] theorem State.withCrc_dec (c : Word) (s : State) : (s.withCrc c).dec = s.dec := rfl
@[simp] theorem State.withCrc_acc (c : Word) (s : State) : (s.withCrc c).acc = s.acc := rfl
@[simp] theorem State.withCrc_draws (c : Word) (s : State) : (s.withCrc c).draws = s.draws := rfl

@[simp] theorem State.withCrc_invalidateAccWindow (c : Word) (s : State) :
    (s.withCrc c).invalidateAccWindow = s.invalidateAccWindow.withCrc c := by
  rw [State.invalidateAccWindow_eq, State.invalidateAccWindow_eq]
  rfl

/-- The outcome with another checksum register in its next state. -/
def outcomeWithCrc (c : Word) : Host.Outcome State Fault Refusal → Host.Outcome State Fault Refusal
  | .next t => .next (t.withCrc c)
  | .fault f => .fault f
  | .refused r => .refused r

theorem execTxOpen_withCrc (cap : Byte) (i : WireInstr) (c : Word) (s : State) :
    execTxOpen cap i (s.withCrc c) = outcomeWithCrc c (execTxOpen cap i s) := by
  unfold execTxOpen
  rw [State.withCrc_tx, State.withCrc_params, State.withCrc_draws]
  split
  · rfl
  · split
    · rfl
    · split <;> rfl

theorem execTxPush_withCrc (v : Value) (c : Word) (s : State) :
    execTxPush v (s.withCrc c) = outcomeWithCrc c (execTxPush v s) := by
  unfold execTxPush
  rw [State.withCrc_tx, State.withCrc_params, State.withCrc_draws]
  split
  · rfl
  · split <;> rfl

theorem execTxFinal_withCrc (crc : Bool) (c : Word) (s : State) :
    execTxFinal crc (s.withCrc c) = outcomeWithCrc c (execTxFinal crc s) := by
  unfold execTxFinal
  rw [State.withCrc_tx, State.withCrc_draws]
  split
  · rfl
  · split <;> rfl

theorem execRxParse_withCrc (crc : Bool) (input : ByteString) (c : Word) (s : State) :
    execRxParse crc input (s.withCrc c) = outcomeWithCrc c (execRxParse crc input s) := by
  unfold execRxParse
  rw [State.withCrc_params]
  split <;> rfl

theorem execRxParseRem_withCrc (crc : Bool) (input : ByteString) (c : Word) (s : State) :
    execRxParseRem crc input (s.withCrc c) = outcomeWithCrc c (execRxParseRem crc input s) := by
  unfold execRxParseRem
  rw [State.withCrc_params]
  split <;> rfl

theorem execDecTake_withCrc (sh : Shape) (c : Word) (s : State) :
    execDecTake sh (s.withCrc c) = outcomeWithCrc c (execDecTake sh s) := by
  unfold execDecTake
  rw [State.withCrc_dec, State.withCrc_params]
  split
  · rfl
  · split <;> rfl

theorem execAccInit_withCrc (crc : Bool) (c : Word) (s : State) :
    execAccInit crc (s.withCrc c) = outcomeWithCrc c (execAccInit crc s) := by
  unfold execAccInit
  rw [State.withCrc_invalidateAccWindow]
  rfl

theorem execAccReset_withCrc (c : Word) (s : State) :
    execAccReset (s.withCrc c) = outcomeWithCrc c (execAccReset s) := by
  unfold execAccReset
  rw [State.withCrc_acc, State.withCrc_invalidateAccWindow]
  split <;> rfl

theorem execAccFeed_withCrc (input : ByteString) (c : Word) (s : State) :
    execAccFeed input (s.withCrc c) = outcomeWithCrc c (execAccFeed input s) := by
  unfold execAccFeed
  rw [State.withCrc_acc, State.withCrc_params, State.withCrc_invalidateAccWindow]
  split
  · rfl
  · split <;> rfl

/-- A command outside the CRC unit commutes with setting the register. -/
theorem exec_withCrc {i : Instr} (hi : i.opcode ∉ [0x01, 0x02, 0x03]) (c : Word) (s : State) :
    exec i (s.withCrc c) = outcomeWithCrc c (exec i s) := by
  cases i with
  | crcInit | crcFeed | crcRead => exact absurd hi (by simp [Instr.opcode])
  | registerWrite | registerRead | wordWrite | wordRead | curveWrite | dwordWrite | dwordRead
  | txAbort | decLoad => rfl
  | txOpen cap w => exact execTxOpen_withCrc cap w c s
  | txPush v => exact execTxPush_withCrc v c s
  | txFinal crc => exact execTxFinal_withCrc crc c s
  | rxParse crc input => exact execRxParse_withCrc crc input c s
  | rxParseRem crc input => exact execRxParseRem_withCrc crc input c s
  | decTake sh => exact execDecTake_withCrc sh c s
  | accInit crc => exact execAccInit_withCrc crc c s
  | accReset => exact execAccReset_withCrc c s
  | accFeed input => exact execAccFeed_withCrc input c s

/-- Settles O56: the command commutes with setting the register to any value, and with setting it to the value it has. -/
theorem crcRegisterIsPrivateToTheCrcUnit : Obligations.CrcRegisterIsPrivateToTheCrcUnit := by
  intro i s t c hi h
  have hcomm : ∀ d : Word, exec i (s.withCrc d) = .next (t.withCrc d) := fun d => by
    rw [exec_withCrc hi, h]
    rfl
  have hsame : t = t.withCrc s.crcAcc := Host.Outcome.next.inj (h.symm.trans (hcomm s.crcAcc))
  exact ⟨by rw [hsame]; rfl, hcomm c⟩

end Sys2Proof.Machine
end

section
/-! SUPPORT. The invariants of 10_state.md R41, unit by unit: what each unit's operations keep of its clause. -/

namespace Sys2Proof.Machine

/-! ## The builder -/

theorem TxUnit.Inv.of_idle {p : Config.Params} {t : TxUnit} (hc : t.cur ≤ t.cap.toNat) (hi : t.state = .idle) :
    t.Inv p :=
  ⟨hc, fun h => absurd hi h, fun h => by simp [hi] at h⟩

/-- A write leaves the bytes before the cursor. -/
theorem TxUnit.Sound.take_wrote {t : TxUnit} (h : t.Sound) (bs : ByteString) {k : Nat} (hk : k ≤ t.cur) :
    (t.wrote bs).buf.take k = t.buf.take k := by
  have hl := h.length
  have hc := h.cursor
  rw [TxUnit.wrote_buf, List.append_assoc, List.take_append_of_le_length (by simp; omega), List.take_take,
    Nat.min_eq_left hk]

/-- A write behind the header and the length byte keeps the builder's clause. -/
theorem TxUnit.Inv.wrote {p : Config.Params} {t : TxUnit} (h : t.Inv p) (hs : t.Sound) {bs : ByteString}
    (hr : t.cur + bs.length ≤ t.cap.toNat) : (t.wrote bs).Inv p := by
  obtain ⟨-, h3, hh⟩ := h
  refine ⟨hr, fun hne => Nat.le_add_right_of_le (h3 hne), fun ho => ?_⟩
  have := h3 (show t.state ≠ .idle by simp_all)
  rw [hs.take_wrote bs (by omega)]
  exact hh ho

/-- A poisoned builder keeps its form and meets the clause: its cursor is not before the one the push began at (R214). -/
theorem TxUnit.poison_keeps {p : Config.Params} {t : TxUnit} (h : t.Sound) (draw : Nat) {c0 : Nat} (e : ErrKind)
    (h3 : 3 ≤ c0) (hc : c0 ≤ t.cap.toNat) : (t.poison draw c0 e).Sound ∧ (t.poison draw c0 e).Inv p := by
  obtain ⟨hlo, hhi⟩ := freeCursorIn_bounds draw hc
  have hform : (t.poison draw c0 e).cap = t.cap ∧ (t.poison draw c0 e).cur = freeCursorIn draw c0 t.cap.toNat ∧
      (t.poison draw c0 e).state = .failed := by
    unfold TxUnit.poison
    split <;> exact ⟨rfl, rfl, rfl⟩
  obtain ⟨hcap, hcur, hst⟩ := hform
  refine ⟨⟨by rw [TxUnit.poison_length, hcap, h.length], by rw [hcur, hcap]; exact hhi⟩, ?_⟩
  exact ⟨by rw [hcur, hcap]; exact hhi, fun _ => by omega, fun ho => by simp [hst] at ho⟩

/-- The storage after the trailer is sound, whether there was room or not (R213). -/
theorem TxUnit.Sound.writeTrailer_unit {t : TxUnit} (h : t.Sound) (draw : Nat) (crc : Bool) :
    (t.writeTrailer draw crc).unit.Sound := by
  rw [h.writeTrailer_eq]
  by_cases hr : t.cur + (if crc then 2 else 0) ≤ t.cap.toNat
  · rw [if_pos hr]
    exact h.wrote (by cases crc <;> simpa using hr)
  · rw [if_neg hr]
    exact h.scramble draw h.cursor

/-- The front of a frame begins with the header (R211). -/
theorem TxUnit.fresh_front_take (draw : Nat) (cap : Byte) (hdr : Word) (bs : ByteString) :
    ((TxUnit.fresh draw cap).wrote (be 2 hdr.toNat ++ bs)).buf.take 2 = be 2 hdr.toNat := by
  rw [TxUnit.wrote_buf]
  simp [TxUnit.fresh]

/-! ## The decode unit -/

/-- A read position moves forward, and not out of the window (43_decode.md R181). -/
structure Advances (w : ByteString) (p p' : Nat) : Prop where
  forward : p ≤ p'
  inWindow : p ≤ w.length → p' ≤ w.length

theorem Advances.refl (w : ByteString) (p : Nat) : Advances w p p := ⟨Nat.le_refl p, id⟩

theorem Advances.trans {w : ByteString} {p q r : Nat} (h : Advances w p q) (g : Advances w q r) : Advances w p r :=
  ⟨Nat.le_trans h.forward g.forward, g.inWindow ∘ h.inWindow⟩

theorem readWin_advances {n : Nat} {w : ByteString} {p u p' : Nat} (h : readWin n w p = .ok (u, p')) :
    Advances w p p' := by
  obtain ⟨hw, rfl, -⟩ := readWin_ok h
  exact ⟨Nat.le_add_right p n, fun _ => hw⟩

mutual

theorem dec_advances (ps : Config.Params) (w : ByteString) : ∀ (t : Shape) {p p' : Nat} {v : Value},
    dec ps t w p = .ok (v, p') → Advances w p p'
  | .num k, p, p', v, h => by
    unfold dec at h
    obtain ⟨⟨u, q⟩, hr, h⟩ := bind_eq_ok h
    cases h
    exact readWin_advances hr
  | .bool, p, p', v, h => by
    unfold dec at h
    obtain ⟨⟨u, q⟩, hr, h⟩ := bind_eq_ok h
    have hq : q = p' := by
      dsimp only at h
      split at h
      · cases h; rfl
      · split at h <;> cases h
        rfl
    exact hq ▸ readWin_advances hr
  | .agg ts, p, p', v, h => by
    unfold dec at h
    obtain ⟨⟨vs, q⟩, hf, h⟩ := bind_eq_ok h
    cases h
    exact decFields_advances ps w ts hf
  | .enum vs, p, p', v, h => by
    unfold dec at h
    obtain ⟨⟨d, q⟩, hr, h⟩ := bind_eq_ok h
    obtain ⟨⟨fs, r⟩, hf, h⟩ := bind_eq_ok h
    cases h
    exact (readWin_advances hr).trans (decVariant_advances ps w vs hf)
  | .unsup k, p, p', v, h => by
    unfold dec at h
    cases h

theorem decFields_advances (ps : Config.Params) (w : ByteString) : ∀ (ts : Shapes) {p p' : Nat} {vs : Values},
    decFields ps ts w p = .ok (vs, p') → Advances w p p'
  | .nil, p, p', vs, h => by
    unfold decFields at h
    cases h
    exact .refl w p
  | .cons t ts, p, p', vs, h => by
    unfold decFields at h
    obtain ⟨⟨v, q⟩, ht, h⟩ := bind_eq_ok h
    obtain ⟨⟨vs', r⟩, hts, h⟩ := bind_eq_ok h
    cases h
    exact (dec_advances ps w t ht).trans (decFields_advances ps w ts hts)

theorem decVariant_advances (ps : Config.Params) (w : ByteString) : ∀ (vs : Variants) {d p p' : Nat} {fs : Values},
    decVariant ps vs d w p = .ok (fs, p') → Advances w p p'
  | .nil, d, p, p', fs, h => by
    unfold decVariant at h
    cases h
  | .cons ts _, 0, p, p', fs, h => by
    unfold decVariant at h
    exact decFields_advances ps w ts h
  | .cons _ vs, d + 1, p, p', fs, h => by
    unfold decVariant at h
    exact decVariant_advances ps w vs h

end

/-! ## The whole state -/

/-- The parameters stay and each unit keeps its clause and the form of its buffer. -/
theorem State.Inv.of_units {s t : State} (h : s.Inv) (hp : t.params = s.params)
    (htx : t.tx.buf.length = t.tx.cap.toNat ∧ t.tx.Inv s.params) (hdec : t.dec.Inv s.params)
    (hacc : t.acc.buf.length = s.acc.buf.length ∧ t.acc.Inv s.params) : t.Inv where
  params := by rw [hp]; exact h.params
  memory := ⟨htx.1, by rw [hacc.1, hp]; exact h.memory.2⟩
  tx := by rw [hp]; exact htx.2
  dec := by rw [hp]; exact hdec
  acc := by rw [hp]; exact hacc.2

/-- Only the builder is written. -/
theorem State.Inv.withTx {s t : State} (h : s.Inv) (hs : t.tx.Sound) (htx : t.tx.Inv s.params)
    (hp : t.params = s.params) (hd : t.dec = s.dec) (ha : t.acc = s.acc) : t.Inv :=
  h.of_units hp ⟨hs.length, htx⟩ (hd ▸ h.dec) (by rw [ha]; exact ⟨rfl, h.acc⟩)

/-- Only the decode unit and the accumulator are written. -/
theorem State.Inv.withAcc {s t : State} (h : s.Inv) (hdec : t.dec.Inv s.params)
    (hacc : t.acc.buf.length = s.acc.buf.length ∧ t.acc.Inv s.params) (hp : t.params = s.params)
    (htx : t.tx = s.tx) : t.Inv :=
  h.of_units hp (by rw [htx]; exact ⟨h.memory.1, h.tx⟩) hdec hacc

/-- Only the decode unit is written. -/
theorem State.Inv.withDec {s t : State} (h : s.Inv) (hdec : t.dec.Inv s.params) (hp : t.params = s.params)
    (htx : t.tx = s.tx) (ha : t.acc = s.acc) : t.Inv :=
  h.withAcc hdec (by rw [ha]; exact ⟨rfl, h.acc⟩) hp htx

/-- No field of the invariant is written. -/
theorem State.Inv.same {s t : State} (h : s.Inv) (hp : t.params = s.params) (htx : t.tx = s.tx) (hd : t.dec = s.dec)
    (ha : t.acc = s.acc) : t.Inv :=
  h.withDec (hd ▸ h.dec) hp htx ha

theorem State.Inv.refuse {s : State} (h : s.Inv) (r : RefuseReason) : (s.refuse r).Inv := h.same rfl rfl rfl rfl

theorem State.Inv.fetched {s : State} (h : s.Inv) (q : List Input) (tail : ByteString) : (s.fetched q tail).Inv :=
  h.same rfl rfl rfl rfl

/-- A window with its instruction, within the bound of its source (10_state.md R29, log entry 11). -/
theorem DecUnit.Inv.loaded {p : Config.Params} {i : WireInstr} {w : ByteString} {src : DecSrc}
    (hparser : src = .parser → (instrEncode i).length + w.length ≤ 255)
    (hacc : src = .acc → (instrEncode i).length + w.length ≤ p.accCap) :
    DecUnit.Inv p { state := .ready, src := src, win := w, pos := 0, instr := some i } where
  pos := Nat.zero_le _
  instr := by simp
  parserWin := by simpa using hparser
  accWin := by simpa using hacc

/-- The engine just created meets the invariants whenever the parameters are legal. -/
theorem State.created_inv {p : Config.Params} (hp : p.Legal) : (State.created p).Inv where
  params := hp
  memory := created_memory_wf p
  tx := .of_idle (Nat.le_refl _) rfl
  dec := .noInstr (Nat.le_refl _) rfl
  acc := rfl

/-- The parameters the engine is created with are legal, whatever the free one is (00_scope.md R9). -/
theorem Config.params_legal : Config.params.Legal := by
  have := Config.accCapBelowMax.isLt
  show 5 ≤ 255 - Config.accCapBelowMax.val ∧ 255 - Config.accCapBelowMax.val ≤ 255
  omega

/-- Settles O58, over any legal parameters. -/
theorem resetMeetsTheInvariant : Obligations.ResetMeetsTheInvariant := State.created_inv Config.params_legal

end Sys2Proof.Machine
end

section
/-! SUPPORT. Every instruction and every step keeps the invariants of 10_state.md R41, from the cases of each command. -/

namespace Sys2Proof.Machine

theorem State.Inv.receive {s : State} (h : s.Inv) {i : WireInstr}
    (hw : (instrEncode i).length + s.rxTail.length ≤ 255) : (s.receive i).Inv :=
  h.withDec (.loaded (fun _ => hw) nofun) rfl rfl rfl

theorem execTxOpen_inv {cap : Byte} {i : WireInstr} {s t : State} (h : s.Inv) (hx : execTxOpen cap i s = .next t) :
    t.Inv := by
  have hs := TxUnit.fresh_sound s.draws cap
  obtain ⟨hfit, hfail⟩ := hs.writeFront_eq rfl s.params (s.draws + 1) i
  rcases execTxOpen_cases hx with ⟨-, rfl⟩ | ⟨-, -, rfl⟩ | ⟨-, -, hw⟩
  · exact h.refuse _
  · exact h.refuse _
  · by_cases hr : 3 + (instrEncode i).length ≤ cap.toNat
    · have hfront : (TxUnit.fresh s.draws cap).cur + (be 2 s.params.header.toNat ++ 0x00 :: instrEncode i).length ≤
          (TxUnit.fresh s.draws cap).cap.toNat := by
        simp [TxUnit.fresh]; omega
      have hws := hs.wrote hfront
      rcases hw with ⟨u, hu, rfl⟩ | ⟨u, e, hu, rfl⟩ <;> rw [hfit hr] at hu <;> cases hu
      refine h.withTx ⟨hws.length, hws.cursor⟩ ⟨hws.cursor, fun _ => ?_, fun _ => ?_⟩ rfl rfl rfl
      · simp; omega
      · exact TxUnit.fresh_front_take s.draws cap s.params.header _
    · obtain ⟨u', hu', hform, hcur⟩ := hfail (Nat.lt_of_not_le hr)
      rcases hw with ⟨u, hu, rfl⟩ | ⟨u, e, hu, rfl⟩ <;> rw [hu'] at hu <;> cases hu
      have hcur' : u'.cur ≤ u'.cap.toNat := by rw [hform.cap]; exact hcur
      have hlen : u'.buf.length = u'.cap.toNat := by rw [hform.length, hform.cap, hs.length]
      exact h.withTx ⟨hlen, hcur'⟩ (.of_idle hcur' rfl) rfl rfl rfl

theorem execTxPush_inv {v : Value} {s t : State} (h : s.Inv) (hx : execTxPush v s = .next t) : t.Inv := by
  have hs := h.sound
  rcases execTxPush_cases hx with ⟨-, rfl⟩ | ⟨ho, hw⟩
  · exact h.refuse _
  · have hspec := enc_spec s.params s.draws v s.tx hs
    split at hspec
    · obtain ⟨he, hlen, -, hroom, -⟩ := hspec
      rcases hw with ⟨u, hu, rfl⟩ | ⟨u, e, hu, rfl⟩ <;> rw [he] at hu <;> cases hu
      have hr : s.tx.cur + (image v).length ≤ s.tx.cap.toNat := by rw [hlen]; exact hroom
      exact h.withTx (hs.wrote hr) (h.tx.wrote hs hr) rfl rfl rfl
    · rename_i e' _
      obtain ⟨⟨u', he, hleft⟩, -⟩ := hspec
      rcases hw with ⟨u, hu, rfl⟩ | ⟨u, e, hu, rfl⟩ <;> rw [he] at hu <;> cases hu
      obtain ⟨hc, h3, -⟩ := h.tx
      obtain ⟨hps, hpi⟩ := TxUnit.poison_keeps (p := s.params) hleft.sound (s.draws + 1) e'
        (h3 (by simp [ho])) (by rw [hleft.cap]; exact hc)
      exact h.withTx hps hpi rfl rfl rfl

theorem execTxFinal_inv {crc : Bool} {s t : State} (h : s.Inv) (hx : execTxFinal crc s = .next t) : t.Inv := by
  have hs := h.sound
  rcases execTxFinal_cases hx with ⟨-, rfl⟩ | ⟨-, hw⟩
  · exact h.refuse _
  · have hu := hs.writeTrailer_unit s.draws crc
    rcases hw with ⟨u, hw, rfl⟩ | ⟨u, e, hw, rfl⟩ <;> rw [hw] at hu
    · exact h.withTx ⟨(bufWrite_length _ _ _).trans hu.length, hu.cursor⟩ (.of_idle hu.cursor rfl) rfl rfl rfl
    · exact h.withTx ⟨hu.length, hu.cursor⟩ (.of_idle hu.cursor rfl) rfl rfl rfl

theorem execRxParse_inv {crc : Bool} {input : ByteString} {s t : State} (h : s.Inv)
    (hx : execRxParse crc input s = .next t ∨ execRxParseRem crc input s = .next t) : t.Inv := by
  obtain ⟨ht, -⟩ := execRxParse_next hx
  rw [ht]
  cases hp : parseFrame s.params crc input with
  | ok i w k => exact h.withDec (.loaded (fun _ => parseFrame_window hp) nofun) rfl rfl rfl
  | err e k => exact h.withDec (.noInstr (Nat.le_refl _) rfl) rfl rfl rfl

theorem execDecTake_inv {sh : Shape} {s t : State} (h : s.Inv) (hx : execDecTake sh s = .next t) : t.Inv := by
  obtain ⟨hpos, hinstr, hparser, hacc⟩ := h.dec
  rcases execDecTake_cases hx with ⟨-, rfl⟩ | ⟨-, ⟨v, p, hd, rfl⟩ | ⟨e, -, rfl⟩⟩
  · exact h.refuse _
  · exact h.withDec ⟨(dec_advances _ _ sh hd).inWindow hpos, hinstr, hparser, hacc⟩ rfl rfl rfl
  · exact h.withDec ⟨hpos, nofun, hparser, hacc⟩ rfl rfl rfl

theorem execAccInit_inv {crc : Bool} {s t : State} (h : s.Inv) (hx : execAccInit crc s = .next t) : t.Inv := by
  cases hx
  exact h.withAcc (State.invalidateAccWindow_inv h.dec) ⟨rfl, rfl⟩ (by simp) (by simp)

theorem execAccReset_inv {s t : State} (h : s.Inv) (hx : execAccReset s = .next t) : t.Inv := by
  rcases execAccReset_cases hx with ⟨-, rfl⟩ | ⟨-, rfl⟩
  · exact h.refuse _
  · exact h.withAcc (State.invalidateAccWindow_inv h.dec) ⟨rfl, rfl⟩ (by simp) (by simp)

theorem execAccFeed_inv {input : ByteString} {s t : State} (h : s.Inv) (hx : execAccFeed input s = .next t) :
    t.Inv := by
  have hinv := AccUnit.feed_inv 0 input h.acc
  obtain ⟨hsetup, -⟩ := AccUnit.feed_spec s.params 0 input s.acc
  rcases execAccFeed_cases hx with ⟨-, rfl⟩ | ⟨-, a, hf⟩
  · exact h.refuse _
  · have hacc : a.buf.length = s.acc.buf.length ∧ a.Inv s.params := by
      rcases hf with ⟨hf, -⟩ | ⟨e, k, hf, -⟩ | ⟨i, w, k, hf, -⟩ <;> rw [hf] at hinv hsetup <;>
        exact ⟨hsetup.length, hinv⟩
    rcases hf with ⟨-, rfl⟩ | ⟨e, k, -, rfl⟩ | ⟨i, w, k, hf, rfl⟩
    · exact h.withAcc (State.invalidateAccWindow_inv h.dec) hacc (by simp) (by simp)
    · exact h.withAcc (State.invalidateAccWindow_inv h.dec) hacc (by simp) (by simp)
    · exact h.withAcc (.loaded nofun fun _ => AccUnit.feed_window h.acc hf) hacc (by simp) (by simp)

/-- Every instruction keeps the invariants, a wire row when its instruction and the data behind it are a frame's. -/
theorem exec_inv {i : Instr} {s t : State} (h : s.Inv)
    (htail : ∀ w : WireInstr, i = w.toInstr → (instrEncode w).length + s.rxTail.length ≤ 255)
    (hx : exec i s = .next t) : t.Inv := by
  have hwire : ∀ w : WireInstr, i = w.toInstr → t.Inv := fun w hi => by
    subst hi
    rw [exec_toInstr] at hx
    cases hx
    exact h.receive (htail w rfl)
  cases i with
  | registerWrite page addr => exact hwire (.registerWrite page addr) rfl
  | registerRead page addr len => exact hwire (.registerRead page addr len) rfl
  | wordWrite addr => exact hwire (.wordWrite addr) rfl
  | wordRead addr len => exact hwire (.wordRead addr len) rfl
  | curveWrite ch => exact hwire (.curveWrite ch) rfl
  | dwordWrite addr => exact hwire (.dwordWrite addr) rfl
  | dwordRead addr len => exact hwire (.dwordRead addr len) rfl
  | crcInit | crcFeed | crcRead =>
    cases hx
    exact h.same rfl rfl rfl rfl
  | txOpen cap w => exact execTxOpen_inv h hx
  | txPush v => exact execTxPush_inv h hx
  | txFinal crc => exact execTxFinal_inv h hx
  | txAbort =>
    cases hx
    exact h.withTx ⟨h.sound.length, h.sound.cursor⟩ (.of_idle h.sound.cursor rfl) rfl rfl rfl
  | rxParse crc input => exact execRxParse_inv h (.inl hx)
  | rxParseRem crc input => exact execRxParse_inv h (.inr hx)
  | decLoad window =>
    cases hx
    exact h.withDec (.noInstr (Nat.zero_le _) rfl) rfl rfl rfl
  | decTake sh => exact execDecTake_inv h hx
  | accInit crc => exact execAccInit_inv h hx
  | accReset => exact execAccReset_inv h hx
  | accFeed input => exact execAccFeed_inv h hx

/-- A wire instruction and the data bytes behind it come from frame data of at most `maxData` bytes (log entry 1). -/
theorem fetch_wire_window {inp : Input} {i : WireInstr} {tail : ByteString} (h : fetch inp = .run i.toInstr tail) :
    (instrEncode i).length + tail.length ≤ 255 := by
  cases inp with
  | command bytes =>
    have htail : tail = [] := by
      simp only [fetch] at h
      split at h <;> cases h
      rfl
    have := (instrEncode_length i).2
    simp [htail]
    omega
  | frameData data =>
    simp only [fetch] at h
    split at h
    · rename_i j w hd
      simp only [Fetched.run.injEq] at h
      obtain ⟨hij, rfl⟩ := h
      obtain rfl := WireInstr.toInstr_injective hij
      rw [← List.length_append, ← bodyDecode_ok hd]
      exact List.length_take_le _ _
    · cases h
  | reset => cases h

/-- Settles O59: waiting keeps the state; an instruction keeps the invariants by `exec_inv`; an illegal command, rejected
frame data and a reset write no more than the decode unit or create the engine anew. -/
theorem stepKeepsTheInvariant : Obligations.StepKeepsTheInvariant := by
  intro s t h hstep
  rcases step_cases hstep with ⟨-, rfl⟩ | ⟨inp, q, -, ⟨i, tail, hf, hx⟩ | rfl | ⟨e, rfl⟩ | rfl⟩
  · exact h
  · exact exec_inv (h.fetched q tail) (fun w hw => fetch_wire_window (hw ▸ hf)) hx
  · exact (h.fetched q []).refuse _
  · exact h.withDec (.noInstr (Nat.le_refl _) rfl) rfl rfl rfl
  · exact (State.created_inv h.params).same rfl rfl rfl rfl

end Sys2Proof.Machine
end

section
/-! SUPPORT. What one step runs (20_memory.md R63), that a parse repeated changes nothing (R61), and which unit each
command writes (R67). -/

namespace Sys2Proof.Machine

/-! ## One step -/

/-- A step with an instruction next runs it. -/
theorem step_run {s : State} {inp : Input} {q : List Input} {i : Instr} {tail : ByteString}
    (hq : s.pending = inp :: q) (hf : fetch inp = .run i tail) : step s = exec i (s.fetched q tail) := by
  simp only [step, hq, hf]

theorem fetch_command {bytes : ByteString} {i : Instr} (h : decodeTransaction bytes = .ok i) :
    fetch (.command bytes) = .run i [] := by
  simp only [fetch, h]

/-- An instruction always fits the 255 bytes taken, so the cut falls in the bytes behind it. -/
theorem fetch_frameData_encode (i : WireInstr) (w : ByteString) :
    fetch (.frameData (instrEncode i ++ w)) = .run i.toInstr (w.take (255 - (instrEncode i).length)) := by
  have hcut : (instrEncode i ++ w).take maxData = instrEncode i ++ w.take (255 - (instrEncode i).length) := by
    have hlen : (instrEncode i).length ≤ maxData := (instrEncode_length i).2.trans (by decide)
    rw [List.take_append, List.take_of_length_le hlen]
    rfl
  simp only [fetch, hcut, bodyDecode_encode]

/-- Settles O16, from what each port fetches. -/
theorem stepRunsTheDecodedInstruction : Obligations.StepRunsTheDecodedInstruction := by
  refine fun s q => ⟨fun bytes i hq hd => step_run hq (fetch_command hd),
    fun i w hq => step_run hq (fetch_frameData_encode i w), fun hq => ?_⟩
  simp only [step, hq]

/-! ## The parse commands -/

/-- What a parse command reports: with the offset (RX_PARSE_REM, 45_frame_parser.md R240), or without it (RX_PARSE,
R238). -/
def Parse.reply (rem : Bool) : Parse → Reply
  | .ok i _ k => .ok (.instr i) (if rem then .optional (some k) else .none)
  | .err e k => .err e (if rem then .optional k else .none)

/-- The state a parse command leaves. -/
def State.parsed (r : Parse) (x : Reply) (s : State) : State := { s.afterParse r with reply := some x }

@[simp] theorem State.parsed_params (r : Parse) (x : Reply) (s : State) : (s.parsed r x).params = s.params :=
  s.afterParse_params r

/-- A parse writes the frame handle and the outcome without regard to what stood in them. -/
@[simp] theorem State.parsed_parsed (r : Parse) (x : Reply) (s : State) :
    (s.parsed r x).parsed r x = s.parsed r x := by
  cases r <;> rfl

theorem execRxParse_eq (crc : Bool) (input : ByteString) (s : State) :
    execRxParse crc input s =
      .next (s.parsed (parseFrame s.params crc input) ((parseFrame s.params crc input).reply false)) := by
  unfold execRxParse
  cases parseFrame s.params crc input <;> rfl

theorem execRxParseRem_eq (crc : Bool) (input : ByteString) (s : State) :
    execRxParseRem crc input s =
      .next (s.parsed (parseFrame s.params crc input) ((parseFrame s.params crc input).reply true)) := by
  unfold execRxParseRem
  cases parseFrame s.params crc input <;> rfl

/-- Settles O41: the parameters stay, so the parse gives the same again, and writing it twice is writing it once. -/
theorem repeatedParseGivesTheSameState : Obligations.RepeatedParseGivesTheSameState := by
  refine fun s t crc input => ⟨fun h => ?_, fun h => ?_⟩
  · cases (execRxParse_eq crc input s).symm.trans h
    exact (execRxParse_eq crc input _).trans (by simp)
  · cases (execRxParseRem_eq crc input s).symm.trans h
    exact (execRxParseRem_eq crc input _).trans (by simp)

/-! ## Which unit a command writes -/

/-- What a command with the opcode `op` may write, from `s` to `t`: the builder, the accumulator and the frame handle
each by the commands named (20_memory.md R67, 45_frame_parser.md R237), and nothing of what the host has issued. -/
structure UnitFrame (op : Byte) (s t : State) : Prop where
  tx : op ∉ [0x10, 0x11, 0x12, 0x13] → t.tx = s.tx
  acc : op ∉ [0x40, 0x41, 0x42] → t.acc = s.acc
  dec : op ∈ [0x01, 0x02, 0x03, 0x10, 0x11, 0x12, 0x13] → t.dec = s.dec
  pending : t.pending = s.pending
  rxTail : t.rxTail = s.rxTail

section
variable {op : Byte} {s t : State} (hp : t.pending = s.pending) (hr : t.rxTail = s.rxTail)
include hp hr

/-- A TX command that writes the builder alone. -/
theorem UnitFrame.ofTx (hop : op ∈ [0x10, 0x11, 0x12, 0x13]) (ha : t.acc = s.acc) (hd : t.dec = s.dec) :
    UnitFrame op s t :=
  ⟨fun hn => absurd hop hn, fun _ => ha, fun _ => hd, hp, hr⟩

/-- An accumulator command that leaves the builder alone. -/
theorem UnitFrame.ofAcc (hop : op ∈ [0x40, 0x41, 0x42]) (ht : t.tx = s.tx) : UnitFrame op s t :=
  ⟨fun _ => ht, fun hn => absurd hop hn, fun hd => by fin_cases hop <;> simp at hd, hp, hr⟩

/-- A command outside the CRC and TX units that leaves the builder and the accumulator alone. -/
theorem UnitFrame.ofDec (hop : op ∉ [0x01, 0x02, 0x03, 0x10, 0x11, 0x12, 0x13]) (ht : t.tx = s.tx)
    (ha : t.acc = s.acc) : UnitFrame op s t :=
  ⟨fun _ => ht, fun _ => ha, fun hd => absurd hd hop, hp, hr⟩

end

/-- Every command keeps to its frame, from the cases of each. -/
theorem exec_unitFrame {i : Instr} {s t : State} (h : exec i s = .next t) : UnitFrame i.opcode s t := by
  cases i with
  | crcInit | crcFeed | crcRead =>
    cases h
    exact ⟨fun _ => rfl, fun _ => rfl, fun _ => rfl, rfl, rfl⟩
  | registerWrite | registerRead | wordWrite | wordRead | curveWrite | dwordWrite | dwordRead | decLoad =>
    cases h
    exact .ofDec rfl rfl (by simp [Instr.opcode]) rfl rfl
  | txOpen cap w =>
    rcases execTxOpen_cases h with ⟨-, rfl⟩ | ⟨-, -, rfl⟩ | ⟨-, -, ⟨u, -, rfl⟩ | ⟨u, e, -, rfl⟩⟩ <;>
      exact .ofTx rfl rfl (by simp [Instr.opcode]) rfl rfl
  | txPush v =>
    rcases execTxPush_cases h with ⟨-, rfl⟩ | ⟨-, ⟨u, -, rfl⟩ | ⟨u, e, -, rfl⟩⟩ <;>
      exact .ofTx rfl rfl (by simp [Instr.opcode]) rfl rfl
  | txFinal crc =>
    rcases execTxFinal_cases h with ⟨-, rfl⟩ | ⟨-, ⟨u, -, rfl⟩ | ⟨u, e, -, rfl⟩⟩ <;>
      exact .ofTx rfl rfl (by simp [Instr.opcode]) rfl rfl
  | txAbort =>
    cases h
    exact .ofTx rfl rfl (by simp [Instr.opcode]) rfl rfl
  | rxParse crc input =>
    rw [(execRxParse_next (.inl h)).1]
    exact .ofDec (by simp) (by simp) (by simp [Instr.opcode]) (by simp) (by simp)
  | rxParseRem crc input =>
    rw [(execRxParse_next (.inr h)).1]
    exact .ofDec (by simp) (by simp) (by simp [Instr.opcode]) (by simp) (by simp)
  | decTake sh =>
    rcases execDecTake_cases h with ⟨-, rfl⟩ | ⟨-, ⟨v, p, -, rfl⟩ | ⟨e, -, rfl⟩⟩ <;>
      exact .ofDec rfl rfl (by simp [Instr.opcode]) rfl rfl
  | accInit crc =>
    cases h
    exact .ofAcc (by simp) (by simp) (by simp [Instr.opcode]) (by simp)
  | accReset =>
    rcases execAccReset_cases h with ⟨-, rfl⟩ | ⟨-, rfl⟩ <;>
      exact .ofAcc (by simp) (by simp) (by simp [Instr.opcode]) (by simp)
  | accFeed input =>
    rcases execAccFeed_cases h with ⟨-, rfl⟩ | ⟨-, a, ⟨-, rfl⟩ | ⟨e, k, -, rfl⟩ | ⟨i, w, k, -, rfl⟩⟩ <;>
      exact .ofAcc (by simp) (by simp) (by simp [Instr.opcode]) (by simp)

/-- Settles O57, by the frame of every command. -/
theorem unitsAreWrittenByTheirOwnCommands : Obligations.UnitsAreWrittenByTheirOwnCommands := by
  intro i s t h
  obtain ⟨htx, hacc, hdec, hpend, htail⟩ := exec_unitFrame h
  exact ⟨htx, hacc, hdec, hpend, htail⟩

end Sys2Proof.Machine
end

section
/-! SUPPORT. The operands and the two layers of 30_encoding.md R85 to R89: each operand parser against its encoder, both
ways, and the instruction decoder against the instruction encoder. -/

namespace Sys2Proof

/-! ## Operands (R86) -/

theorem parseFlag_encode (b : Bool) (rest : ByteString) : parseFlag (encodeFlag b :: rest) = .ok (b, rest) := by
  cases b <;> rfl

theorem parseBstr_encode {data : ByteString} (h : ByteString.fits data = true) (rest : ByteString) :
    parseBstr (encodeBstr data ++ rest) = .ok (data, rest) := by
  have hlen : data.length ≤ 65535 := by simpa [ByteString.fits] using h
  obtain ⟨hi, lo, hbe⟩ := List.length_eq_two.1 (be_length 2 data.length)
  have hfrom : fromBe [hi, lo] = data.length := by
    rw [← hbe, fromBe_be]
    exact Nat.mod_eq_of_lt (by omega)
  rw [encodeBstr, hbe]
  exact parseExact_append data rest hfrom.symm

theorem parseInstr_encode (i : WireInstr) (rest : ByteString) : parseInstr (instrEncode i ++ rest) = .ok (i, rest) := by
  have h := instrDecode_encode i rest
  simp only [instrEncode, List.cons_append] at h ⊢
  simp only [parseInstr, h, List.length_cons, List.drop_succ_cons, List.drop_left]

theorem parseInstr_ok {bs r : ByteString} {i : WireInstr} (h : parseInstr bs = .ok (i, r)) :
    bs = instrEncode i ++ r := by
  cases bs with
  | nil => simp [parseInstr] at h
  | cons op bs =>
    simp only [parseInstr] at h
    split at h <;> cases h
    next heq => exact (instrDecode_ok heq).2

theorem parseValueOperand_encode {v : Value} (h : v.wf = true) (rest : ByteString) :
    parseValueOperand (encodeValue v ++ rest) = .ok (v, rest) := by
  have := Value.fuel_le v
  exact parseValue_encode v _ rest h (by simp only [List.length_append]; omega)

theorem parseShapeOperand_encode {t : Shape} (h : t.wf = true) (rest : ByteString) :
    parseShapeOperand (encodeShape t ++ rest) = .ok (t, rest) := by
  have := Shape.fuel_le t
  exact parseShape_encode t _ rest h (by simp only [List.length_append]; omega)

/-! ## Host commands (R87) -/

/-- A host command's encoding decodes to it; the wire rows are the instructions whose first byte is a wire opcode. -/
theorem decodeCommand_encode {i : Instr} (hcmd : fieldLen i.opcode = none) (hwf : i.wf = true) (rest : ByteString) :
    decodeCommand (encode i ++ rest) = .ok (i, rest) := by
  cases i with
  | registerWrite | registerRead | wordWrite | wordRead | curveWrite | dwordWrite | dwordRead =>
    simp [Instr.opcode, fieldLen] at hcmd
  | crcInit | crcRead | txAbort | accReset => rfl
  | crcFeed | decLoad | accFeed =>
    simp [encode, decodeCommand, parseBstr_encode hwf, bind, Except.bind, pure, Except.pure]
  | txOpen =>
    simp [encode, decodeCommand, parseB8, parseInstr_encode, bind, Except.bind, pure, Except.pure]
  | txPush => simp [encode, decodeCommand, parseValueOperand_encode hwf, bind, Except.bind, pure, Except.pure]
  | decTake => simp [encode, decodeCommand, parseShapeOperand_encode hwf, bind, Except.bind, pure, Except.pure]
  | txFinal | accInit => simp [encode, decodeCommand, parseFlag_encode, bind, Except.bind, pure, Except.pure]
  | rxParse | rxParseRem =>
    simp [encode, decodeCommand, parseFlag_encode, parseBstr_encode hwf, bind, Except.bind, pure, Except.pure]

/-- The last operand of a command that has decoded: it was read to where the command ends. -/
theorem lastOperand_ok {α : Type} {x : Except Illegal (α × ByteString)} {mk : α → Instr} {i : Instr} {r : ByteString}
    (h : (x >>= fun p => pure (mk p.1, p.2)) = .ok (i, r)) : ∃ a, x = .ok (a, r) ∧ i = mk a := by
  obtain ⟨⟨a, r'⟩, hx, hi⟩ := bind_eq_ok h
  cases hi
  exact ⟨a, hx, rfl⟩

/-- The fourteen command codes of R87. -/
abbrev commandCodes : List Byte :=
  [0x01, 0x02, 0x03, 0x10, 0x11, 0x12, 0x13, 0x20, 0x21, 0x30, 0x31, 0x40, 0x41, 0x42]

theorem decodeCommand_unlisted {c : Byte} (hc : c ∉ commandCodes) (bs : ByteString) :
    decodeCommand (c :: bs) = .error .commandByte := by
  simp only [decodeCommand]
  split
  case h_15 => rfl
  all_goals
    next hcode => exact absurd (by simp [BitVec.toNat_eq, hcode]) hc

/-- What the command decoder accepts is the encoding of the well-formed command it gives. -/
theorem decodeCommand_ok {bs r : ByteString} {i : Instr} (h : decodeCommand bs = .ok (i, r)) :
    i.wf = true ∧ bs = encode i ++ r := by
  cases bs with
  | nil => simp [decodeCommand] at h
  | cons c bs =>
    by_cases hc : c ∈ commandCodes
    case neg => simp [decodeCommand_unlisted hc] at h
    simp only [List.mem_cons, List.not_mem_nil, or_false] at hc
    rcases hc with rfl | rfl | rfl | rfl | rfl | rfl | rfl | rfl | rfl | rfl | rfl | rfl | rfl | rfl
    · cases h
      exact ⟨rfl, rfl⟩
    · obtain ⟨data, hx, rfl⟩ := lastOperand_ok (x := parseBstr bs) (mk := .crcFeed) h
      obtain ⟨rfl, hfits⟩ := parseBstr_ok hx
      exact ⟨hfits, rfl⟩
    · cases h
      exact ⟨rfl, rfl⟩
    · obtain ⟨⟨cap, bs'⟩, hcap, h⟩ := bind_eq_ok h
      obtain ⟨i, hx, rfl⟩ := lastOperand_ok (x := parseInstr bs') (mk := .txOpen cap) h
      obtain rfl := parseB8_ok hcap
      obtain rfl := parseInstr_ok hx
      exact ⟨rfl, rfl⟩
    · obtain ⟨v, hx, rfl⟩ := lastOperand_ok (x := parseValueOperand bs) (mk := .txPush) h
      obtain ⟨hv, rfl⟩ := parseValue_ok _ _ _ _ hx
      exact ⟨hv, rfl⟩
    · obtain ⟨crc, hx, rfl⟩ := lastOperand_ok (x := parseFlag bs) (mk := .txFinal) h
      obtain rfl := parseFlag_ok hx
      exact ⟨rfl, rfl⟩
    · cases h
      exact ⟨rfl, rfl⟩
    · obtain ⟨⟨crc, bs'⟩, hcrc, h⟩ := bind_eq_ok h
      obtain ⟨input, hx, rfl⟩ := lastOperand_ok (x := parseBstr bs') (mk := .rxParse crc) h
      obtain rfl := parseFlag_ok hcrc
      obtain ⟨rfl, hfits⟩ := parseBstr_ok hx
      exact ⟨hfits, rfl⟩
    · obtain ⟨⟨crc, bs'⟩, hcrc, h⟩ := bind_eq_ok h
      obtain ⟨input, hx, rfl⟩ := lastOperand_ok (x := parseBstr bs') (mk := .rxParseRem crc) h
      obtain rfl := parseFlag_ok hcrc
      obtain ⟨rfl, hfits⟩ := parseBstr_ok hx
      exact ⟨hfits, rfl⟩
    · obtain ⟨window, hx, rfl⟩ := lastOperand_ok (x := parseBstr bs) (mk := .decLoad) h
      obtain ⟨rfl, hfits⟩ := parseBstr_ok hx
      exact ⟨hfits, rfl⟩
    · obtain ⟨t, hx, rfl⟩ := lastOperand_ok (x := parseShapeOperand bs) (mk := .decTake) h
      obtain ⟨ht, rfl⟩ := parseShape_ok _ _ _ _ hx
      exact ⟨ht, rfl⟩
    · obtain ⟨crc, hx, rfl⟩ := lastOperand_ok (x := parseFlag bs) (mk := .accInit) h
      obtain rfl := parseFlag_ok hx
      exact ⟨rfl, rfl⟩
    · cases h
      exact ⟨rfl, rfl⟩
    · obtain ⟨input, hx, rfl⟩ := lastOperand_ok (x := parseBstr bs) (mk := .accFeed) h
      obtain ⟨rfl, hfits⟩ := parseBstr_ok hx
      exact ⟨hfits, rfl⟩

/-! ## Both layers -/

theorem WireInstr.encode_toInstr (i : WireInstr) : encode i.toInstr = instrEncode i := by
  cases i <;> rfl

theorem WireInstr.wf_toInstr (i : WireInstr) : i.toInstr.wf = true := by
  cases i <;> rfl

/-- Every instruction is of one of the two layers, and its first byte tells which (R73, R87). -/
theorem Instr.wire_or_command (i : Instr) : (∃ w : WireInstr, i = w.toInstr) ∨ fieldLen i.opcode = none := by
  cases i with
  | registerWrite page addr => exact .inl ⟨.registerWrite page addr, rfl⟩
  | registerRead page addr len => exact .inl ⟨.registerRead page addr len, rfl⟩
  | wordWrite addr => exact .inl ⟨.wordWrite addr, rfl⟩
  | wordRead addr len => exact .inl ⟨.wordRead addr len, rfl⟩
  | curveWrite ch => exact .inl ⟨.curveWrite ch, rfl⟩
  | dwordWrite addr => exact .inl ⟨.dwordWrite addr, rfl⟩
  | dwordRead addr len => exact .inl ⟨.dwordRead addr len, rfl⟩
  | _ => exact .inr rfl

theorem encode_eq_opcode_cons (i : Instr) : ∃ operands, encode i = i.opcode :: operands := by
  cases i <;> exact ⟨_, rfl⟩

theorem decodeRow_wire {op : Byte} (hop : fieldLen op ≠ none) (bs : ByteString) :
    decodeRow (op :: bs) = (parseInstr (op :: bs)).map fun p => (p.1.toInstr, p.2) := by
  obtain ⟨n, hn⟩ := Option.ne_none_iff_exists'.1 hop
  simp only [decodeRow, hn]
  cases parseInstr (op :: bs) <;> rfl

theorem decodeRow_command {op : Byte} (hop : fieldLen op = none) (bs : ByteString) :
    decodeRow (op :: bs) = decodeCommand (op :: bs) := by
  simp only [decodeRow, hop]

theorem WireInstr.fieldLen_opcode (i : WireInstr) : fieldLen i.opcode ≠ none := by
  cases i <;> simp [WireInstr.opcode, fieldLen]

/-- Settles O11: the first byte tells the layer, and each layer's decoder undoes its encoder. -/
theorem decodeOfEncode : Obligations.DecodeOfEncode := by
  intro i rest hwf
  rcases i.wire_or_command with ⟨w, rfl⟩ | hcmd
  · have hparse : parseInstr (w.opcode :: (w.fields ++ rest)) = .ok (w, rest) := parseInstr_encode w rest
    rw [w.encode_toInstr, instrEncode, List.cons_append, decodeRow_wire w.fieldLen_opcode, hparse]
    rfl
  · have hdec := decodeCommand_encode hcmd hwf rest
    obtain ⟨operands, henc⟩ := encode_eq_opcode_cons i
    rw [henc, List.cons_append] at hdec ⊢
    rw [decodeRow_command hcmd, hdec]

/-- Settles O12: whichever layer accepts the bytes has read them as the encoding of what it gives. -/
theorem encodeOfDecode : Obligations.EncodeOfDecode := by
  intro bs i rest h
  cases bs with
  | nil => simp [decodeRow] at h
  | cons b bs =>
    by_cases hb : fieldLen b = none
    · exact decodeCommand_ok (decodeRow_command hb bs ▸ h)
    · rw [decodeRow_wire hb] at h
      cases hp : parseInstr (b :: bs) with
      | error e => simp [hp, Except.map] at h
      | ok p =>
        simp only [hp, Except.map, Except.ok.injEq, Prod.mk.injEq] at h
        obtain ⟨rfl, rfl⟩ := h
        exact ⟨p.1.wf_toInstr, p.1.encode_toInstr ▸ parseInstr_ok hp⟩

end Sys2Proof
end

section
/-! SUPPORT. What the decoders reject (30_encoding.md R90), what becomes of an illegal command (60_exceptions.md R282),
and the two small facts of R77 and R87. -/

namespace Sys2Proof

/-! ## Illegal bytes -/

theorem parseFlag_error {f : Byte} (hf : f ∉ [0x00, 0x01]) (bs : ByteString) :
    parseFlag (f :: bs) = .error .flagByte := by
  simp only [List.mem_cons, List.not_mem_nil, or_false, not_or] at hf
  obtain ⟨h0, h1⟩ := hf
  rw [parseFlag, if_neg h0, if_neg h1]

theorem parseBoolByte_error {f : Byte} (hf : f ∉ [0x00, 0x01]) (bs : ByteString) :
    parseBoolByte (f :: bs) = .error .boolByte := by
  simp only [List.mem_cons, List.not_mem_nil, or_false, not_or] at hf
  obtain ⟨h0, h1⟩ := hf
  rw [parseBoolByte, if_neg h0, if_neg h1]

theorem tagOf_unlisted {g : Byte}
    (hg : g ∉ [0x01, 0x02, 0x03, 0x04, 0x05, 0x11, 0x12, 0x13, 0x14, 0x15, 0x23, 0x24, 0x30, 0x40, 0x50,
      0xF0, 0xF1, 0xF2, 0xF3, 0xF4]) : tagOf g = none := by
  cases ht : tagOf g with
  | none => rfl
  | some t =>
    have hbyte := tagOf_ok ht
    cases t with
    | num k => cases k <;> simp [hbyte, NumKind.tag] at hg
    | bool | agg | enum => simp [hbyte] at hg
    | unsup k => cases k <;> simp [hbyte, UnsupKind.tag] at hg

theorem tagOf_ne_agg {g : Byte} (hg : g ≠ 0x40) : tagOf g ≠ some .agg := fun h => hg (tagOf_ok h)

theorem fieldLen_unlisted {op : Byte} (hop : op ∉ [0x80, 0x81, 0x82, 0x83, 0x84, 0x86, 0x87]) : fieldLen op = none := by
  cases hf : fieldLen op with
  | none => rfl
  | some n =>
    rcases fieldLen_eq_some hf with ⟨rfl, -⟩ | ⟨rfl, -⟩ | ⟨rfl, -⟩ | ⟨rfl, -⟩ | ⟨rfl, -⟩ | ⟨rfl, -⟩ | ⟨rfl, -⟩ <;>
      simp at hop

theorem parseInstr_error {op : Byte} (hop : fieldLen op = none) (bs : ByteString) :
    parseInstr (op :: bs) = .error .opcode := by
  simp [parseInstr, instrDecode, hop]

theorem fromBe_pair_ne_zero {hi lo : Byte} (h : ¬(hi = 0x00 ∧ lo = 0x00)) : fromBe [hi, lo] ≠ 0 := fun h0 =>
  h (by simpa using fromBe_inj (as := [hi, lo]) (bs := [0x00, 0x00]) rfl h0)

theorem parseValueOperand_boolByte {f : Byte} (hf : f ∉ [0x00, 0x01]) (bs : ByteString) :
    parseValueOperand (0x30 :: f :: bs) = .error .boolByte := by
  simp [parseValueOperand, parseValue, tagOf, parseBoolByte_error hf, bind, Except.bind]

theorem parseValueOperand_valueTag {g : Byte} (hg : tagOf g = none) (bs : ByteString) :
    parseValueOperand (g :: bs) = .error .valueTag := by
  simp [parseValueOperand, parseValue, hg]

theorem parseShapeOperand_shapeTag {g : Byte} (hg : tagOf g = none) (bs : ByteString) :
    parseShapeOperand (g :: bs) = .error .shapeTag := by
  simp [parseShapeOperand, parseShape, hg]

theorem parseShapeOperand_noVariant (bs : ByteString) :
    parseShapeOperand (0x50 :: 0x00 :: 0x00 :: bs) = .error .noVariant := by
  simp [parseShapeOperand, parseShape, tagOf, parseExact, takeExact, fromBe, bind, Except.bind]

/-- A descriptor that is not an Aggregate is rejected where a variant should stand. -/
theorem parseVariants_variantTag {n : Nat} (hn : n ≠ 0) {g : Byte} (hg : tagOf g ≠ some .agg) (f : Byte)
    (fuel bs : ByteString) : parseVariants (f :: fuel) n (g :: bs) = .error .variantTag := by
  obtain ⟨n, rfl⟩ := Nat.exists_eq_succ_of_ne_zero hn
  simp [parseVariants, hg]

theorem parseShapeOperand_variantTag {hi lo g : Byte} (hm : fromBe [hi, lo] ≠ 0) (hg : tagOf g ≠ some .agg)
    (bs : ByteString) : parseShapeOperand (0x50 :: hi :: lo :: g :: bs) = .error .variantTag := by
  simp [parseShapeOperand, parseShape, tagOf, parseExact, takeExact, hm, parseVariants_variantTag hm hg, bind,
    Except.bind]

/-! ## Illegal commands -/

theorem decodeTransaction_error {bs : ByteString} {e : Illegal} (h : decodeCommand bs = .error e) :
    decodeTransaction bs = .error e := by
  simp only [decodeTransaction, h]

theorem decodeTransaction_ok {bs : ByteString} {i : Instr} (h : decodeTransaction bs = .ok i) :
    decodeCommand bs = .ok (i, []) := by
  unfold decodeTransaction at h
  split at h <;> cases h
  assumption

theorem bind_eq_error {ε α β : Type} {x : Except ε α} {e : ε} (h : x = .error e) (f : α → Except ε β) :
    (x >>= f) = .error e := by
  rw [h]
  rfl

/-- No command is the front of a longer encoding: an encoding is read to its end, whatever follows it. -/
theorem decodeTransaction_take_encode {i : Instr} {n : Nat} (hwf : i.wf = true) (hn : n < (encode i).length) :
    ∃ e, decodeTransaction ((encode i).take n) = .error e := by
  cases hd : decodeTransaction ((encode i).take n) with
  | error e => exact ⟨e, rfl⟩
  | ok j =>
    obtain ⟨hj, hbs⟩ := decodeCommand_ok (decodeTransaction_ok hd)
    have hsplit : encode i = encode j ++ (encode i).drop n := by
      rw [List.append_nil] at hbs
      rw [← hbs, List.take_append_drop]
    have hi : decodeRow (encode i) = .ok (i, []) := by simpa using decodeOfEncode i [] hwf
    rw [hsplit, decodeOfEncode j _ hj] at hi
    have hrest : (encode i).drop n = [] := (Prod.mk.inj (Except.ok.inj hi)).2
    rw [List.drop_eq_nil_iff] at hrest
    omega

/-- Settles O14: each illegal byte is rejected by the parser that meets it, and a cut command because no command is the
front of a longer encoding. -/
theorem illegalEncodingsAreRejected : Obligations.IllegalEncodingsAreRejected := by
  refine ⟨fun c bs hc => ?_, fun f bs hf => ?_, fun g bs hg => ?_, fun bs => ?_, fun hi lo g bs hm hg => ?_,
    fun cap op bs hop => ?_, fun i n => decodeTransaction_take_encode⟩
  · exact decodeTransaction_error (decodeCommand_unlisted hc bs)
  · have hflag := parseFlag_error hf bs
    exact ⟨decodeTransaction_error (bind_eq_error hflag _), decodeTransaction_error (bind_eq_error hflag _),
      decodeTransaction_error (bind_eq_error hflag _), decodeTransaction_error (bind_eq_error hflag _),
      decodeTransaction_error (bind_eq_error (parseValueOperand_boolByte hf bs) _)⟩
  · have htag := tagOf_unlisted hg
    exact ⟨decodeTransaction_error (bind_eq_error (parseValueOperand_valueTag htag bs) _),
      decodeTransaction_error (bind_eq_error (parseShapeOperand_shapeTag htag bs) _)⟩
  · exact decodeTransaction_error (bind_eq_error (parseShapeOperand_noVariant bs) _)
  · have hvariant := parseShapeOperand_variantTag (fromBe_pair_ne_zero hm) (tagOf_ne_agg hg) bs
    exact decodeTransaction_error (bind_eq_error hvariant _)
  · have hinstr := parseInstr_error (fieldLen_unlisted hop) bs
    exact decodeTransaction_error (bind_eq_error hinstr _)

theorem decodeTransaction_encode {i : Instr} (hcmd : fieldLen i.opcode = none) (hwf : i.wf = true) :
    decodeTransaction (encode i) = .ok i := by
  have h : decodeCommand (encode i) = .ok (i, []) := by simpa using decodeCommand_encode hcmd hwf []
  simp only [decodeTransaction, h]

/-- Settles O13: each word is the encoding of the instruction it stands for. -/
theorem decodingOfWrittenOutWords : Obligations.DecodingOfWrittenOutWords :=
  ⟨decodeOfEncode (.registerRead 0x00 0x10 2) [] rfl,
    decodeOfEncode (.dwordRead 0x00001234 2) [] rfl,
    decodeTransaction_encode (i := .crcFeed [0x82, 0x4F]) rfl rfl,
    decodeTransaction_encode (i := .txOpen 16 (.wordWrite 0x00DE)) rfl rfl,
    decodeTransaction_encode (i := .txPush (.num ⟨.u16, 0x5A00⟩)) rfl rfl,
    decodeTransaction_encode (i := .rxParseRem true [0x5A]) rfl rfl,
    decodeTransaction_encode (i := .decTake (.agg (.cons (.num .u8) (.cons (.num .u8) .nil)))) rfl rfl,
    decodeTransaction_encode (i := .accInit true) rfl rfl⟩

end Sys2Proof

namespace Sys2Proof.Machine

/-- Settles O8: bit 0 of each of the seven opcodes. -/
theorem writeOpcodesAreTheEvenOnes : Obligations.WriteOpcodesAreTheEvenOnes := by
  intro i
  cases i <;> simp [isWrite, WireInstr.opcode]

theorem step_illegal {s : State} {bytes : ByteString} {q : List Input} {e : Illegal}
    (hq : s.pending = .command bytes :: q) (hd : decodeTransaction bytes = .error e) :
    step s = .next (s.afterIllegal q) := by
  simp only [step, hq, fetch, hd]

/-- Settles O15: the step takes the command from the queue and refuses it. -/
theorem illegalCommandIsRefused : Obligations.IllegalCommandIsRefused := fun s _bytes q _e hq hd =>
  ⟨s.afterIllegal q, step_illegal hq hd, ⟨rfl, rfl, rfl, rfl, rfl⟩, rfl, rfl, rfl, rfl⟩

end Sys2Proof.Machine
end

section
/-! SUPPORT. A builder on its way to a frame (44_frame_builder.md R211 to R213) and the pseudo-command BUILD
(30_encoding.md R93): what each command of BUILD adds to the bytes written. -/

namespace Sys2Proof.Machine

/-! ## An open builder and the bytes it holds -/

/-- An open builder that has written exactly `bs`. -/
structure TxUnit.Building (bs : ByteString) (t : TxUnit) : Prop where
  sound : t.Sound
  opened : t.state = .opened
  bytes : t.buf.take t.cur = bs

theorem TxUnit.Building.cur_eq {bs : ByteString} {t : TxUnit} (h : t.Building bs) : t.cur = bs.length := by
  have hl := h.sound.length
  have hc := h.sound.cursor
  rw [← h.bytes, List.length_take]
  omega

theorem TxUnit.Building.wrote {bs more : ByteString} {t : TxUnit} (h : t.Building bs)
    (hr : t.cur + more.length ≤ t.cap.toNat) : (t.wrote more).Building (bs ++ more) where
  sound := h.sound.wrote hr
  opened := h.opened
  bytes := by rw [TxUnit.wrote_cur, h.sound.written_wrote, h.bytes]

/-- The bytes the length and the trailer are taken over: those behind the header and the length byte. -/
theorem TxUnit.Building.drop_front {hdr body : ByteString} {t : TxUnit} (h : t.Building (hdr ++ 0x00 :: body))
    (hhdr : hdr.length = 2) : (t.buf.take t.cur).drop 3 = body := by
  rw [h.bytes, show 3 = hdr.length + 1 by omega, ← List.drop_drop, List.drop_left]
  rfl

/-- The finished frame: the length byte counts the bytes behind it (R213). -/
theorem TxUnit.Building.finished {hdr body : ByteString} {t : TxUnit} (h : t.Building (hdr ++ 0x00 :: body))
    (hhdr : hdr.length = 2) (trailer : ByteString) (hr : t.cur + trailer.length ≤ t.cap.toNat) :
    (t.wrote trailer).backPatch.written =
      hdr ++ BitVec.ofNat 8 (body.length + trailer.length) :: (body ++ trailer) := by
  have hcur : t.cur = body.length + 3 := by
    have := h.cur_eq
    simp only [List.length_append, List.length_cons, hhdr] at this
    omega
  have hfront : t.buf.take 2 = hdr := by
    have := congrArg (List.take 2) h.bytes
    rwa [List.take_take, Nat.min_eq_left (by omega), List.take_left' hhdr] at this
  rw [h.sound.written_backPatch (by omega) trailer hr, hfront, h.drop_front hhdr,
    show t.cur + trailer.length - 3 = body.length + trailer.length by omega]

theorem TxUnit.Sound.enc_done {t : TxUnit} (h : t.Sound) (p : Config.Params) (draw : Nat) {v : Value}
    (he : encodable v = true) (hr : t.cur + size v ≤ t.cap.toNat) : enc p draw v t = .done (t.wrote (image v)) := by
  have hspec := enc_spec p draw v t h
  split at hspec
  · exact hspec.1
  · exact absurd ⟨he, hr⟩ hspec.2

/-! ## The commands of BUILD -/

/-- `s` with the builder `t`, behind commands that drew `n` free values and the last of which answered `out`. -/
def State.withBuilder (t : TxUnit) (n : Nat) (out : Output) (s : State) : State :=
  { s with tx := t, draws := s.draws + n, reply := some (.ok out .none) }

theorem runWhileOk_cons {c : Instr} {s t : State} (hx : exec c s = .next t) (hok : t.succeeded = true)
    (cs : List Instr) : runWhileOk (c :: cs) s = runWhileOk cs t := by
  simp only [runWhileOk, hx, hok, if_true]

theorem front_length (hdr : Word) (i : WireInstr) :
    (be 2 hdr.toNat ++ 0x00 :: instrEncode i).length = 3 + (instrEncode i).length := by
  simp only [List.length_append, be_length, List.length_cons]
  omega

/-- TX_OPEN leaves a builder with the front of a frame (R211). -/
theorem exec_txOpen_building {s : State} {cap : Byte} {i : WireInstr} (hi : s.tx.state = .idle)
    (hc : s.params.minBuildCap ≤ cap.toNat) (hr : 3 + (instrEncode i).length ≤ cap.toNat) :
    ∃ t : TxUnit, t.Building (be 2 s.params.header.toNat ++ 0x00 :: instrEncode i) ∧ t.cap = cap ∧
      exec (.txOpen cap i) s = .next (s.withBuilder t 2 .unit) := by
  have hsound := TxUnit.fresh_sound s.draws cap
  have hwrite := (hsound.writeFront_eq rfl s.params (s.draws + 1) i).1 hr
  have hnew : ({ TxUnit.fresh s.draws cap with state := .opened } : TxUnit).Building [] :=
    ⟨⟨hsound.length, hsound.cursor⟩, rfl, rfl⟩
  have hroom : 0 + (be 2 s.params.header.toNat ++ 0x00 :: instrEncode i).length ≤ cap.toNat := by
    rw [front_length]
    omega
  exact ⟨_, hnew.wrote hroom, rfl, execTxOpen_done hi hc hwrite⟩

/-- The TX_PUSH commands of encodable values that fit write their images one behind the other (R212). -/
theorem runWhileOk_pushes {vs : List Value} {bs : ByteString} {t : TxUnit} (h : t.Building bs)
    (he : ∀ v ∈ vs, encodable v = true) (hr : t.cur + (vs.map size).sum ≤ t.cap.toNat) (n : Nat) (cs : List Instr)
    (s : State) :
    runWhileOk (vs.map Instr.txPush ++ cs) (s.withBuilder t n .unit) =
      runWhileOk cs (s.withBuilder (t.wrote (vs.flatMap image)) n .unit) := by
  induction vs generalizing bs t with
  | nil => simp
  | cons v vs ih =>
    simp only [List.mem_cons, forall_eq_or_imp] at he
    simp only [List.map_cons, List.sum_cons] at hr
    have hlen := image_length v he.1
    have hpush : exec (.txPush v) (s.withBuilder t n .unit) = .next (s.withBuilder (t.wrote (image v)) n .unit) :=
      execTxPush_done h.opened (h.sound.enc_done _ _ he.1 (by omega))
    have hrest := ih (h.wrote (more := image v) (by omega)) he.2
      (by simp only [TxUnit.wrote_cur, TxUnit.wrote_cap]; omega)
    rw [List.map_cons, List.cons_append, runWhileOk_cons hpush rfl, hrest, h.sound.wrote_wrote, List.flatMap_cons]

/-- TX_FINAL with room for the trailer gives the frame (R213). -/
theorem exec_txFinal_building {hdr body : ByteString} {t : TxUnit} {crc : Bool}
    (h : t.Building (hdr ++ 0x00 :: body)) (hhdr : hdr.length = 2)
    (hr : t.cur + (if crc then 2 else 0) ≤ t.cap.toNat) (n : Nat) (s : State) :
    ∃ t' : TxUnit, t'.state = .idle ∧ exec (.txFinal crc) (s.withBuilder t n .unit) = .next (s.withBuilder t' n (.bytes
      (hdr ++ BitVec.ofNat 8 (body.length + (if crc then 2 else 0)) ::
        (body ++ if crc then le2 (crc16 body) else [])))) := by
  have hlen : (if crc then le2 (crc16 body) else []).length = if crc then 2 else 0 := by cases crc <;> rfl
  have htrailer := h.sound.writeTrailer_eq (s.draws + n) crc
  rw [if_pos hr, h.drop_front hhdr] at htrailer
  have hframe := h.finished hhdr (if crc then le2 (crc16 body) else []) (by rwa [hlen])
  rw [hlen] at hframe
  exact ⟨_, rfl, hframe ▸ execTxFinal_done (s := s.withBuilder t n .unit) h.opened htrailer⟩

/-- BUILD whose commands all end with `ok` answers what its TX_FINAL answers (R93). -/
theorem build_of_completed {i : WireInstr} {cap : Byte} {crc : Bool} {vs : List Value} {s t : State}
    (h : runWhileOk (buildCommands i cap crc vs) s = (none, .next t)) :
    build i cap crc vs s = (t.reply, .next t) := by
  simp only [build, h]

theorem length_flatMap_image {vs : List Value} (he : ∀ v ∈ vs, encodable v = true) :
    (vs.flatMap image).length = (vs.map size).sum := by
  rw [List.length_flatMap]
  exact congrArg List.sum (List.map_congr_left fun v hv => image_length v (he v hv))

/-- Settles O27: TX_OPEN writes the front, the pushes the images, and TX_FINAL the length and the trailer; as everything
fits, none of them stops BUILD. -/
theorem buildGivesTheFrame : Obligations.BuildGivesTheFrame := by
  intro s i cap crc vs hidle hcap he hfit
  obtain ⟨t0, hfront, rfl, hopen⟩ := exec_txOpen_building hidle hcap (i := i) (by omega)
  have hcur := hfront.cur_eq.trans (front_length s.params.header i)
  have hlen := length_flatMap_image he
  have hbody := hfront.wrote (more := vs.flatMap image) (by omega)
  rw [List.append_assoc, List.cons_append] at hbody
  obtain ⟨t, ht, hfinal⟩ := exec_txFinal_building (crc := crc) hbody (be_length 2 _)
    (by simp only [TxUnit.wrote_cur, TxUnit.wrote_cap]; omega) 2 s
  rw [List.length_append, hlen] at hfinal
  have hrun :=
    calc runWhileOk (buildCommands i t0.cap crc vs) s
      _ = runWhileOk (vs.map Instr.txPush ++ [Instr.txFinal crc]) (s.withBuilder t0 2 .unit) :=
        runWhileOk_cons hopen rfl _
      _ = runWhileOk [.txFinal crc] (s.withBuilder (t0.wrote (vs.flatMap image)) 2 .unit) :=
        runWhileOk_pushes hfront he (by omega) 2 _ s
      _ = (none, .next _) := runWhileOk_cons hfinal rfl []
  exact ⟨_, build_of_completed hrun, ht, rfl, rfl, rfl, rfl, rfl⟩

end Sys2Proof.Machine
end

section
/-! SUPPORT. The checksum over whole byte strings (40_checksum.md R106 to R108): the CRC unit's commands in a row, the
residue of a byte string and its trailer, and what one changed byte does to a checksum and to a parse. -/

namespace Sys2Proof.Machine

/-! ## Byte strings -/

/-- The two bytes that take the register to zero are the register's own value, the low byte first (R107). -/
theorem crcSteps_pair_eq_zero_iff (c : Word) (lo hi : Byte) : crcSteps c [lo, hi] = 0x0000 ↔ c = fromLe2 lo hi := by
  have hlast : ∀ x : Word, crcStep x hi = 0x0000 ↔ x = hi.setWidth 16 := fun x => by
    simpa using crcStep_eq_byte_iff x hi 0x00
  calc crcSteps c [lo, hi] = 0x0000
    _ ↔ crcStep c lo = hi.setWidth 16 := hlast _
    _ ↔ c = fromLe2 lo hi := crcStep_eq_byte_iff c lo hi

/-- A byte string with two bytes behind it has residue zero exactly when they are its trailer (R107). -/
theorem crc16_append_pair_eq_zero_iff (d : ByteString) (lo hi : Byte) :
    crc16 (d ++ [lo, hi]) = 0x0000 ↔ crc16 d = fromLe2 lo hi := by
  rw [crc16_append, crcSteps_pair_eq_zero_iff]

/-- One changed byte changes the checksum: the step over it tells the two bytes apart, and the steps behind it tell the
two registers apart (R108). -/
theorem crc16_changed_byte_ne (pre post : ByteString) {x y : Byte} (hxy : x ≠ y) :
    crc16 (pre ++ x :: post) ≠ crc16 (pre ++ y :: post) := by
  intro h
  simp only [crc16_append, crcSteps_cons] at h
  exact hxy (crcStep_injective_right (crcSteps_injective post h))

theorem crc16_set_ne {bs : ByteString} {j : Nat} {b : Byte} (hj : j < bs.length) (hb : bs[j]? ≠ some b) :
    crc16 (bs.set j b) ≠ crc16 bs := by
  have hbs : bs = bs.take j ++ bs[j] :: bs.drop (j + 1) := by simp
  rw [List.getElem?_eq_getElem hj, ne_eq, Option.some_inj] at hb
  rw [List.set_eq_take_append_cons_drop, if_pos hj]
  conv => rhs; rw [hbs]
  exact crc16_changed_byte_ne _ _ (Ne.symm hb)

/-- Settles O3, by running the eight rounds for each byte. -/
theorem crcCheckValues : Obligations.CrcCheckValues := by
  simp [Obligations.CrcCheckValues, crc16, crcSteps, crcStep, crcRounds, crcRound]

/-- Settles O4: the last two bytes take the register to zero exactly when they are its value. -/
theorem crcResidueZeroExactlyForOwnTrailer : Obligations.CrcResidueZeroExactlyForOwnTrailer := by
  refine ⟨rfl, (crc16_append_pair_eq_zero_iff [] 0xFF 0xFF).2 rfl, fun d t => ?_⟩
  calc crc16 (d ++ le2 t) = 0x0000
    _ ↔ crc16 d = fromLe2 (t.setWidth 8) ((t >>> 8).setWidth 8) := crc16_append_pair_eq_zero_iff d _ _
    _ ↔ t = crc16 d := by rw [fromLe2_le2, eq_comm]

/-! ## Frames -/

/-- The CRC stage lets through only bodies of residue zero, so the comparison of R235 is the test of R107. -/
theorem crcStage_of_crc16_ne_zero {body : ByteString} (hl : 2 ≤ body.length) (h : crc16 body ≠ 0x0000) :
    crcStage true body = .error .badCrc := by
  obtain ⟨data, lo, hi, rfl⟩ := exists_trailer hl
  rw [ne_eq, crc16_append_pair_eq_zero_iff] at h
  rw [crcStage_trailer, if_neg h]

/-- A laid-out frame whose data and trailer have another residue than zero is a `BadCrc` (R235). -/
theorem IsFront.parseFrame_badCrc {p : Config.Params} {L : Byte} {body rest input : ByteString}
    (hf : IsFront p true L body rest input) (h : crc16 body ≠ 0x0000) :
    Machine.parseFrame p true input = .err .badCrc (some (3 + L.toNat)) := by
  have hl : 2 ≤ body.length := by
    rw [hf.length]
    exact le_trans (by decide) hf.min
  rw [hf.parseFrame, bodyStages, crcStage_of_crc16_ne_zero hl h]

/-- The data and the trailer of a frame taken with CRC on have residue zero (R107, R235). -/
theorem IsFront.crc16_body_eq_zero {p : Config.Params} {L : Byte} {body rest input w : ByteString} {i : WireInstr}
    {k : Nat} (hf : IsFront p true L body rest input) (h : Machine.parseFrame p true input = .ok i w k) :
    crc16 body = 0x0000 := by
  by_contra hne
  rw [hf.parseFrame_badCrc hne] at h
  cases h

theorem IsFront.getElem?_body {p : Config.Params} {crc : Bool} {L : Byte} {body rest input : ByteString}
    (hf : IsFront p crc L body rest input) {n : Nat} (hn : n < body.length) : input[3 + n]? = body[n]? := by
  rw [hf.input, be_two]
  simp [Nat.add_comm 3 n, List.getElem?_append_left hn]

/-- A frame with a body byte changed is laid out as before. -/
theorem IsFront.set_body {p : Config.Params} {crc : Bool} {L : Byte} {body rest input : ByteString}
    (hf : IsFront p crc L body rest input) {n : Nat} (hn : n < body.length) (b : Byte) :
    IsFront p crc L (body.set n b) rest (input.set (3 + n) b) where
  input := by
    rw [hf.input, be_two]
    simp [Nat.add_comm 3 n, List.set_append_left, hn]
  length := by rw [List.length_set, hf.length]
  min := hf.min

/-- Settles O5: an accepted frame's body has residue zero, so that with a changed byte it has another. -/
theorem flippedByteIsReportedAsBadCrc : Obligations.FlippedByteIsReportedAsBadCrc := by
  refine ⟨fun pre post x y => crc16_changed_byte_ne pre post, ?_⟩
  intro p input i w k hok j b hj hjk hb
  obtain ⟨L, body, rest, hf, rfl⟩ := parseFrame_offset (.inl ⟨i, w, hok⟩)
  obtain ⟨n, rfl⟩ := Nat.exists_eq_add_of_le hj
  have hn : n < body.length := by
    rw [hf.length]
    omega
  rw [hf.getElem?_body hn] at hb
  have hres : crc16 (body.set n b) ≠ 0x0000 := hf.crc16_body_eq_zero hok ▸ crc16_set_ne hn hb
  exact (hf.set_body hn b).parseFrame_badCrc hres

/-! ## The CRC unit's commands -/

theorem exec_crcInit (s : State) : exec .crcInit s = .next ((s.withCrc 0xFFFF).answer .unit .none) := rfl

theorem exec_crcFeed (data : ByteString) (s : State) :
    exec (.crcFeed data) s = .next ((s.withCrc (crcSteps s.crcAcc data)).answer .unit .none) := rfl

theorem exec_crcRead (s : State) : exec .crcRead s = .next (s.answer (.word s.crcAcc) .none) := rfl

/-- Settles O1: the state each of the three commands leaves. -/
theorem crcCommandsWriteOnlyTheRegister : Obligations.CrcCommandsWriteOnlyTheRegister :=
  fun s data => ⟨exec_crcInit s, exec_crcFeed data s, exec_crcRead s⟩

/-- The CRC_FEED commands of any chunks step the register over the chunks joined (R104, R106). -/
theorem runWhileOk_crcFeeds (chunks : List ByteString) (cs : List Instr) (c : Word) (s : State) :
    runWhileOk (chunks.map Instr.crcFeed ++ cs) ((s.withCrc c).answer .unit .none) =
      runWhileOk cs ((s.withCrc (crcSteps c chunks.flatten)).answer .unit .none) := by
  induction chunks generalizing c with
  | nil => rfl
  | cons a chunks ih =>
    rw [List.map_cons, List.cons_append, runWhileOk_cons (exec_crcFeed a _) rfl, List.flatten_cons, crcSteps_append]
    exact ih (crcSteps c a)

/-- CRC_INIT, any feeds and CRC_READ leave and answer the checksum of what was fed (R106). -/
theorem runWhileOk_crcInit_feeds_read (chunks : List ByteString) (s : State) :
    runWhileOk (.crcInit :: (chunks.map Instr.crcFeed ++ [.crcRead])) s =
      (none, .next ((s.withCrc (crc16 chunks.flatten)).answer (.word (crc16 chunks.flatten)) .none)) :=
  calc runWhileOk (.crcInit :: (chunks.map Instr.crcFeed ++ [.crcRead])) s
    _ = runWhileOk (chunks.map Instr.crcFeed ++ [.crcRead]) ((s.withCrc 0xFFFF).answer .unit .none) :=
      runWhileOk_cons (exec_crcInit s) rfl _
    _ = runWhileOk [.crcRead] ((s.withCrc (crc16 chunks.flatten)).answer .unit .none) :=
      runWhileOk_crcFeeds chunks _ _ s
    _ = _ := runWhileOk_cons (exec_crcRead _) rfl []

/-- CHECKSUM is the run with one feed (R93). -/
theorem checksum_eq (bs : ByteString) (s : State) :
    checksum bs s = .next ((s.withCrc (crc16 bs)).answer (.word (crc16 bs)) .none) := by
  have h := runWhileOk_crcInit_feeds_read [bs] s
  rw [List.flatten_singleton] at h
  exact congrArg Prod.snd h

/-- Settles O2: the run of the split string and CHECKSUM of the whole both leave its checksum. -/
theorem crcSplitFeedsReadAsOneChecksum : Obligations.CrcSplitFeedsReadAsOneChecksum := fun s chunks =>
  ⟨_, _, runWhileOk_crcInit_feeds_read chunks s, rfl, checksum_eq chunks.flatten s, rfl, rfl, rfl, rfl⟩

end Sys2Proof.Machine
end

section
/-! SUPPORT. The wire instruction's length and its decoder's order of checks (41_instruction_model.md R121, R122,
30_encoding.md R75, R76, R78). -/

namespace Sys2Proof

/-- The opcode of an instruction fixes the number of its field bytes (R73, R78). -/
theorem WireInstr.fieldLen_opcode_eq_length (i : WireInstr) : fieldLen i.opcode = some i.fields.length := by
  cases i <;> simp [WireInstr.opcode, WireInstr.fields, fieldLen]

/-- The seven opcodes are recognised (R75); `fieldLen_unlisted` says that no other byte is. -/
theorem fieldLen_listed {op : Byte} (hop : op ∈ [0x80, 0x81, 0x82, 0x83, 0x84, 0x86, 0x87]) : fieldLen op ≠ none :=
  (by decide : ∀ b ∈ ([0x80, 0x81, 0x82, 0x83, 0x84, 0x86, 0x87] : ByteString), fieldLen b ≠ none) op hop

/-- Settles O6: the round trip is `instrDecode_encode`, and an encoding is one opcode byte longer than its fields. -/
theorem instrDecodeOfInstrEncode : Obligations.InstrDecodeOfInstrEncode := fun i rest =>
  ⟨instrDecode_encode i rest, i.fieldLen_opcode_eq_length⟩

/-- Settles O7: `instrDecode_spec` splits on the opcode and then on the length, and each listed opcode has a length,
as no other byte has. -/
theorem instrDecodeByOpcodeThenLength : Obligations.InstrDecodeByOpcodeThenLength := by
  intro op rest
  rcases instrDecode_spec op rest with ⟨hnone, hbad⟩ | ⟨n, hsome, hlen⟩
  · exact ⟨fun _ => hbad, fun hop => absurd hnone (fieldLen_listed hop)⟩
  · refine ⟨fun hop => ?_, fun _ => ⟨n, hsome, ?_⟩⟩
    · simp [fieldLen_unlisted hop] at hsome
    · rcases hlen with ⟨hshort, hend⟩ | ⟨hfits, hok⟩
      · exact ⟨fun _ => hend, fun hfits => absurd hfits (Nat.not_le_of_lt hshort)⟩
      · exact ⟨fun hshort => absurd hfits (Nat.not_le_of_lt hshort), fun _ => hok⟩

end Sys2Proof
end

section
/-! SUPPORT. Three facts of the value encoder (42_encode.md R152, R157, R158; 43_decode.md R183, R188): the walk decides
the outcome of TX_PUSH, signed integers stand in two's complement, and an unsupported kind fails in both directions. -/

namespace Sys2Proof.Machine

/-- Settles O22: by `enc_spec` the encoder writes the image where the walk finds room, and fails with its error else. -/
theorem pushOutcomeIsTheWalksFirstError : Obligations.PushOutcomeIsTheWalksFirstError := by
  intro s v hinv ho
  have hspec := enc_spec s.params s.draws v s.tx hinv.sound
  cases hwalk : encodeWalk s.params v (s.tx.cap.toNat - s.tx.cur) with
  | ok room =>
    simp only [hwalk] at hspec
    obtain ⟨hdone, hlen, -, hfits, hroom⟩ := hspec
    have hcur : (s.tx.wrote (image v)).cur = s.tx.cap.toNat - room := by
      rw [TxUnit.wrote_cur, hlen]
      omega
    exact ⟨_, execTxPush_done ho hdone, rfl, hcur⟩
  | error e =>
    simp only [hwalk] at hspec
    obtain ⟨⟨t, hfailed, -⟩, -⟩ := hspec
    exact ⟨_, execTxPush_failed ho hfailed, rfl⟩

/-- A number is read back from its image at the front of a window (R183). -/
theorem dec_num_image (ps : Config.Params) (n : Num) (rest : ByteString) :
    dec ps (.num n.kind) (n.image ++ rest) 0 = .ok (.num n, n.kind.size) := by
  have hread : readWin n.kind.size (n.image ++ rest) 0 = .ok (fromBe n.image, n.kind.size) := by
    simpa using readWin_append [] n.image rest (Num.image_length n)
  rw [dec, hread]
  exact congrArg (fun m => Except.ok (Value.num m, n.kind.size)) (num_of_image n)

/-- The image of `x` is that of `x mod 2^N` (R152). -/
theorem numOfInt_image (k : NumKind) (x : Int) :
    (numOfInt k x).image = be k.size (x % (2 : Int) ^ (8 * k.size)).toNat := by
  simp only [Num.image, numOfInt, BitVec.toNat_ofInt, Nat.cast_pow, Nat.cast_ofNat]

/-- A signed integer in its kind's range is the value of its pattern (00_scope.md R12). -/
theorem numValue_numOfInt {k : NumKind} {x : Int} (hk : isSigned k = true) (hlo : -(2 : Int) ^ (8 * k.size - 1) ≤ x)
    (hhi : x < (2 : Int) ^ (8 * k.size - 1)) : numValue (numOfInt k x) = x := by
  have hpos : 0 < 8 * k.size := by cases k <;> decide
  rw [numValue, if_pos (show isSigned (numOfInt k x).kind = true from hk)]
  exact BitVec.toInt_ofInt_eq_self hpos hlo hhi

/-- Settles O34, from the image, the value and the read of `numOfInt`. -/
theorem signedIntegersAreTwosComplement : Obligations.SignedIntegersAreTwosComplement :=
  fun ps k x rest hk hlo hhi =>
    ⟨numOfInt_image k x, numValue_numOfInt hk hlo hhi, dec_num_image ps (numOfInt k x) rest⟩

/-- Whatever the parameter says, it is one of the two errors (00_scope.md R10). -/
theorem unsupportedErr_mem (ps : Config.Params) (k : UnsupKind) :
    unsupportedErr ps k ∈ [ErrKind.notYetImplemented, ErrKind.wontImplement] := by
  unfold unsupportedErr
  split <;> decide

/-- Settles O33: both directions report `unsupportedErr`. -/
theorem unsupportedKindsFailAlike : Obligations.UnsupportedKindsFailAlike := fun ps k draw tx w p =>
  ⟨unsupportedErr ps k, unsupportedErr_mem ps k, by rw [enc], by rw [dec]⟩

end Sys2Proof.Machine
end

section
/-! SUPPORT. The value decoder against the image (43_decode.md R181, R193, R194): a conforming value is read back from
its image, and what is read has exactly the bytes read as its image. -/

namespace Sys2Proof.Machine

/-! ## Reads of one word -/

/-- A 16-bit word is read back from its two bytes, whatever follows (43_decode.md R181). -/
theorem readWin_word (pre rest : ByteString) {u : Nat} (hu : u < 256 ^ 2) :
    readWin 2 (pre ++ (be 2 u ++ rest)) pre.length = .ok (u, pre.length + 2) := by
  rw [← List.append_assoc, readWin_append pre (be 2 u) rest (be_length 2 u), fromBe_be, Nat.mod_eq_of_lt hu]

theorem dec_bool_word (ps : Config.Params) (b : Bool) (pre rest : ByteString) :
    dec ps .bool (pre ++ (boolWord b ++ rest)) pre.length = .ok (.bool b, pre.length + 2) := by
  cases b <;> rw [dec, boolWord, readWin_word pre rest (by decide)] <;> rfl

/-! ## From a value to its image and back -/

section
variable (ps : Config.Params)

mutual

/-- R193, with any bytes before the image. -/
theorem dec_append_image : ∀ (v : Value) (t : Shape) (pre rest : ByteString),
    conforms v t = true → encodable v = true →
    dec ps t (pre ++ (image v ++ rest)) pre.length = .ok (v, pre.length + size v)
  | .num n, t, pre, rest, hc, _ => by
    cases t <;> simp only [conforms, decide_eq_true_eq, Bool.false_eq_true] at hc
    subst hc
    rw [dec, image, ← List.append_assoc, readWin_append pre n.image rest (Num.image_length n)]
    exact congrArg (fun m => Except.ok (Value.num m, pre.length + n.kind.size)) (num_of_image n)
  | .bool b, t, pre, rest, hc, _ => by
    cases t <;> simp only [conforms, Bool.false_eq_true] at hc
    exact dec_bool_word ps b pre rest
  | .agg fs, t, pre, rest, hc, he => by
    cases t <;> simp only [conforms, Bool.false_eq_true] at hc
    rw [dec, image, decFields_append_image fs _ pre rest hc he]
    rfl
  | .enum d fs, t, pre, rest, hc, he => by
    cases t <;> simp only [conforms, Bool.false_eq_true] at hc
    split at hc
    · next ts hts =>
      simp only [encodable, Bool.and_eq_true, decide_eq_true_eq] at he
      obtain ⟨hd, hef⟩ := he
      have hfields := decFields_append_image fs ts (pre ++ be 2 d.toNat) rest hc hef
      simp only [List.append_assoc, List.length_append, be_length] at hfields
      rw [dec, image, List.append_assoc, readWin_word pre _ (Nat.lt_succ_of_le hd)]
      simp only [bind, Except.bind, decVariant_of_variantAt ps _ _ hts, hfields, BitVec.ofNat_toNat,
        BitVec.setWidth_eq, size, Nat.add_assoc]
      rfl
    · cases hc
  | .unsup k, t, pre, rest, _, he => by cases he

/-- R193 for the fields of an aggregate or a variant. -/
theorem decFields_append_image : ∀ (vs : Values) (ts : Shapes) (pre rest : ByteString),
    conformsFields vs ts = true → encodableFields vs = true →
    decFields ps ts (pre ++ (imageFields vs ++ rest)) pre.length = .ok (vs, pre.length + sizeFields vs)
  | .nil, ts, pre, rest, hc, _ => by
    cases ts <;> simp only [conformsFields, Bool.false_eq_true] at hc
    rw [decFields]
    rfl
  | .cons v vs, ts, pre, rest, hc, he => by
    cases ts <;> simp only [conformsFields, Bool.false_eq_true, Bool.and_eq_true] at hc
    obtain ⟨hcv, hcvs⟩ := hc
    simp only [encodableFields, Bool.and_eq_true] at he
    obtain ⟨hev, hevs⟩ := he
    have hfields := decFields_append_image vs _ (pre ++ image v) rest hcvs hevs
    simp only [List.append_assoc, List.length_append, image_length v hev] at hfields
    rw [decFields, imageFields, List.append_assoc, dec_append_image v _ pre _ hcv hev]
    simp only [bind, Except.bind, hfields, sizeFields, Nat.add_assoc]
    rfl

end

end

/-- Settles O29: it is `dec_append_image`, an induction over the value and its fields. -/
theorem decodeOfImage : Obligations.DecodeOfImage := fun ps v t pre rest hc he => by
  rw [List.append_assoc]
  exact dec_append_image ps v t pre rest hc he

/-! ## From the bytes read to the value and back -/

/-- A decode that moves from `p` to `p'` has read `bs` (43_decode.md R181). -/
structure Consumes (w : ByteString) (p p' : Nat) (bs : ByteString) : Prop where
  position : p' = p + bs.length
  bytes : bs = (w.drop p).take bs.length

theorem Consumes.nil (w : ByteString) (p : Nat) : Consumes w p p [] := ⟨rfl, rfl⟩

theorem Consumes.append {w as bs : ByteString} {p q r : Nat} (h : Consumes w p q as) (g : Consumes w q r bs) :
    Consumes w p r (as ++ bs) := by
  obtain ⟨rfl, has⟩ := h
  obtain ⟨rfl, hbs⟩ := g
  refine ⟨by rw [List.length_append, Nat.add_assoc], ?_⟩
  rw [List.length_append, List.take_add, ← has, List.drop_drop, ← hbs]

/-- The big-endian bytes of the integer a read gives are the bytes it has read (43_decode.md R181). -/
theorem Consumes.of_readWin {n : Nat} {w : ByteString} {p u p' : Nat} (h : readWin n w p = .ok (u, p')) :
    Consumes w p p' (be n u) := by
  obtain ⟨-, rfl, -, hbe, -⟩ := readWin_ok h
  exact ⟨by rw [be_length], by rwa [be_length]⟩

/-- The number made from the integer a read gives has that integer's bytes as its image (43_decode.md R182 to
R184). -/
theorem num_image_of_readWin {k : NumKind} {w : ByteString} {p u p' : Nat} (h : readWin k.size w p = .ok (u, p')) :
    (Num.ofNat k u).image = be k.size u := by
  obtain ⟨hw, -, rfl, hbe, -⟩ := readWin_ok h
  rw [hbe, num_image_ofNat (by rw [List.length_take, List.length_drop]; omega)]

/-- A word read as a discriminant fits the 32 bits it is held in. -/
theorem discriminant_of_readWin {w : ByteString} {p d p' : Nat} (h : readWin 2 w p = .ok (d, p')) :
    (BitVec.ofNat 32 d).toNat = d ∧ d ≤ 65535 := by
  obtain ⟨-, -, -, -, hd⟩ := readWin_ok h
  rw [BitVec.toNat_ofNat]
  omega

section
variable (ps : Config.Params) (w : ByteString)

mutual

/-- R194: what is decoded conforms to the shape, can be encoded, and its image is what was read. -/
theorem dec_consumes : ∀ (t : Shape) {p p' : Nat} {v : Value}, dec ps t w p = .ok (v, p') →
    conforms v t = true ∧ encodable v = true ∧ Consumes w p p' (image v)
  | .num k, p, p', v, h => by
    rw [dec] at h
    obtain ⟨⟨u, q⟩, hr, h⟩ := bind_eq_ok h
    cases h
    refine ⟨by simp [conforms, Num.ofNat], by rw [encodable], ?_⟩
    rw [image, num_image_of_readWin hr]
    exact .of_readWin hr
  | .bool, p, p', v, h => by
    rw [dec] at h
    obtain ⟨⟨u, q⟩, hr, h⟩ := bind_eq_ok h
    have hread := Consumes.of_readWin hr
    dsimp only at h
    split at h
    · next hu =>
      cases h
      cases hu
      exact ⟨rfl, rfl, hread⟩
    · split at h
      · next hu =>
        cases h
        cases hu
        exact ⟨rfl, rfl, hread⟩
      · cases h
  | .agg ts, p, p', v, h => by
    rw [dec] at h
    obtain ⟨⟨fs, q⟩, hf, h⟩ := bind_eq_ok h
    cases h
    exact decFields_consumes ts hf
  | .enum vs, p, p', v, h => by
    rw [dec] at h
    obtain ⟨⟨d, q⟩, hr, h⟩ := bind_eq_ok h
    obtain ⟨⟨fs, r⟩, hf, h⟩ := bind_eq_ok h
    cases h
    obtain ⟨ts, hts, hc, he, hfields⟩ := decVariant_consumes vs hf
    obtain ⟨hd, hle⟩ := discriminant_of_readWin hr
    refine ⟨?_, ?_, ?_⟩
    · simp only [conforms, hd, hts, hc]
    · simp only [encodable, hd, hle, he, decide_true, Bool.and_self]
    · rw [image, hd]
      exact (Consumes.of_readWin hr).append hfields
  | .unsup k, p, p', v, h => by
    rw [dec] at h
    cases h

theorem decFields_consumes : ∀ (ts : Shapes) {p p' : Nat} {vs : Values}, decFields ps ts w p = .ok (vs, p') →
    conformsFields vs ts = true ∧ encodableFields vs = true ∧ Consumes w p p' (imageFields vs)
  | .nil, p, p', vs, h => by
    rw [decFields] at h
    cases h
    exact ⟨rfl, rfl, .nil w p⟩
  | .cons t ts, p, p', vs, h => by
    rw [decFields] at h
    obtain ⟨⟨v, q⟩, hv, h⟩ := bind_eq_ok h
    obtain ⟨⟨vs', r⟩, hvs, h⟩ := bind_eq_ok h
    cases h
    obtain ⟨hcv, hev, hreadv⟩ := dec_consumes t hv
    obtain ⟨hcvs, hevs, hreadvs⟩ := decFields_consumes ts hvs
    exact ⟨by rw [conformsFields, hcv, hcvs, Bool.and_self], by rw [encodableFields, hev, hevs, Bool.and_self],
      hreadv.append hreadvs⟩

theorem decVariant_consumes : ∀ (vs : Variants) {d p p' : Nat} {fs : Values}, decVariant ps vs d w p = .ok (fs, p') →
    ∃ ts, variantAt vs d = some ts ∧
      conformsFields fs ts = true ∧ encodableFields fs = true ∧ Consumes w p p' (imageFields fs)
  | .nil, d, p, p', fs, h => by
    rw [decVariant] at h
    cases h
  | .cons ts _, 0, p, p', fs, h => by
    rw [decVariant] at h
    exact ⟨ts, rfl, decFields_consumes ts h⟩
  | .cons _ vs, d + 1, p, p', fs, h => by
    rw [decVariant] at h
    exact decVariant_consumes vs h

end

end

/-- Settles O30: `dec_consumes`, an induction over the shape, says what was read, and `dec_advances` where. -/
theorem decodedValueReencodesToTheBytesRead : Obligations.DecodedValueReencodesToTheBytesRead := by
  intro ps t w p p' v hp h
  obtain ⟨hc, he, hpos, hbytes⟩ := dec_consumes ps w t h
  obtain ⟨hforward, hwin⟩ := dec_advances ps w t h
  rw [image_length v he] at hpos hbytes
  exact ⟨hforward, hwin hp, hpos, hc, he, by rwa [hpos, Nat.add_sub_cancel_left]⟩

/-- Settles O31: up to the position returned the window is the bytes before `p` and the image of the value (O30), and
from its image the value is read whatever follows (O29). -/
theorem decoderReadsNothingPastItsPosition : Obligations.DecoderReadsNothingPastItsPosition := by
  intro ps t w rest p p' v hp h
  obtain ⟨-, -, hpos, hc, he, himage⟩ := decodedValueReencodesToTheBytesRead ps t w p p' v hp h
  have hfront : w.take p' = w.take p ++ image v := by
    rw [himage, hpos, Nat.add_sub_cancel_left, List.take_add]
  have hdec := decodeOfImage ps v t (w.take p) rest hc he
  rwa [List.length_take, Nat.min_eq_left hp, ← hpos, ← hfront] at hdec

end Sys2Proof.Machine
end

section
/-! SUPPORT. Where the value decoder fails (43_decode.md R182, R185 to R189). -/

namespace Sys2Proof.Machine

/-- A read past the end of the window fails (R181). -/
theorem readWin_short {n : Nat} {w : ByteString} (pre : ByteString) (h : w.length < n) :
    readWin n (pre ++ w) pre.length = .error .unexpectedEnd := by
  rw [readWin, if_pos (by rw [List.length_append]; omega)]

/-- There is no variant `d` when `d >= m` (R186). -/
theorem variantAt_eq_none {vs : Variants} {d : Nat} (h : vs.length ≤ d) : variantAt vs d = none :=
  Option.eq_none_iff_forall_ne_some.2 fun _ hts => absurd (variantAt_lt hts) (Nat.not_lt_of_le h)

section
variable (ps : Config.Params)

/-- A Bool word is 0 or 1 (R185). -/
theorem dec_bool_badBool {w : ByteString} {p u p' : Nat} (h : readWin 2 w p = .ok (u, p')) (hu : 2 ≤ u) :
    dec ps .bool w p = .error .badBool := by
  rw [dec, h]
  exact (if_neg (by omega)).trans (if_neg (by omega))

/-- Once its discriminant is read, an Enum reports its variant's error (R186, R189). -/
theorem dec_enum_variant_error {vs : Variants} {w : ByteString} {p d q : Nat} {e : ErrKind}
    (hr : readWin 2 w p = .ok (d, q)) (h : decVariant ps vs d w q = .error e) : dec ps (.enum vs) w p = .error e := by
  rw [dec, hr]
  exact bind_eq_error h _

/-- An aggregate fails exactly as its fields do (R187). -/
theorem dec_agg_error_iff {ts : Shapes} {w : ByteString} {p : Nat} {e : ErrKind} :
    dec ps (.agg ts) w p = .error e ↔ decFields ps ts w p = .error e := by
  rw [dec]
  cases decFields ps ts w p <;> simp [bind, Except.bind, pure, Except.pure]

theorem decFields_cons_error {t : Shape} {w : ByteString} {p : Nat} {e : ErrKind} (ts : Shapes)
    (h : dec ps t w p = .error e) : decFields ps (.cons t ts) w p = .error e := by
  rw [decFields]
  exact bind_eq_error h _

theorem decFields_cons_rest_error {t : Shape} {ts : Shapes} {w : ByteString} {p q : Nat} {v : Value} {e : ErrKind}
    (ht : dec ps t w p = .ok (v, q)) (h : decFields ps ts w q = .error e) :
    decFields ps (.cons t ts) w p = .error e := by
  rw [decFields, ht]
  exact bind_eq_error h _

end

/-- Settles O32: a short read fails at once (`readWin_short`); behind a read word (`readWin_word`) or field, the shape's
error lemma says which error is passed on. -/
theorem decodeErrorsByShape : Obligations.DecodeErrorsByShape := by
  intro ps pre w
  have hword (u : Word) := readWin_word pre w u.isLt
  refine ⟨fun k hk => ?num, fun hl => ?bool, fun u hu => dec_bool_badBool ps (hword u) hu, fun vs hl => ?enum,
    fun vs d hd => ?noVariant, fun vs d ts e hts h => ?variant, rfl, fun t ts e h => ?first,
    fun t ts v p e ht h => ?behind, fun k => by rw [dec]⟩
  case num =>
    rw [dec]
    exact bind_eq_error (readWin_short pre hk) _
  case bool =>
    rw [dec]
    exact bind_eq_error (readWin_short pre hl) _
  case enum =>
    rw [dec]
    exact bind_eq_error (readWin_short pre hl) _
  case noVariant =>
    exact dec_enum_variant_error ps (hword d) (decVariant_of_none ps _ _ (variantAt_eq_none hd))
  case variant =>
    refine dec_enum_variant_error ps (hword d) ?_
    rw [decVariant_of_variantAt ps _ _ hts]
    exact (dec_agg_error_iff ps).1 h
  case first => exact (dec_agg_error_iff ps).2 (decFields_cons_error ps ts h)
  case behind => exact (dec_agg_error_iff ps).2 (decFields_cons_rest_error ps ht ((dec_agg_error_iff ps).1 h))

end Sys2Proof.Machine
end

section
/-! SUPPORT. The decode unit's commands (43_decode.md R190 to R192): the next state of each, case by case. -/

namespace Sys2Proof.Machine

theorem exec_decLoad (window : ByteString) (s : State) :
    exec (.decLoad window) s = .next ((s.loadWindow none window .host).answer .unit .none) := rfl

theorem exec_decTake (t : Shape) (s : State) : exec (.decTake t) s = execDecTake t s := rfl

theorem execDecTake_ok {t : Shape} {s : State} {v : Value} {p : Nat} (hr : s.dec.state = .ready)
    (h : dec s.params t s.dec.win s.dec.pos = .ok (v, p)) :
    execDecTake t s = .next ({ s with dec := { s.dec with pos := p } }.answer (.value v) .none) := by
  rw [execDecTake, if_neg (not_not.2 hr), h]

theorem execDecTake_error {t : Shape} {s : State} {e : ErrKind} (hr : s.dec.state = .ready)
    (h : dec s.params t s.dec.win s.dec.pos = .error e) :
    execDecTake t s = .next ({ s with dec := { s.dec with state := .failed } }.raise e .none) := by
  rw [execDecTake, if_neg (not_not.2 hr), h]

theorem execDecTake_refused {t : Shape} {s : State} (hr : s.dec.state ≠ .ready) :
    execDecTake t s = .next (s.refuse .noWindow) := by
  rw [execDecTake, if_pos hr]

/-- Settles O35. -/
theorem decLoadLoadsTheWindow : Obligations.DecLoadLoadsTheWindow := fun s window => exec_decLoad window s

/-- Settles O36, one case of `execDecTake` per clause. -/
theorem decTakeMovesOnlyThePosition : Obligations.DecTakeMovesOnlyThePosition := fun s t =>
  ⟨fun hr _ _ h => (exec_decTake t s).trans (execDecTake_ok hr h),
    fun hr _ h => (exec_decTake t s).trans (execDecTake_error hr h),
    fun hr => (exec_decTake t s).trans (execDecTake_refused hr)⟩

end Sys2Proof.Machine
end

section
/-! SUPPORT. The TX framer's commands, outcome by outcome (44_frame_builder.md R211 to R215, R217), and what the parser
makes of a finished frame (R218). -/

namespace Sys2Proof.Machine

theorem exec_txOpen (cap : Byte) (i : WireInstr) (s : State) : exec (.txOpen cap i) s = execTxOpen cap i s := rfl

theorem exec_txPush (v : Value) (s : State) : exec (.txPush v) s = execTxPush v s := rfl

theorem exec_txFinal (crc : Bool) (s : State) : exec (.txFinal crc) s = execTxFinal crc s := rfl

theorem exec_txAbort (s : State) :
    exec .txAbort s = .next ({ s with tx := { s.tx with state := .idle } }.answer .unit .none) := rfl

/-! ## The refusals -/

theorem execTxOpen_busy {s : State} (hi : s.tx.state ≠ .idle) (cap : Byte) (i : WireInstr) :
    execTxOpen cap i s = .next (s.refuse .builderBusy) := by
  rw [execTxOpen, if_pos hi]

theorem execTxOpen_badCapacity {s : State} {cap : Byte} (hi : s.tx.state = .idle)
    (hc : cap.toNat < s.params.minBuildCap) (i : WireInstr) :
    execTxOpen cap i s = .next (s.refuse .badCapacity) := by
  rw [execTxOpen, if_neg (not_not.2 hi), if_pos (.inl hc)]

theorem execTxPush_refused {s : State} (ho : s.tx.state ≠ .opened) (v : Value) :
    execTxPush v s = .next (s.refuse .noBuilder) := by
  rw [execTxPush, if_pos ho]

theorem execTxFinal_refused {s : State} (ho : s.tx.state ≠ .opened) (crc : Bool) :
    execTxFinal crc s = .next (s.refuse .noBuilder) := by
  rw [execTxFinal, if_pos ho]

/-- Settles O23. -/
theorem pushAndFinalNeedAnOpenBuilder : Obligations.PushAndFinalNeedAnOpenBuilder := fun s v crc ho =>
  ⟨(exec_txPush v s).trans (execTxPush_refused ho v), (exec_txFinal crc s).trans (execTxFinal_refused ho crc)⟩

/-- Settles O26. -/
theorem txAbortOnlyDropsTheBuilder : Obligations.TxAbortOnlyDropsTheBuilder := exec_txAbort

/-! ## TX_OPEN -/

/-- Settles O19: past the two refusals, a front that fits leaves a builder holding it, and one that does not fails in
the storage with `BufferFull`. -/
theorem txOpenWritesHeaderPlaceholderInstruction : Obligations.TxOpenWritesHeaderPlaceholderInstruction := by
  intro s cap i
  refine ⟨fun hbusy => (exec_txOpen cap i s).trans (execTxOpen_busy hbusy cap i),
    fun hi hlow => (exec_txOpen cap i s).trans (execTxOpen_badCapacity hi hlow i), fun hi hc => ?_⟩
  by_cases hr : 3 + (instrEncode i).length ≤ cap.toNat
  · obtain ⟨t, hfront, rfl, hopen⟩ := exec_txOpen_building hi hc hr
    have hcur := hfront.cur_eq.trans (front_length s.params.header i)
    exact ⟨_, hopen, rfl, hfront.sound.length, fun hlt => absurd hr (Nat.not_le_of_lt hlt),
      fun _ => ⟨hfront.opened, hcur, hfront.bytes, rfl⟩, rfl, rfl, rfl, rfl, rfl, ⟨rfl, rfl⟩⟩
  · have hspec := (TxUnit.fresh_sound s.draws cap).writeFront_eq rfl s.params (s.draws + 1) i
    obtain ⟨u, hfailed, hform, -⟩ := hspec.2 (Nat.lt_of_not_le hr)
    have hlen := hform.length.trans (TxUnit.fresh_length s.draws cap)
    exact ⟨_, execTxOpen_failed hi hc hfailed, hform.cap, hlen, fun _ => ⟨rfl, rfl⟩, fun hle => absurd hle hr,
      rfl, rfl, rfl, rfl, rfl, ⟨rfl, rfl⟩⟩

/-! ## TX_PUSH -/

/-- Settles O20: the encoder writes the image, which is as long as the value's size. -/
theorem txPushAppendsTheImage : Obligations.TxPushAppendsTheImage := by
  intro s v hinv ho he hr
  have hlen := image_length v he
  have hdone := execTxPush_done ho (hinv.sound.enc_done s.params s.draws he hr)
  exact ⟨_, hdone, rfl, ho, rfl, by rw [TxUnit.wrote_cur, hlen], by rw [TxUnit.wrote_buf, hlen], hlen,
    rfl, rfl, rfl, rfl, rfl, rfl, ⟨rfl, rfl⟩⟩

/-- A value that is not encodable or does not fit fails in the encoder (42_encode.md R157, R158). -/
theorem TxUnit.Sound.enc_failed {t : TxUnit} (h : t.Sound) (p : Config.Params) (draw : Nat) {v : Value}
    (hv : ¬(encodable v = true ∧ t.cur + size v ≤ t.cap.toNat)) :
    ∃ t' e, enc p draw v t = .failed t' e ∧ t.LeftBy t' := by
  have hspec := enc_spec p draw v t h
  split at hspec
  · obtain ⟨-, -, he, hr, -⟩ := hspec
    exact absurd ⟨he, hr⟩ hv
  · obtain ⟨⟨t', hfailed, hleft⟩, -⟩ := hspec
    exact ⟨t', _, hfailed, hleft⟩

section
variable (draw c0 : Nat) (e : ErrKind) (t : TxUnit)

@[simp] theorem TxUnit.poison_state : (t.poison draw c0 e).state = .failed := by
  unfold TxUnit.poison
  split <;> rfl

@[simp] theorem TxUnit.poison_cap : (t.poison draw c0 e).cap = t.cap := by
  unfold TxUnit.poison
  split <;> rfl

@[simp] theorem TxUnit.poison_cur : (t.poison draw c0 e).cur = freeCursorIn draw c0 t.cap.toNat := by
  unfold TxUnit.poison
  split <;> rfl

end

/-- A poisoned builder keeps the bytes before the cursor its push began at (R143, R214). -/
theorem TxUnit.Sound.take_poison {t : TxUnit} (h : t.Sound) (draw : Nat) {c0 : Nat} (e : ErrKind)
    (hc : c0 ≤ t.cap.toNat) : (t.poison draw c0 e).buf.take c0 = t.buf.take c0 := by
  unfold TxUnit.poison
  split
  · exact h.take_scramble draw hc
  · rfl

/-- Settles O21: the encoder leaves the bytes before the cursor, and so does the poisoning. -/
theorem failedPushPoisonsTheBuilder : Obligations.FailedPushPoisonsTheBuilder := by
  intro s v hinv ho hv
  obtain ⟨u, e, hfailed, hleft⟩ := hinv.sound.enc_failed s.params s.draws hv
  have hc : s.tx.cur ≤ u.cap.toNat := hleft.cap ▸ hinv.sound.cursor
  have hcap : (u.poison (s.draws + 1) s.tx.cur e).cap = s.tx.cap := (u.poison_cap _ _ e).trans hleft.cap
  have htake := (hleft.sound.take_poison (s.draws + 1) e hc).trans hleft.before
  have hlen : (u.poison (s.draws + 1) s.tx.cur e).buf.length = s.tx.buf.length := by
    rw [u.poison_length, hleft.sound.length, hleft.cap, hinv.sound.length]
  obtain ⟨hlo, hhi⟩ := freeCursorIn_bounds (s.draws + 1) hc
  rw [← u.poison_cur _ _ e] at hlo hhi
  exact ⟨_, e, execTxPush_failed ho hfailed, rfl, u.poison_state _ _ e, hcap, hlo, hleft.cap ▸ hhi, htake, hlen,
    rfl, rfl, rfl, rfl, rfl, ⟨rfl, rfl⟩⟩

/-! ## TX_FINAL -/

/-- The trailer over the frame data `data`: two bytes with CRC on, none with CRC off (R213). -/
def crcTrailer (crc : Bool) (data : ByteString) : ByteString := if crc then le2 (crc16 data) else []

@[simp] theorem crcTrailer_length (crc : Bool) (data : ByteString) :
    (crcTrailer crc data).length = if crc then 2 else 0 := by
  cases crc <;> rfl

/-- The consumed builder of a TX_FINAL that has room for its trailer (R213). -/
def TxUnit.finish (crc : Bool) (t : TxUnit) : TxUnit :=
  { (t.wrote (crcTrailer crc (t.written.drop 3))).backPatch with state := .idle }

@[simp] theorem TxUnit.finish_cur (crc : Bool) (t : TxUnit) :
    (t.finish crc).cur = t.cur + if crc then 2 else 0 := by
  rw [← crcTrailer_length crc (t.written.drop 3)]
  rfl

section
variable {t : TxUnit} {crc : Bool} (h : t.Sound) (hr : t.cur + (if crc then 2 else 0) ≤ t.cap.toNat)
include h hr

theorem TxUnit.Sound.written_finish_length : (t.finish crc).written.length = t.cur + if crc then 2 else 0 := by
  rw [← crcTrailer_length crc (t.written.drop 3)] at hr ⊢
  exact h.written_backPatch_length _ hr

/-- The finished frame (R213, R217). -/
theorem TxUnit.Sound.written_finish (h3 : 3 ≤ t.cur) :
    (t.finish crc).written = t.buf.take 2 ++ BitVec.ofNat 8 ((t.finish crc).written.length - 3) ::
      (t.written.drop 3 ++ crcTrailer crc (t.written.drop 3)) := by
  rw [h.written_finish_length hr]
  rw [← crcTrailer_length crc (t.written.drop 3)] at hr ⊢
  exact h.written_backPatch h3 _ hr

end

/-- The back-patch and the trailer touch no byte behind the frame. -/
theorem TxUnit.Sound.drop_finish {t : TxUnit} (h : t.Sound) (crc : Bool) (h3 : 3 ≤ t.cur) :
    (t.finish crc).buf.drop (t.finish crc).cur = t.buf.drop (t.finish crc).cur := by
  rw [TxUnit.finish_cur]
  have hpatch : 2 < t.cur + if crc then 2 else 0 := by omega
  have hwrote := h.drop_wrote (crcTrailer crc (t.written.drop 3)) 0
  rw [crcTrailer_length] at hwrote
  exact (List.drop_set_of_lt hpatch).trans hwrote

theorem execTxFinal_fits {s : State} {crc : Bool} (hs : s.tx.Sound) (ho : s.tx.state = .opened)
    (hr : s.tx.cur + (if crc then 2 else 0) ≤ s.tx.cap.toNat) :
    execTxFinal crc s = .next { s with
      tx := s.tx.finish crc, reply := some (.ok (.bytes (s.tx.finish crc).written) .none) } :=
  execTxFinal_done ho ((hs.writeTrailer_eq s.draws crc).trans (if_pos hr))

theorem execTxFinal_noRoom {s : State} {crc : Bool} (hs : s.tx.Sound) (ho : s.tx.state = .opened)
    (hr : ¬s.tx.cur + (if crc then 2 else 0) ≤ s.tx.cap.toNat) :
    execTxFinal crc s = .next { s with
      tx := { s.tx.scramble s.draws s.tx.cur with state := .idle }, draws := s.draws + 1,
      reply := some (.err .bufferFull .none) } :=
  execTxFinal_failed ho ((hs.writeTrailer_eq s.draws crc).trans (if_neg hr))

/-- The builder's clause of 10_state.md R41, for an open one. -/
theorem State.Inv.opened {s : State} (h : s.Inv) (ho : s.tx.state = .opened) :
    3 ≤ s.tx.cur ∧ s.tx.buf.take 2 = be 2 s.params.header.toNat := by
  obtain ⟨-, h3, hhdr⟩ := h.tx
  exact ⟨h3 (by simp [ho]), hhdr ho⟩

/-- Settles O24: the frame is what `finish` has written, and a capacity below 256 bounds its length. -/
theorem txFinalPatchesLengthAndAppendsCrc : Obligations.TxFinalPatchesLengthAndAppendsCrc := by
  intro s crc hinv ho hr
  obtain ⟨h3, hhdr⟩ := hinv.opened ho
  have hs := hinv.sound
  have hlen := hs.written_finish_length hr
  have hframe := hhdr ▸ hs.written_finish hr h3
  have hmax : (s.tx.finish crc).written.length - 3 ≤ 252 := by
    have := s.tx.cap.isLt
    omega
  exact ⟨_, _, execTxFinal_fits hs ho hr, rfl, hframe, hlen, hmax, rfl, rfl, hlen ▸ s.tx.finish_cur crc, rfl,
    hs.drop_finish crc h3, rfl, rfl, rfl, rfl, rfl, rfl, ⟨rfl, rfl⟩⟩

/-- Settles O25: the failing extend leaves the bytes before the cursor. -/
theorem txFinalWithoutRoomForCrcFails : Obligations.TxFinalWithoutRoomForCrcFails := by
  intro s hinv ho hlt
  have hs := hinv.sound
  exact ⟨_, execTxFinal_noRoom (crc := true) hs ho (Nat.not_le_of_lt hlt), rfl, rfl, rfl,
    hs.take_scramble s.draws hs.cursor, (s.tx.scramble_sameForm s.draws s.tx.cur).length,
    rfl, rfl, rfl, rfl, rfl, ⟨rfl, rfl⟩⟩

/-! ## The parse of a finished frame -/

/-- A TX_FINAL that gives a frame had room for its trailer, and gives what `finish` has written. -/
theorem exec_txFinal_bytes {s t : State} {crc : Bool} {out : ByteString} (hs : s.tx.Sound)
    (ho : s.tx.state = .opened) (hx : exec (.txFinal crc) s = .next t)
    (hout : t.reply = some (.ok (.bytes out) .none)) :
    s.tx.cur + (if crc then 2 else 0) ≤ s.tx.cap.toNat ∧ out = (s.tx.finish crc).written := by
  by_cases hr : s.tx.cur + (if crc then 2 else 0) ≤ s.tx.cap.toNat
  · cases (execTxFinal_fits hs ho hr).symm.trans hx
    cases hout
    exact ⟨hr, rfl⟩
  · cases (execTxFinal_noRoom hs ho hr).symm.trans hx
    cases hout

/-- The frame of a body: the header and the length byte in front of it (30_encoding.md R70). -/
def frameOf (hdr : Word) (body : ByteString) : ByteString := be 2 hdr.toNat ++ BitVec.ofNat 8 body.length :: body

theorem frameOf_length (hdr : Word) (body : ByteString) : (frameOf hdr body).length = 3 + body.length := by
  simp only [frameOf, List.length_append, be_length, List.length_cons]
  omega

theorem TxUnit.Building.written_finish {hdr : Word} {data : ByteString} {t : TxUnit} {crc : Bool}
    (h : t.Building (be 2 hdr.toNat ++ 0x00 :: data)) (hr : t.cur + (if crc then 2 else 0) ≤ t.cap.toNat) :
    (t.finish crc).written = frameOf hdr (data ++ crcTrailer crc data) := by
  have hdata : t.written.drop 3 = data := h.drop_front (be_length 2 _)
  rw [← crcTrailer_length crc data] at hr
  rw [TxUnit.finish, hdata, frameOf, List.length_append]
  exact h.finished (be_length 2 _) _ hr

/-- The frame of a body its length byte can count parses as stages 4 and 5 say, with all of it consumed. -/
theorem parseFrame_frameOf (p : Config.Params) {crc : Bool} {body w : ByteString} {i : WireInstr}
    (hmin : minLen crc ≤ body.length) (hmax : body.length ≤ 255) (h : bodyStages crc body = .ok (i, w)) :
    parseFrame p crc (frameOf p.header body) = .ok i w (frameOf p.header body).length := by
  have hL : (BitVec.ofNat 8 body.length).toNat = body.length := by
    rw [BitVec.toNat_ofNat, Nat.mod_eq_of_lt (by omega)]
  have hf : IsFront p crc (BitVec.ofNat 8 body.length) body [] (frameOf p.header body) :=
    ⟨by rw [frameOf, List.append_nil], hL.symm, by rwa [hL]⟩
  rw [hf.parseFrame, h, hL, frameOf_length]

/-- The CRC stage takes off the trailer TX_FINAL appends (45_frame_parser.md R235). -/
theorem crcStage_append_crcTrailer (crc : Bool) (data : ByteString) :
    crcStage crc (data ++ crcTrailer crc data) = .ok data := by
  cases crc with
  | false => exact congrArg Except.ok (List.append_nil data)
  | true =>
    have hown : crc16 data = fromLe2 ((crc16 data).setWidth 8) ((crc16 data >>> 8).setWidth 8) := (fromLe2_le2 _).symm
    exact (crcStage_trailer data _ _).trans (if_pos hown)

theorem bodyStages_append_crcTrailer (crc : Bool) (i : WireInstr) (w : ByteString) :
    bodyStages crc (instrEncode i ++ w ++ crcTrailer crc (instrEncode i ++ w)) = .ok (i, w) := by
  rw [bodyStages, crcStage_append_crcTrailer]
  exact bodyDecode_encode i w

/-- With CRC off a trailer is part of the window (R218). -/
theorem bodyStages_off_append (i : WireInstr) (w more : ByteString) :
    bodyStages false (instrEncode i ++ w ++ more) = .ok (i, w ++ more) := by
  rw [List.append_assoc]
  exact bodyDecode_encode i (w ++ more)

/-- Settles O28: the finished frame is `frameOf` its data and trailer; with the same `crc` the parser takes the trailer
off the body, and with CRC off it leaves it in the window. -/
theorem builtFrameParsesBack : Obligations.BuiltFrameParsesBack := by
  intro s t u crc i payload out hinv ho hbuf hx hout hparams hmin
  have hs := hinv.sound
  obtain ⟨hr, rfl⟩ := exec_txFinal_bytes hs ho hx hout
  have hbuilding : s.tx.Building (be 2 s.params.header.toNat ++ 0x00 :: (instrEncode i ++ payload)) := ⟨hs, ho, hbuf⟩
  have hlen := hs.written_finish_length hr
  rw [hbuilding.written_finish hr] at hmin hlen ⊢
  rw [frameOf_length] at hmin hlen
  rw [Nat.add_sub_cancel_left] at hmin
  have hcap := s.tx.cap.isLt
  refine ⟨?_, ?_⟩
  · have hparse := parseFrame_frameOf s.params hmin (by omega) (bodyStages_append_crcTrailer crc i payload)
    exact ⟨_, execRxParseRem_eq crc _ u, by rw [hparams, hparse]; rfl, by rw [hparams, hparse]; rfl⟩
  · rintro rfl
    have hparse := parseFrame_frameOf s.params (le_trans (by decide) hmin) (by omega)
      (bodyStages_off_append i payload _)
    exact ⟨_, execRxParse_eq false _ u, by rw [hparams, hparse]; rfl, by rw [hparams, hparse]; rfl⟩

end Sys2Proof.Machine
end

section
/-! SUPPORT. The whole-frame parser (45_frame_parser.md R230 to R241): its stages with the error each reports, and its
two commands next to the wire instructions, which load the same frame handle. -/

namespace Sys2Proof.Machine

/-! ## The header and the length stage -/

theorem headerStage_short {input : ByteString} (h : input.length < 2) (p : Config.Params) :
    headerStage p input = .error .unexpectedEnd := if_pos h

theorem headerStage_mismatch {p : Config.Params} {input : ByteString} (hlen : 2 ≤ input.length)
    (h : input.take 2 ≠ be 2 p.header.toNat) : headerStage p input = .error .badHeader :=
  (if_neg (Nat.not_lt.2 hlen)).trans (if_pos h)

theorem headerStage_match {p : Config.Params} {input : ByteString} (h : input.take 2 = be 2 p.header.toNat) :
    headerStage p input = .ok () := by
  have hlen : 2 ≤ input.length := by simpa using congrArg List.length h
  exact (if_neg (Nat.not_lt.2 hlen)).trans (if_neg (not_not.2 h))

theorem lengthStage_missing {input : ByteString} (h : input.length = 2) (crc : Bool) :
    lengthStage crc input = .error .unexpectedEnd := by
  have hnone : input[2]? = none := List.getElem?_eq_none h.le
  simp only [lengthStage, hnone]

theorem lengthStage_tooLow {crc : Bool} {input : ByteString} {L : Byte} (hL : input[2]? = some L)
    (hlow : L.toNat < minLen crc) : lengthStage crc input = .error .badLen := by
  simp only [lengthStage, hL, if_pos hlow]

theorem lengthStage_short {crc : Bool} {input : ByteString} {L : Byte} (hL : input[2]? = some L)
    (hmin : minLen crc ≤ L.toNat) (hshort : input.length < 3 + L.toNat) :
    lengthStage crc input = .error .unexpectedEnd := by
  simp only [lengthStage, hL, if_neg (Nat.not_lt.2 hmin), gt_iff_lt, if_pos hshort]

/-- The errors of the header stage (R232). -/
theorem headerStage_error {p : Config.Params} {input : ByteString} {e : ErrKind} (h : headerStage p input = .error e) :
    e ∈ [ErrKind.unexpectedEnd, .badHeader, .badLen] := by
  unfold headerStage at h
  split at h
  · cases h
    simp
  · split at h <;> cases h
    simp

/-- The errors of the length stage (R233). -/
theorem lengthStage_error {crc : Bool} {input : ByteString} {e : ErrKind} (h : lengthStage crc input = .error e) :
    e ∈ [ErrKind.unexpectedEnd, .badHeader, .badLen] := by
  unfold lengthStage at h
  split at h
  · cases h
    simp
  · split at h
    · cases h
      simp
    · split at h <;> cases h
      simp

theorem parseFrame_of_headerStage {p : Config.Params} {input : ByteString} {e : ErrKind}
    (h : headerStage p input = .error e) (crc : Bool) : parseFrame p crc input = .err e none := by
  simp only [parseFrame, h]

theorem parseFrame_of_lengthStage {p : Config.Params} {crc : Bool} {input : ByteString} {e : ErrKind}
    (hh : headerStage p input = .ok ()) (h : lengthStage crc input = .error e) :
    parseFrame p crc input = .err e none := by
  simp only [parseFrame, hh, h]

/-- The inversion lemma of a failed parse: the stage that failed, and the offset once the length is known (R237). -/
theorem parseFrame_error {p : Config.Params} {crc : Bool} {input : ByteString} {e : ErrKind} {k : Option Nat}
    (h : parseFrame p crc input = .err e k) :
    (headerStage p input = .error e ∧ k = none) ∨
    headerStage p input = .ok () ∧
      ((lengthStage crc input = .error e ∧ k = none) ∨
       ∃ L, lengthStage crc input = .ok L ∧ k = some (3 + L) ∧ bodyStages crc (bodyStage input L) = .error e) := by
  cases hh : headerStage p input with
  | error e' =>
    cases (parseFrame_of_headerStage hh crc).symm.trans h
    exact .inl ⟨rfl, rfl⟩
  | ok u =>
    refine .inr ⟨rfl, ?_⟩
    cases hl : lengthStage crc input with
    | error e' =>
      cases (parseFrame_of_lengthStage hh hl).symm.trans h
      exact .inl ⟨rfl, rfl⟩
    | ok L =>
      simp only [parseFrame, hh, hl] at h
      split at h <;> cases h
      exact .inr ⟨L, rfl, rfl, by assumption⟩

/-- Settles O40: the stage that failed has the offset it knows, and the errors of its own list. -/
theorem offsetIsMissingOnlyBeforeTheBody : Obligations.OffsetIsMissingOnlyBeforeTheBody := by
  intro p crc input e k h
  rcases parseFrame_error h with ⟨hh, rfl⟩ | ⟨hh, ⟨hl, rfl⟩ | ⟨L, hl, rfl, hb⟩⟩
  · exact ⟨fun _ => ⟨headerStage_error hh, .inl hh⟩, fun hk => absurd rfl hk⟩
  · exact ⟨fun _ => ⟨lengthStage_error hl, .inr ⟨hh, hl⟩⟩, fun hk => absurd rfl hk⟩
  · exact ⟨nofun, fun _ => ⟨bodyStages_error hb, L, hh, hl, rfl, hb⟩⟩

/-! ## Laid-out frames -/

/-- A frame with the header, a length byte in range and the bytes it declares is laid out. -/
theorem IsFront.of_drop {p : Config.Params} {crc : Bool} {L : Byte} {body rest input : ByteString}
    (hhdr : input.take 2 = be 2 p.header.toNat) (hL : input[2]? = some L) (hmin : minLen crc ≤ L.toNat)
    (hdrop : input.drop 3 = body ++ rest) (hlen : body.length = L.toNat) : IsFront p crc L body rest input where
  input := by
    obtain ⟨h2, rfl⟩ := List.getElem?_eq_some_iff.1 hL
    rw [← hhdr, ← hdrop, List.getElem_cons_drop, List.take_append_drop]
  length := hlen
  min := hmin

theorem IsFront.getElem?_two {p : Config.Params} {crc : Bool} {L : Byte} {body rest input : ByteString}
    (hf : IsFront p crc L body rest input) : input[2]? = some L := by
  rw [hf.input, be_two]
  rfl

theorem IsFront.le_length {p : Config.Params} {crc : Bool} {L : Byte} {body rest input : ByteString}
    (hf : IsFront p crc L body rest input) : 3 + L.toNat ≤ input.length := by
  have hlen := hf.length
  simp only [hf.input, List.length_append, be_length, List.length_cons]
  omega

/-- The bytes behind the declared length may be any (R241). -/
theorem IsFront.take_append {p : Config.Params} {crc : Bool} {L : Byte} {body rest input : ByteString}
    (hf : IsFront p crc L body rest input) (rest' : ByteString) :
    IsFront p crc L body rest' (input.take (3 + L.toNat) ++ rest') where
  input := by
    rw [hf.input, be_two, ← hf.length]
    simp [Nat.add_comm 3]
  length := hf.length
  min := hf.min

/-- Settles O39: a reported offset is that of a laid-out frame, and what follows the frame takes no part in its layout. -/
theorem remainderIsFixedByTheDeclaredLength : Obligations.RemainderIsFixedByTheDeclaredLength := by
  intro p crc input k h
  obtain ⟨L, body, rest, hf, rfl⟩ := parseFrame_offset h
  exact ⟨⟨L, hf.getElem?_two, rfl⟩, hf.le_length, fun rest' => by rw [(hf.take_append rest').parseFrame, hf.parseFrame]⟩

/-- A laid-out frame the parser takes passes stages 4 and 5. -/
theorem IsFront.bodyStages_ok {p : Config.Params} {crc : Bool} {L : Byte} {body rest input w : ByteString}
    {i : WireInstr} {k : Nat} (hf : IsFront p crc L body rest input) (h : Machine.parseFrame p crc input = .ok i w k) :
    bodyStages crc body = .ok (i, w) := by
  rw [hf.parseFrame] at h
  split at h <;> cases h
  assumption

/-- A laid-out frame the parser rejects fails at stage 4 or 5. -/
theorem IsFront.bodyStages_error {p : Config.Params} {crc : Bool} {L : Byte} {body rest input : ByteString}
    {e : ErrKind} {k : Option Nat} (hf : IsFront p crc L body rest input)
    (h : Machine.parseFrame p crc input = .err e k) : bodyStages crc body = .error e := by
  rw [hf.parseFrame] at h
  split at h <;> cases h
  assumption

/-- The CRC stage takes off the trailer it asks for: the data's own with CRC on, none with CRC off (R235). -/
theorem crcStage_own_trailer {crc : Bool} {data trailer : ByteString} (hon : crc = true → trailer = le2 (crc16 data))
    (hoff : crc = false → trailer = []) : crcStage crc (data ++ trailer) = .ok data := by
  have htrailer : trailer = crcTrailer crc data := by
    cases crc with
    | false => exact hoff rfl
    | true => exact hon rfl
  rw [htrailer, crcStage_append_crcTrailer]

/-- Settles O37: the first two stages by the length and the bytes of the input, the later ones on the laid-out frame. -/
theorem parserStagesInOrder : Obligations.ParserStagesInOrder := by
  intro p crc input
  refine ⟨fun hlen => ?_, fun hlen hne => ?_, fun hlen hhdr => ?_, fun L hL hhdr => ⟨fun hlow => ?_, fun hmin hshort => ?_,
    fun hmin data lo hi rest hdrop hlen hon hbad => ?_, fun hmin data trailer rest hdrop hlen hon hoff => ?_⟩⟩
  · exact parseFrame_of_headerStage (headerStage_short hlen p) crc
  · exact parseFrame_of_headerStage (headerStage_mismatch hlen hne) crc
  · exact parseFrame_of_lengthStage (headerStage_match hhdr) (lengthStage_missing hlen crc)
  · exact parseFrame_of_lengthStage (headerStage_match hhdr) (lengthStage_tooLow hL hlow)
  · exact parseFrame_of_lengthStage (headerStage_match hhdr) (lengthStage_short hL hmin hshort)
  · have hf : IsFront p crc L (data ++ [lo, hi]) rest input :=
      .of_drop hhdr hL hmin (by rw [hdrop, List.append_assoc]; rfl) (by rw [← hlen, List.length_append]; rfl)
    subst hon
    rw [hf.parseFrame, bodyStages, crcStage_trailer, if_neg hbad]
  · have hf : IsFront p crc L (data ++ trailer) rest input :=
      .of_drop hhdr hL hmin hdrop (by rw [← hlen, List.length_append])
    rw [hf.parseFrame, bodyStages, crcStage_own_trailer hon hoff]
    refine ⟨fun e he => ?_, fun i n hok => ?_⟩
    · simp only [bodyDecode, he]
    · simp only [bodyDecode, hok]

/-! ## The commands -/

/-- Settles O9: the wire rows are received, and a reception writes the frame handle and the outcome. -/
theorem wireInstructionIsReceivedAsFrameHandle : Obligations.WireInstructionIsReceivedAsFrameHandle := exec_toInstr

/-- Settles O10: both load the frame handle from the parser with the instruction and its window. -/
theorem parsedFrameIsItsInstructionReceived : Obligations.ParsedFrameIsItsInstructionReceived := by
  intro s crc input i w k hp
  refine ⟨_, _, execRxParse_eq crc input s, exec_toInstr i _, ?_⟩
  rw [hp]
  exact ⟨rfl, rfl, rfl, rfl, rfl⟩

/-- Settles O38, by cases of the parse: its frame handle and its reply are all that either command writes. -/
theorem parseCommandsWriteOnlyTheFrameHandle : Obligations.ParseCommandsWriteOnlyTheFrameHandle := by
  intro s crc input
  have hrx := execRxParse_eq crc input s
  have hrem := execRxParseRem_eq crc input s
  refine ⟨(s.afterParse (parseFrame s.params crc input)).dec, ?_⟩
  generalize parseFrame s.params crc input = r at hrx hrem ⊢
  constructor
  · rintro i w k rfl
    exact ⟨rfl, hrx, hrem⟩
  · rintro e k rfl
    exact ⟨rfl, hrx, hrem⟩

end Sys2Proof.Machine
end

section
/-! SUPPORT. The accumulator on a frame the parser lays out (46_accumulator.md R252 to R257): the header and the length
byte open its body, the body fills the buffer, and stages 4 and 5 decide what comes out, as they do in the parser
(45_frame_parser.md R230, R231). -/

namespace Sys2Proof.Machine

/-- What a feed that completes a body at offset `k` reports of stages 4 and 5 (R251, R257). -/
def AccFeed.ofBody (k : Nat) : Except ErrKind (WireInstr × ByteString) → AccFeed
  | .ok (i, w) => .done i w k
  | .error e => .err e k

/-- A byte that completes the body ends the feed with what stages 4 and 5 give. -/
theorem AccUnit.feed_complete {p : Config.Params} {a c : AccUnit} {b : Byte} (h : a.step p b = c.complete) (j : Nat)
    (rest : ByteString) :
    a.feed p j (b :: rest) = (c.toEmpty, .ofBody (j + 1) (bodyStages c.crc (c.buf.take c.len.toNat))) := by
  unfold AccUnit.complete at h
  cases hb : bodyStages c.crc (c.buf.take c.len.toNat) <;> rw [hb] at h <;> simp only [AccUnit.feed, h] <;> rfl

/-- The accumulator behind a length byte it takes: the whole body is awaited (R255). -/
def AccUnit.awaiting (L : Byte) (a : AccUnit) : AccUnit := { a with len := L, widx := 0, state := .payloadByte L.toNat }

theorem AccUnit.awaiting_inv {p : Config.Params} {L : Byte} {a : AccUnit} (hmin : minLen a.crc ≤ L.toNat)
    (hcap : L.toNat ≤ p.accCap) : (a.awaiting L).Inv p := by
  have hpos : 1 ≤ minLen a.crc := by cases a.crc <;> decide
  exact ⟨hpos.trans hmin, Nat.zero_add _, hmin, hcap⟩

/-- The header and a length byte in range open a body (R252, R253, R255). -/
theorem AccUnit.feed_front {p : Config.Params} {L : Byte} {a : AccUnit} (hs : a.state = .empty)
    (hmin : minLen a.crc ≤ L.toNat) (hcap : L.toNat ≤ p.accCap) (j : Nat) (bs : ByteString) :
    a.feed p j (be 2 p.header.toNat ++ L :: bs) = (a.awaiting L).feed p (j + 3) bs := by
  have hlen : ({ a with state := .headerByte2Seen } : AccUnit).lengthByte p L = (a.awaiting L, .more) :=
    (if_neg (Nat.not_lt.2 hmin)).trans (if_neg (Nat.not_lt.2 hcap))
  simp [be_two, AccUnit.feed, AccUnit.step, hs, hlen]

/-- The accumulator in the body behind the length byte `L`, with the bytes `bs` taken (R256). -/
def AccUnit.within (L : Byte) (bs : ByteString) (a : AccUnit) : AccUnit :=
  { a with
    len := L, widx := bs.length, state := .payloadByte (L.toNat - bs.length), buf := bs ++ a.buf.drop bs.length }

@[simp] theorem AccUnit.within_widx (L : Byte) (bs : ByteString) (a : AccUnit) :
    (a.within L bs).widx = bs.length := rfl

@[simp] theorem AccUnit.within_buf (L : Byte) (bs : ByteString) (a : AccUnit) :
    (a.within L bs).buf = bs ++ a.buf.drop bs.length := rfl

/-- Body bytes but for the last are taken (R256). -/
theorem AccUnit.feed_awaiting {p : Config.Params} {L : Byte} {a : AccUnit} {bs : ByteString}
    (hi : (a.awaiting L).Inv p) (hbuf : a.buf.length = p.accCap) (hl : bs.length < L.toNat) (j : Nat) :
    (a.awaiting L).feed p j bs = (a.within L bs, .consumed) := by
  rw [AccUnit.feed_body j bs rfl hi hbuf hl]
  simp [AccUnit.awaiting, AccUnit.within]

/-- With the last byte stored, the body is the front of the buffer (R256, R257). -/
theorem AccUnit.take_store_within {L : Byte} {a : AccUnit} {bs : ByteString} {b : Byte}
    (hl : (bs ++ [b]).length = L.toNat) (hbuf : L.toNat ≤ a.buf.length) :
    ((a.within L bs).store b).buf.take L.toNat = bs ++ [b] := by
  rw [List.length_append, List.length_singleton] at hl
  have hroom : (a.within L bs).widx < (a.within L bs).buf.length := by
    simp only [AccUnit.within_widx, AccUnit.within_buf, List.length_append, List.length_drop]
    omega
  rw [AccUnit.store_buf, bufWrite_eq hroom, AccUnit.within_buf, AccUnit.within_widx, List.take_left, ← hl]
  exact (take_drop_around b _ rfl 0).1

/-- The body behind a length byte is stored whole, and its last byte ends the feed with what stages 4 and 5 give
(R256, R257). -/
theorem AccUnit.feed_whole_body {p : Config.Params} {L : Byte} {a : AccUnit} {body : ByteString}
    (hi : (a.awaiting L).Inv p) (hbuf : a.buf.length = p.accCap) (hl : body.length = L.toNat) (j : Nat)
    (rest : ByteString) :
    ∃ c, (a.awaiting L).feed p j (body ++ rest) = (c, .ofBody (j + L.toNat) (bodyStages a.crc body)) := by
  have ⟨hpos, _, _, hcap⟩ := hi
  obtain ⟨bs, b, rfl⟩ : ∃ bs b, body = bs ++ [b] :=
    body.eq_nil_or_concat'.resolve_left (List.ne_nil_of_length_pos (hl ▸ hpos))
  have hlen : bs.length + 1 = L.toNat := by simpa using hl
  have hfeed := AccUnit.feed_awaiting hi hbuf (bs := bs) (by omega) j
  have hinv : (a.within L bs).Inv p := by simpa only [hfeed] using AccUnit.feed_inv j bs hi
  have hlast : (a.within L bs).step p b = ((a.within L bs).store b).complete :=
    AccUnit.step_last b (congrArg AccState.payloadByte (by omega)) hinv
  have hbody : ((a.within L bs).store b).buf.take ((a.within L bs).store b).len.toNat = bs ++ [b] :=
    AccUnit.take_store_within hl (hcap.trans hbuf.ge)
  have hend := AccUnit.feed_complete hlast (j + bs.length) rest
  rw [hbody, Nat.add_assoc, hlen] at hend
  rw [List.append_assoc, AccUnit.feed_append, hfeed]
  exact ⟨_, hend⟩

/-- A laid-out frame fed to the empty accumulator gives what stages 4 and 5 give, when its length fits. -/
theorem IsFront.feed {p : Config.Params} {L : Byte} {a : AccUnit} {body rest input : ByteString}
    (hf : IsFront p a.crc L body rest input) (hs : a.state = .empty) (hbuf : a.buf.length = p.accCap)
    (hcap : L.toNat ≤ p.accCap) :
    ∃ c, a.feed p 0 input = (c, .ofBody (3 + L.toNat) (bodyStages a.crc body)) := by
  obtain ⟨c, hc⟩ := AccUnit.feed_whole_body (AccUnit.awaiting_inv hf.min hcap) hbuf hf.length 3 rest
  exact ⟨c, by rw [hf.input, AccUnit.feed_front hs hf.min hcap, hc]⟩

/-- Settles O47: a parse with an offset is of a laid-out frame, on which the parser and the accumulator both give what
stages 4 and 5 give. -/
theorem accumulatorAgreesWithParser : Obligations.AccumulatorAgreesWithParser := by
  intro s input k hinv hinit hempty hk
  refine ⟨fun i w hp => ?_, fun e hp => ?_⟩
  · obtain ⟨L, body, rest, hf, rfl⟩ := parseFrame_offset (.inl ⟨i, w, hp⟩)
    obtain ⟨c, hc⟩ := hf.feed hempty hinv.memory.2 (by omega)
    rw [hf.bodyStages_ok hp] at hc
    exact ⟨_, (execAccFeed_eq hinit input).trans (by rw [hc]; rfl), rfl, rfl⟩
  · obtain ⟨L, body, rest, hf, rfl⟩ := parseFrame_offset (.inr ⟨e, hp⟩)
    obtain ⟨c, hc⟩ := hf.feed hempty hinv.memory.2 (by omega)
    rw [hf.bodyStages_error hp] at hc
    exact ⟨_, (execAccFeed_eq hinit input).trans (by rw [hc]; rfl), rfl⟩

end Sys2Proof.Machine
end

section
/-! SUPPORT. The accumulator byte by byte and its commands (46_accumulator.md R250 to R260): one equation per state of a
header or length byte, the bytes of the frame in progress, and the next state of each command. -/

namespace Sys2Proof.Machine

/-! ## Header and length bytes -/

/-- A byte in state `Empty` (R252). -/
theorem AccUnit.step_empty {p : Config.Params} {a : AccUnit} {hi lo : Byte} (b : Byte) (hs : a.state = .empty)
    (hp : be 2 p.header.toNat = [hi, lo]) :
    a.step p b = if b = hi then ({ a with state := .headerByte1Seen }, .more) else (a.toEmpty, .err .badHeader) := by
  rw [be_two, List.cons.injEq] at hp
  rw [AccUnit.step, hs, ← hp.1]
  rfl

/-- A byte in state `HeaderByte1Seen` (R253). -/
theorem AccUnit.step_headerByte1Seen {p : Config.Params} {a : AccUnit} {hi lo : Byte} (b : Byte)
    (hs : a.state = .headerByte1Seen) (hp : be 2 p.header.toNat = [hi, lo]) :
    a.step p b = if b = lo then ({ a with state := .headerByte2Seen }, .more) else (a.toEmpty, .err .badHeader) := by
  rw [be_two, List.cons.injEq, List.cons.injEq] at hp
  rw [AccUnit.step, hs, ← hp.2.1]
  rfl

/-- A byte in state `HeaderByte2Seen`, the length (R255). -/
theorem AccUnit.step_headerByte2Seen {p : Config.Params} {a : AccUnit} (b : Byte) (hs : a.state = .headerByte2Seen) :
    a.step p b =
      if b.toNat < minLen a.crc then (a.toEmpty, .err .badLen)
      else if p.accCap < b.toNat then (a.toEmpty, .err .tooLarge)
      else (a.awaiting b, .more) := by
  rw [AccUnit.step, hs]
  rfl

/-- Settles O43, by the state's own equation, with the header's two bytes spelt out. -/
theorem headerAndLengthBytes : Obligations.HeaderAndLengthBytes := by
  intro p b a
  refine ⟨fun hs => ?_, fun hs => ?_, fun hs => a.step_headerByte2Seen b hs⟩
  · rw [a.step_empty b hs (be_two _), be_two]
    simp only [List.cons.injEq, and_true, eq_comm]
    rfl
  · rw [a.step_headerByte1Seen b hs (be_two _), be_two]
    simp only [List.drop_succ_cons, List.drop_zero, List.cons.injEq, and_true, eq_comm]
    rfl

/-! ## Whole frames -/

/-- The bytes of the frame in progress, from the header on. -/
def AccUnit.taken (p : Config.Params) (a : AccUnit) : ByteString :=
  match a.state with
  | .empty => []
  | .headerByte1Seen => (be 2 p.header.toNat).take 1
  | .headerByte2Seen => be 2 p.header.toNat
  | .payloadByte _ => be 2 p.header.toNat ++ a.len :: a.buf.take a.widx

theorem AccUnit.taken_empty {p : Config.Params} {a : AccUnit} (hs : a.state = .empty) : a.taken p = [] := by
  rw [AccUnit.taken, hs]

/-- A stored byte is the last of the buffer's written front (R256). -/
theorem AccUnit.take_store {a : AccUnit} (b : Byte) (h : a.widx < a.buf.length) :
    (a.store b).buf.take (a.widx + 1) = a.buf.take a.widx ++ [b] := by
  rw [AccUnit.store_buf, bufWrite_eq h]
  exact (take_drop_around b _ (List.length_take_of_le h.le) 0).1

/-- The input is one frame, whole, that the parser takes and the accumulator has room for. -/
structure IsWholeFrame (p : Config.Params) (crc : Bool) (input : ByteString) (i : WireInstr) (w : ByteString) :
    Prop where
  parse : parseFrame p crc input = .ok i w input.length
  fits : input.length ≤ 3 + p.accCap

/-- With the last body byte the frame in progress is laid out, and the buffer's front is its body. -/
theorem AccUnit.isFront_of_last {p : Config.Params} {a : AccUnit} (b : Byte) (hs : a.state = .payloadByte 1)
    (hi : a.Inv p) (hbuf : a.buf.length = p.accCap) :
    IsFront p a.crc a.len ((a.store b).buf.take a.len.toNat) [] (a.taken p ++ [b]) := by
  rw [AccUnit.Inv, hs] at hi
  obtain ⟨-, hwidx, hmin, hcap⟩ := hi
  refine ⟨?_, ?_, hmin⟩
  · rw [← hwidx, a.take_store b (by omega), AccUnit.taken, hs]
    simp
  · rw [List.length_take, AccUnit.store_buf, bufWrite_length]
    omega

/-- A body that passes stages 4 and 5 with its last byte makes the frame in progress a whole one (R257). -/
theorem AccUnit.isWholeFrame_of_last {p : Config.Params} {a : AccUnit} {b : Byte} {i : WireInstr} {w : ByteString}
    (hs : a.state = .payloadByte 1) (hi : a.Inv p) (hbuf : a.buf.length = p.accCap)
    (hbody : bodyStages a.crc ((a.store b).buf.take a.len.toNat) = .ok (i, w)) :
    IsWholeFrame p a.crc (a.taken p ++ [b]) i w := by
  have hf := a.isFront_of_last b hs hi hbuf
  have hlen : (a.taken p ++ [b]).length = 3 + a.len.toNat := by
    rw [hf.input, List.append_nil, List.length_append, be_length, List.length_cons, hf.length]
    omega
  rw [AccUnit.Inv, hs] at hi
  obtain ⟨-, -, -, hcap⟩ := hi
  exact ⟨by rw [hf.parseFrame, hbody, hlen], by omega⟩

/-- What a byte makes of the frame in progress, `taken` with the byte: it goes on, it fails with an error other than
`BufferFull`, or it is whole. -/
def AccEvent.Extends (p : Config.Params) (crc : Bool) (taken : ByteString) (a' : AccUnit) : AccEvent → Prop
  | .more => a'.taken p = taken
  | .err e => e ≠ .bufferFull
  | .done i w => IsWholeFrame p crc taken i w

/-- The inversion lemma of one byte in terms of the frame in progress (R252 to R257, R259). -/
theorem AccUnit.step_extends {p : Config.Params} {a : AccUnit} (b : Byte) (hi : a.Inv p)
    (hbuf : a.buf.length = p.accCap) : (a.step p b).2.Extends p a.crc (a.taken p ++ [b]) (a.step p b).1 := by
  cases hs : a.state with
  | empty =>
    rw [a.step_empty b hs (be_two _)]
    split
    · simp_all [AccEvent.Extends, AccUnit.taken, be_two]
    · exact nofun
  | headerByte1Seen =>
    rw [a.step_headerByte1Seen b hs (be_two _)]
    split
    · simp_all [AccEvent.Extends, AccUnit.taken, be_two]
    · exact nofun
  | headerByte2Seen =>
    rw [a.step_headerByte2Seen b hs]
    split
    · exact nofun
    · split
      · exact nofun
      · simp [AccEvent.Extends, AccUnit.taken, AccUnit.awaiting, hs]
  | payloadByte rem =>
    have ⟨hrem, hwidx, _, hcap⟩ : 1 ≤ rem ∧ a.widx + rem = a.len.toNat ∧ minLen a.crc ≤ a.len.toNat ∧
        a.len.toNat ≤ p.accCap := by simpa only [AccUnit.Inv, hs] using hi
    by_cases hr : 2 ≤ rem
    · rw [a.step_body b hs hi hr]
      have htake := a.take_store b (by omega)
      simp only [AccEvent.Extends, AccUnit.taken, hs, AccUnit.store_len, AccUnit.store_widx, htake, List.append_assoc,
        List.cons_append]
    · obtain rfl : rem = 1 := by omega
      rw [a.step_last b hs hi, AccUnit.complete]
      split
      · exact AccUnit.isWholeFrame_of_last hs hi hbuf (by assumption)
      · rename_i e hbody
        rintro rfl
        simpa using bodyStages_error hbody

/-- The inversion lemma of a feed in terms of the frame in progress: a feed that fails does so with an error other than
`BufferFull`, and a frame it reports is whole with the bytes the feed has taken (R251, R256, R259). -/
theorem AccUnit.feed_extends {p : Config.Params} {a : AccUnit} (j : Nat) (bs : ByteString) (hi : a.Inv p)
    (hbuf : a.buf.length = p.accCap) :
    (a.feed p j bs).2 = .consumed ∨
    (∃ e k, (a.feed p j bs).2 = .err e k ∧ e ≠ .bufferFull) ∨
    ∃ i w k, (a.feed p j bs).2 = .done i w (j + k) ∧ k ≤ bs.length ∧
      IsWholeFrame p a.crc (a.taken p ++ bs.take k) i w := by
  induction bs generalizing j a with
  | nil => exact .inl rfl
  | cons b bs ih =>
    have hext := a.step_extends b hi hbuf
    have hinv := AccUnit.step_inv b hi
    have hsetup := (a.step_spec p b).1
    obtain ⟨a', ev, hstep⟩ : ∃ a' ev, a.step p b = (a', ev) := ⟨_, _, rfl⟩
    rw [hstep] at hext hinv hsetup
    simp only [AccUnit.feed, hstep]
    cases ev with
    | more =>
      refine (ih (j + 1) hinv (hsetup.length.trans hbuf)).imp_right (.imp_right ?_)
      rintro ⟨i, w, k, hd, hk, hw⟩
      rw [show a'.taken p = a.taken p ++ [b] from hext, hsetup.crc, List.append_assoc] at hw
      exact ⟨i, w, k + 1, by rw [hd, Nat.add_assoc, Nat.add_comm 1], Nat.succ_le_succ hk, hw⟩
    | err e => exact .inr (.inl ⟨e, _, rfl, hext⟩)
    | done i w => exact .inr (.inr ⟨i, w, 1, rfl, Nat.succ_pos _, hext⟩)

/-- A feed of the empty accumulator that reports a frame at offset `k` has taken a whole one (R259). -/
theorem AccUnit.isWholeFrame_of_feed {p : Config.Params} {a a' : AccUnit} {bs w : ByteString} {i : WireInstr} {k : Nat}
    (hi : a.Inv p) (hbuf : a.buf.length = p.accCap) (hs : a.state = .empty)
    (h : a.feed p 0 bs = (a', .done i w k)) : k ≤ bs.length ∧ IsWholeFrame p a.crc (bs.take k) i w := by
  rcases AccUnit.feed_extends 0 bs hi hbuf with hc | ⟨e, k', he, -⟩ | ⟨i', w', k', hd, hk, hw⟩
  · cases (congrArg Prod.snd h).symm.trans hc
  · cases (congrArg Prod.snd h).symm.trans he
  · rw [h, Nat.zero_add] at hd
    cases hd
    rw [AccUnit.taken_empty hs] at hw
    exact ⟨hk, hw⟩

/-- Settles O48: the frame reported is whole with the bytes taken, and the frame handle holds its window. -/
theorem noPartialFrameEscapes : Obligations.NoPartialFrameEscapes := by
  intro s t input i k hinv hempty hexec hreply
  rcases execAccFeed_cases hexec with ⟨-, rfl⟩ | ⟨-, a, ⟨-, rfl⟩ | ⟨e, k', -, rfl⟩ | ⟨i', w, k', hf, rfl⟩⟩ <;>
    cases hreply
  obtain ⟨hk, hparse, hfits⟩ := AccUnit.isWholeFrame_of_feed hinv.acc hinv.memory.2 hempty hf
  rw [List.length_take_of_le hk] at hparse hfits
  exact ⟨hparse, hfits⟩

/-- Settles O50: no feed from an invariant state fails with `BufferFull`. -/
theorem accumulatorNeverReportsBufferFull : Obligations.AccumulatorNeverReportsBufferFull := by
  intro s t input k hinv hexec hreply
  have hext := AccUnit.feed_extends 0 input hinv.acc hinv.memory.2
  rcases execAccFeed_cases hexec with ⟨-, rfl⟩ | ⟨-, a, ⟨-, rfl⟩ | ⟨e, k', hf, rfl⟩ | ⟨i, w, k', -, rfl⟩⟩ <;>
    cases hreply
  simp [hf] at hext

/-! ## The commands -/

/-- `invalidate_acc_window()` writes the decode unit alone, and that only behind an accumulator window
(70_reset_and_hazards.md R320). -/
theorem State.invalidateAccWindow_writes_dec (s : State) :
    ∃ d : DecUnit, s.invalidateAccWindow = { s with dec := d } ∧
      (s.AccWindow → d = { s.dec with state := .empty, win := [], pos := 0, instr := none }) ∧
      (¬s.AccWindow → d = s.dec) :=
  ⟨_, s.invalidateAccWindow_eq, fun h => if_pos h, fun h => if_neg h⟩

/-- Settles O42: both commands write the accumulator, the outcome and, by R320, the decode unit. -/
theorem accInitAndResetEmptyTheAccumulator : Obligations.AccInitAndResetEmptyTheAccumulator := by
  intro s crc
  obtain ⟨d, hd, hlent, hown⟩ := s.invalidateAccWindow_writes_dec
  refine ⟨d, hlent, hown, ?_, fun hinit => ?_, fun hinit => if_pos hinit⟩
  · simp only [exec, execAccInit, hd]
    rfl
  · have hexec : exec .accReset s = _ := if_neg (by rw [hinit]; nofun)
    rw [hexec, hd]
    rfl

/-- Settles O44: the feed of a body short of its last byte takes everything. -/
theorem bodyBytesAreSwallowed : Obligations.BodyBytesAreSwallowed := by
  intro s rem bs hinv hinit hstate hlen
  have hfeed := AccUnit.feed_body 0 bs hstate hinv.acc hinv.memory.2 hlen
  exact ⟨_, (execAccFeed_eq hinit bs).trans (by rw [hfeed]), rfl, rfl⟩

/-- Settles O45, by the three outcomes of the accumulator's feed. -/
theorem accFeedCompletes : Obligations.AccFeedCompletes := by
  intro s input
  refine ⟨fun hinit => if_pos hinit, fun hinit => ?_⟩
  obtain ⟨d, hd, hdec⟩ := s.invalidateAccWindow_writes_dec
  obtain ⟨hsetup, hev⟩ := AccUnit.feed_spec s.params 0 input s.acc
  have hexec : exec (.accFeed input) s = _ := execAccFeed_eq hinit input
  obtain ⟨a, ev, hfeed⟩ : ∃ a ev, s.acc.feed s.params 0 input = (a, ev) := ⟨_, _, rfl⟩
  rw [hfeed] at hexec hsetup hev
  rw [hd] at hexec
  have hinit' : a.init = true := hsetup.init.trans hinit
  rcases hev with rfl | ⟨⟨hstate, hwidx⟩, k, hlo, hhi, ⟨i, w, rfl⟩ | ⟨e, he, rfl⟩⟩ <;>
    refine ⟨_, hexec, hinit', hsetup.crc, rfl, rfl, rfl, rfl, rfl, ⟨rfl, rfl⟩, ?_⟩
  · exact .inl ⟨rfl, hdec⟩
  · exact .inr (.inr ⟨i, k, w, rfl, by omega, by omega, hstate, hwidx, rfl⟩)
  · exact .inr (.inl ⟨e, k, rfl, by omega, by omega, he, hstate, hwidx, hdec⟩)

/-! ## Resynchronisation -/

/-- A byte other than `HDR_HI` costs the empty accumulator one error (R252). -/
theorem AccUnit.feed_garbage {p : Config.Params} {a : AccUnit} {hi lo g : Byte} (hs : a.state = .empty)
    (hp : be 2 p.header.toNat = [hi, lo]) (hg : g ≠ hi) (bs : ByteString) :
    a.feed p 0 (g :: bs) = (a.toEmpty, .err .badHeader 1) := by
  simp only [AccUnit.feed, a.step_empty g hs hp, if_neg hg]

/-- A second `HDR_HI` costs the accumulator the header it has begun, and is not looked at again (R253). -/
theorem AccUnit.feed_second_hi {p : Config.Params} {a : AccUnit} {hi lo : Byte} (hs : a.state = .empty)
    (hp : be 2 p.header.toNat = [hi, lo]) (hne : hi ≠ lo) (bs : ByteString) :
    a.feed p 0 (hi :: hi :: bs) = (a.toEmpty, .err .badHeader 2) := by
  have hfirst : a.step p hi = ({ a with state := .headerByte1Seen }, .more) :=
    (a.step_empty hi hs hp).trans (if_pos rfl)
  have hsecond : ({ a with state := .headerByte1Seen } : AccUnit).step p hi = (a.toEmpty, .err .badHeader) :=
    (AccUnit.step_headerByte1Seen hi rfl hp).trans (if_neg hne)
  simp only [AccUnit.feed, hfirst, hsecond]

/-- An ACC_FEED whose feed fails takes back an accumulator window and reports the error (R251). -/
theorem exec_accFeed_of_err {s : State} {a : AccUnit} {input : ByteString} {e : ErrKind} {k : Nat}
    (hinit : s.acc.init = true) (h : s.acc.feed s.params 0 input = (a, .err e k)) :
    exec (.accFeed input) s =
      .next { s.invalidateAccWindow with acc := a, reply := some (.err e (.plain k)) } :=
  (execAccFeed_eq hinit input).trans (by rw [h])

/-- Settles O49: a byte that is no `HDR_HI` leaves the accumulator empty for the frame behind it; a `HDR_HI` takes the
frame's own first byte with it. -/
theorem resynchronisationAfterOneGarbageByte : Obligations.ResynchronisationAfterOneGarbageByte := by
  intro s hi lo hinv hinit hempty hhdr
  refine ⟨fun g F i w hg hparse hfits => ?_, fun rest hne => ?_⟩
  · have hexec := exec_accFeed_of_err hinit (AccUnit.feed_garbage hempty hhdr hg F)
    have hagree := accumulatorAgreesWithParser _ F F.length (execAccFeed_inv hinv hexec) hinit rfl
      (by simpa using hfits)
    obtain ⟨u, hu, hreply, hdec⟩ := hagree.1 i w (by simpa using hparse)
    exact ⟨_, u, hexec, rfl, hu, hreply, by rw [hdec]⟩
  · have hexec := exec_accFeed_of_err hinit (AccUnit.feed_second_hi hempty hhdr hne (lo :: rest))
    have hgarbage := AccUnit.feed_garbage s.acc.toEmpty_state hhdr hne.symm rest
    rw [← s.invalidateAccWindow_params] at hgarbage
    exact ⟨_, _, hexec, rfl, exec_accFeed_of_err hinit hgarbage, rfl, rfl⟩

end Sys2Proof.Machine
end

section
/-! SUPPORT. Chunking invariance of the accumulator (46_accumulator.md R262): what a host sees of a byte string is
decided byte by byte, so that neither the commands it comes in nor the frame handle has a say. -/

namespace Sys2Proof.Machine

/-! ## Byte by byte, without commands -/

/-- What a host sees of one byte's event, with `k` bytes of the whole sequence consumed by then. -/
def AccEvent.seen (k : Nat) : AccEvent → List Seen
  | .more => []
  | .err e => [.err e k]
  | .done i w => [.frame i w k]

/-- The accumulator after the bytes, whatever events they give. -/
def AccUnit.after (p : Config.Params) (bs : ByteString) (a : AccUnit) : AccUnit :=
  bs.foldl (fun a b => (a.step p b).1) a

/-- The events of the bytes one by one, behind `n` bytes of the whole sequence. -/
def AccUnit.seen (p : Config.Params) : (n : Nat) → ByteString → AccUnit → List Seen
  | _, [], _ => []
  | n, b :: bs, a => (a.step p b).2.seen (n + 1) ++ AccUnit.seen p (n + 1) bs (a.step p b).1

@[simp] theorem AccUnit.after_nil (p : Config.Params) (a : AccUnit) : a.after p [] = a := rfl

@[simp] theorem AccUnit.after_cons (p : Config.Params) (b : Byte) (bs : ByteString) (a : AccUnit) :
    a.after p (b :: bs) = (a.step p b).1.after p bs := rfl

theorem AccUnit.after_append (p : Config.Params) (xs ys : ByteString) (a : AccUnit) :
    a.after p (xs ++ ys) = (a.after p xs).after p ys := List.foldl_append

theorem AccUnit.seen_append (p : Config.Params) (n : Nat) (xs ys : ByteString) (a : AccUnit) :
    a.seen p n (xs ++ ys) = a.seen p n xs ++ (a.after p xs).seen p (n + xs.length) ys := by
  induction xs generalizing n a with
  | nil => rfl
  | cons b xs ih =>
    simp only [List.cons_append, AccUnit.seen, ih, List.append_assoc, AccUnit.after_cons, List.length_cons]
    rw [Nat.add_assoc n 1, Nat.add_comm 1]

theorem AccUnit.after_init (p : Config.Params) (bs : ByteString) (a : AccUnit) : (a.after p bs).init = a.init := by
  induction bs generalizing a with
  | nil => rfl
  | cons b bs ih => exact (ih _).trans (a.step_spec p b).1.init

/-- A feed takes all its bytes and nothing is seen, or it stops behind the bytes `xs`, at the one thing seen of them
(R251, R261). -/
theorem AccUnit.feed_stops (p : Config.Params) (j : Nat) (bs : ByteString) (a : AccUnit) :
    (a.feed p j bs = (a.after p bs, .consumed) ∧ ∀ n, a.seen p n bs = []) ∨
    ∃ xs ys, bs = xs ++ ys ∧ xs ≠ [] ∧
      ((∃ e, a.feed p j bs = (a.after p xs, .err e (j + xs.length)) ∧
          ∀ n, a.seen p n xs = [.err e (n + xs.length)]) ∨
       ∃ i w, a.feed p j bs = (a.after p xs, .done i w (j + xs.length)) ∧
          ∀ n, a.seen p n xs = [.frame i w (n + xs.length)]) := by
  induction bs generalizing j a with
  | nil => exact .inl ⟨rfl, fun _ => rfl⟩
  | cons b bs ih =>
    obtain ⟨a', ev, hstep⟩ : ∃ a' ev, a.step p b = (a', ev) := ⟨_, _, rfl⟩
    cases ev with
    | more =>
      have hadd : ∀ m (xs : ByteString), m + 1 + xs.length = m + (b :: xs).length := fun m xs => by
        rw [List.length_cons, Nat.add_assoc, Nat.add_comm 1]
      have hfeed : a.feed p j (b :: bs) = a'.feed p (j + 1) bs := by simp only [AccUnit.feed, hstep]
      have hafter : ∀ xs, a.after p (b :: xs) = a'.after p xs := fun xs => by rw [AccUnit.after_cons, hstep]
      have hseen : ∀ n xs, a.seen p n (b :: xs) = a'.seen p (n + 1) xs := fun n xs => by
        simp only [AccUnit.seen, hstep, AccEvent.seen, List.nil_append]
      rcases ih (j + 1) a' with ⟨hf, hs⟩ | ⟨xs, ys, rfl, -, ⟨e, hf, hs⟩ | ⟨i, w, hf, hs⟩⟩
      · exact .inl ⟨by rw [hfeed, hf, hafter], fun n => by rw [hseen, hs]⟩
      · exact .inr ⟨b :: xs, ys, rfl, nofun, .inl ⟨e, by rw [hfeed, hf, hafter, hadd], fun n => by
          rw [hseen, hs, hadd]⟩⟩
      · exact .inr ⟨b :: xs, ys, rfl, nofun, .inr ⟨i, w, by rw [hfeed, hf, hafter, hadd], fun n => by
          rw [hseen, hs, hadd]⟩⟩
    | err e =>
      exact .inr ⟨[b], bs, rfl, nofun, .inl ⟨e, by simp [AccUnit.feed, hstep], fun n => by
        simp [AccUnit.seen, hstep, AccEvent.seen]⟩⟩
    | done i w =>
      exact .inr ⟨[b], bs, rfl, nofun, .inr ⟨i, w, by simp [AccUnit.feed, hstep], fun n => by
        simp [AccUnit.seen, hstep, AccEvent.seen]⟩⟩

/-! ## The host's loop -/

/-- What a host's loop over the bytes `bs`, from state `s` and behind `n` bytes, has seen and left when it gives `r`. -/
structure Drained (s : State) (n : Nat) (bs : ByteString) (r : List Seen × State) : Prop where
  seen : r.1 = s.acc.seen s.params n bs
  acc : r.2.acc = s.acc.after s.params bs
  params : r.2.params = s.params

theorem Drained.nil (s : State) (n : Nat) : Drained s n [] ([], s) := ⟨rfl, rfl, rfl⟩

theorem Drained.init {s : State} {n : Nat} {bs : ByteString} {r : List Seen × State} (h : Drained s n bs r) :
    r.2.acc.init = s.acc.init := by rw [h.acc, AccUnit.after_init]

/-- Two loops in a row, the second from a state with the accumulator the first has left. -/
theorem Drained.append {s t : State} {n : Nat} {xs ys : ByteString} {seen : List Seen} {r : List Seen × State}
    (h : Drained s n xs (seen, t)) (g : Drained t (n + xs.length) ys r) :
    Drained s n (xs ++ ys) (seen ++ r.1, r.2) where
  seen := by rw [AccUnit.seen_append, ← h.seen, g.seen, h.acc, h.params]
  acc := by rw [AccUnit.after_append, g.acc, h.acc, h.params]
  params := g.params.trans h.params

/-- The loop over one chunk sees the events of its bytes (R262, 70_reset_and_hazards.md R322). -/
theorem drain_drained (fuel n : Nat) (bs : ByteString) (s : State) (hinit : s.acc.init = true)
    (hfuel : bs.length ≤ fuel) : Drained s n bs (drain fuel n bs s) := by
  induction fuel generalizing n bs s with
  | zero =>
    rw [List.length_eq_zero_iff.1 (Nat.le_zero.1 hfuel)]
    exact .nil s n
  | succ fuel ih =>
    cases bs with
    | nil => exact .nil s n
    | cons b bs =>
      have hexec : exec (.accFeed (b :: bs)) s = execAccFeed (b :: bs) s := rfl
      rw [execAccFeed_eq hinit] at hexec
      rw [drain, hexec]
      rcases s.acc.feed_stops s.params 0 (b :: bs) with ⟨hf, hs⟩ | ⟨xs, ys, hbs, hne, hev⟩
      · rw [hf]
        exact ⟨(hs n).symm, rfl, s.invalidateAccWindow_params⟩
      · have hys : ys.length ≤ fuel := by
          have := List.length_pos_of_ne_nil hne
          have := congrArg List.length hbs
          simp only [List.length_append, List.length_cons] at this hfuel
          omega
        have hi : (s.acc.after s.params xs).init = true := (AccUnit.after_init ..).trans hinit
        rcases hev with ⟨e, hf, hs⟩ | ⟨i, w, hf, hs⟩ <;> rw [hf, hbs] <;>
          simp only [Nat.zero_add, List.drop_left]
        · refine Drained.append (seen := [_]) ?_ (ih _ ys _ hi hys)
          exact ⟨(hs n).symm, rfl, s.invalidateAccWindow_params⟩
        · refine Drained.append (seen := [_]) ?_ (ih _ ys _ hi hys)
          exact ⟨(hs n).symm, rfl, rfl⟩

/-- The loop over a sequence of chunks sees the events of the whole sequence (R262). -/
theorem drainChunks_drained (n : Nat) (chunks : List ByteString) (s : State) (hinit : s.acc.init = true) :
    Drained s n chunks.flatten (drainChunks n chunks s) := by
  induction chunks generalizing n s with
  | nil => exact .nil s n
  | cons c cs ih =>
    have hc := drain_drained c.length n c s hinit le_rfl
    exact hc.append (ih (n + c.length) _ (hc.init.trans hinit))

/-- Settles O46: in chunks or whole, the loop sees the events of the sequence byte by byte. -/
theorem chunkingDoesNotMatter : Obligations.ChunkingDoesNotMatter := by
  intro s chunks hinit
  have hchunks := drainChunks_drained 0 chunks s hinit
  have hwhole := drain_drained chunks.flatten.length 0 chunks.flatten s hinit le_rfl
  exact ⟨hchunks.seen.trans hwhole.seen.symm, hchunks.acc.trans hwhole.acc.symm⟩

end Sys2Proof.Machine
end

section
/-! SUPPORT. The outcomes of the instructions (60_exceptions.md R281 to R290): every instruction ends with one, when it
is a refusal, and which outcome a status byte stands for. -/

namespace Sys2Proof.Machine

/-! ## Every instruction ends with an outcome (R282, R283) -/

/-- The command goes on, to a state that holds its outcome. -/
def EndsWithReply (o : Host.Outcome State Fault Refusal) : Prop := ∃ t r, o = .next t ∧ t.reply = some r

theorem EndsWithReply.next {t : State} {r : Reply} (h : t.reply = some r) : EndsWithReply (.next t) := ⟨t, r, rfl, h⟩

theorem execTxOpen_endsWithReply (cap : Byte) (i : WireInstr) (s : State) : EndsWithReply (execTxOpen cap i s) := by
  by_cases hi : s.tx.state = .idle
  · by_cases hc : s.params.minBuildCap ≤ cap.toNat
    · cases hw : (TxUnit.fresh s.draws cap).writeFront s.params (s.draws + 1) i with
      | done u => rw [execTxOpen_done hi hc hw]; exact .next rfl
      | failed u e => rw [execTxOpen_failed hi hc hw]; exact .next rfl
    · rw [execTxOpen_badCapacity hi (Nat.lt_of_not_le hc)]; exact .next rfl
  · rw [execTxOpen_busy hi]; exact .next rfl

theorem execTxPush_endsWithReply (v : Value) (s : State) : EndsWithReply (execTxPush v s) := by
  by_cases ho : s.tx.state = .opened
  · cases he : enc s.params s.draws v s.tx with
    | done u => rw [execTxPush_done ho he]; exact .next rfl
    | failed u e => rw [execTxPush_failed ho he]; exact .next rfl
  · rw [execTxPush_refused ho]; exact .next rfl

theorem execTxFinal_endsWithReply (crc : Bool) (s : State) : EndsWithReply (execTxFinal crc s) := by
  by_cases ho : s.tx.state = .opened
  · cases hw : s.tx.writeTrailer s.draws crc with
    | done u => rw [execTxFinal_done ho hw]; exact .next rfl
    | failed u e => rw [execTxFinal_failed ho hw]; exact .next rfl
  · rw [execTxFinal_refused ho]; exact .next rfl

theorem execDecTake_endsWithReply (sh : Shape) (s : State) : EndsWithReply (execDecTake sh s) := by
  by_cases hr : s.dec.state = .ready
  · cases hd : dec s.params sh s.dec.win s.dec.pos with
    | ok vp => rw [execDecTake_ok hr hd]; exact .next rfl
    | error e => rw [execDecTake_error hr hd]; exact .next rfl
  · rw [execDecTake_refused hr]; exact .next rfl

theorem execAccReset_endsWithReply (s : State) : EndsWithReply (execAccReset s) := by
  unfold execAccReset
  split
  · exact .next rfl
  · exact .next rfl

theorem execAccFeed_endsWithReply (input : ByteString) (s : State) : EndsWithReply (execAccFeed input s) := by
  cases hi : s.acc.init with
  | false => rw [execAccFeed, if_pos hi]; exact .next rfl
  | true =>
    rw [execAccFeed_eq hi]
    obtain ⟨a, ev⟩ := s.acc.feed s.params 0 input
    cases ev with
    | consumed | err | done => exact .next rfl

theorem exec_endsWithReply (i : Instr) (s : State) : EndsWithReply (exec i s) := by
  cases i with
  | registerWrite | registerRead | wordWrite | wordRead | curveWrite | dwordWrite | dwordRead
  | crcInit | crcFeed | crcRead | txAbort | decLoad | accInit => exact .next rfl
  | txOpen cap w => exact execTxOpen_endsWithReply cap w s
  | txPush v => exact execTxPush_endsWithReply v s
  | txFinal crc => exact execTxFinal_endsWithReply crc s
  | rxParse crc input => exact ⟨_, _, execRxParse_eq crc input s, rfl⟩
  | rxParseRem crc input => exact ⟨_, _, execRxParseRem_eq crc input s, rfl⟩
  | decTake sh => exact execDecTake_endsWithReply sh s
  | accReset => exact execAccReset_endsWithReply s
  | accFeed input => exact execAccFeed_endsWithReply input s

/-- Settles O52, command by command. -/
theorem everyInstructionEndsWithAnOutcome : Obligations.EveryInstructionEndsWithAnOutcome := exec_endsWithReply

/-! ## Refusals (R290) -/

/-- Settles O53: an instruction is refused with the reason `refusalOf` gives, or there is none and it is carried out. -/
theorem refusedExactlyWhereListed : Obligations.RefusedExactlyWhereListed := by
  intro i s t h
  rcases exec_refused_or_carriedOut h with ⟨r, hr, rfl⟩ | ⟨hnone, hc⟩
  · refine ⟨fun r' hr' => ?_, fun hnone => nomatch hr.symm.trans hnone⟩
    cases hr.symm.trans hr'
    rfl
  · exact ⟨fun r hr => (nomatch hnone.symm.trans hr), fun _ => ⟨hc.outcome, hc.mark⟩⟩

/-! ## Status bytes (R281) -/

/-- The error kind a status byte stands for: the table of R281 read backwards. -/
def kindOfCode (b : Byte) : Option ErrKind :=
  match b.toNat with
  | 0x10 => some .badHeader
  | 0x11 => some .badLen
  | 0x12 => some .tooLarge
  | 0x13 => some .badInstruction
  | 0x14 => some .unexpectedEnd
  | 0x20 => some .badCrc
  | 0x30 => some .badBool
  | 0x31 => some .badEnumDiscriminant
  | 0x32 => some .notYetImplemented
  | 0x33 => some .wontImplement
  | 0x40 => some .bufferFull
  | _ => none

theorem kindOfCode_errCode (e : ErrKind) : kindOfCode (errCode e) = some e := by cases e <;> rfl

theorem errCode_injective : Function.Injective errCode := fun e f h =>
  Option.some.inj (by rw [← kindOfCode_errCode e, h, kindOfCode_errCode f])

/-- A byte that stands for no error kind is no error kind's code. -/
theorem errCode_ne {b : Byte} (h : kindOfCode b = none) (e : ErrKind) : errCode e ≠ b := by
  rintro rfl
  exact nomatch (kindOfCode_errCode e).symm.trans h

theorem statusCode_eq_errCode_iff (r : Reply) (f : ErrKind) : statusCode r = errCode f ↔ ∃ k, r = .err f k := by
  cases r with
  | ok => simpa [statusCode] using (errCode_ne rfl f).symm
  | consumed => simpa [statusCode] using (errCode_ne rfl f).symm
  | err e k => simp [statusCode, errCode_injective.eq_iff]
  | refused => simpa [statusCode] using (errCode_ne rfl f).symm

theorem statusCode_eq_ok_iff (r : Reply) : statusCode r = 0x00 ↔ ∃ out k, r = .ok out k := by
  cases r with
  | ok | consumed | refused => simp [statusCode]
  | err e => simpa [statusCode] using errCode_ne rfl e

theorem statusCode_eq_consumed_iff (r : Reply) : statusCode r = 0x01 ↔ r = .consumed := by
  cases r with
  | ok | consumed | refused => simp [statusCode]
  | err e => simpa [statusCode] using errCode_ne rfl e

theorem statusCode_eq_refused_iff (r : Reply) : statusCode r = 0xFF ↔ ∃ x, r = .refused x := by
  cases r with
  | ok | consumed | refused => simp [statusCode]
  | err e => simpa [statusCode] using errCode_ne rfl e

theorem statusCode_mem (r : Reply) :
    statusCode r ∈ [0x00, 0x01, 0x10, 0x11, 0x12, 0x13, 0x14, 0x20, 0x30, 0x31, 0x32, 0x33, 0x40, 0xFF] := by
  cases r with
  | ok | consumed | refused => simp [statusCode]
  | err e => cases e <;> simp [statusCode, errCode]

/-- Settles O60: each row of the table, the error kinds' rows by the kind. -/
theorem statusCodesTellOutcomesApart : Obligations.StatusCodesTellOutcomesApart :=
  ⟨fun _ _ h => errCode_injective h, fun r =>
    have herr := statusCode_eq_errCode_iff r
    ⟨statusCode_eq_ok_iff r, statusCode_eq_consumed_iff r, herr .badHeader, herr .badLen, herr .tooLarge,
      herr .badInstruction, herr .unexpectedEnd, herr .badCrc, herr .badBool, herr .badEnumDiscriminant,
      herr .notYetImplemented, herr .wontImplement, herr .bufferFull, statusCode_eq_refused_iff r, statusCode_mem r⟩⟩

end Sys2Proof.Machine
end

section
/-! SUPPORT. Reset and hazards (70_reset_and_hazards.md): the reset values (R310, R312), the parameters through every
step (R313), and the accumulator window behind a further accumulator command (R320). -/

namespace Sys2Proof.Machine

/-! ## Reset (R310, R312) -/

/-- A step with a reset next creates the engine anew. -/
theorem step_reset {s : State} {q : List Input} (hq : s.pending = .reset :: q) :
    step s = .next (s.afterRecreate q) := by
  simp only [step, hq, fetch]

/-- Settles O17: each clause reads a field off the engine just created. -/
theorem resetValues : Obligations.ResetValues :=
  ⟨rfl, rfl, rfl, rfl, rfl, rfl, rfl, rfl, rfl, rfl, rfl, rfl⟩

/-- Settles O18: the state a reset leaves is `State.afterRecreate`, whatever the engine was doing. -/
theorem resetKeepsTheRefusedMark : Obligations.ResetKeepsTheRefusedMark := fun s q hq =>
  ⟨s.afterRecreate q, step_reset hq, rfl, rfl, rfl, rfl, rfl, rfl, rfl, rfl, rfl, rfl, rfl, rfl⟩

/-! ## The parameters (R313) -/

/-- No command writes the parameters, from the cases of each. -/
theorem exec_params {i : Instr} {s t : State} (h : exec i s = .next t) : t.params = s.params := by
  cases i with
  | registerWrite | registerRead | wordWrite | wordRead | curveWrite | dwordWrite | dwordRead
  | crcInit | crcFeed | crcRead | txAbort | decLoad =>
    cases h
    rfl
  | txOpen cap w =>
    rcases execTxOpen_cases h with ⟨-, rfl⟩ | ⟨-, -, rfl⟩ | ⟨-, -, ⟨u, -, rfl⟩ | ⟨u, e, -, rfl⟩⟩ <;> rfl
  | txPush v => rcases execTxPush_cases h with ⟨-, rfl⟩ | ⟨-, ⟨u, -, rfl⟩ | ⟨u, e, -, rfl⟩⟩ <;> rfl
  | txFinal crc => rcases execTxFinal_cases h with ⟨-, rfl⟩ | ⟨-, ⟨u, -, rfl⟩ | ⟨u, e, -, rfl⟩⟩ <;> rfl
  | rxParse crc input =>
    rw [(execRxParse_next (.inl h)).1]
    exact s.afterParse_params _
  | rxParseRem crc input =>
    rw [(execRxParse_next (.inr h)).1]
    exact s.afterParse_params _
  | decTake sh => rcases execDecTake_cases h with ⟨-, rfl⟩ | ⟨-, ⟨v, p, -, rfl⟩ | ⟨e, -, rfl⟩⟩ <;> rfl
  | accInit crc =>
    cases h
    exact s.invalidateAccWindow_params
  | accReset =>
    rcases execAccReset_cases h with ⟨-, rfl⟩ | ⟨-, rfl⟩
    · rfl
    · exact s.invalidateAccWindow_params
  | accFeed input =>
    rcases execAccFeed_cases h with ⟨-, rfl⟩ | ⟨-, a, ⟨-, rfl⟩ | ⟨e, k, -, rfl⟩ | ⟨i, w, k, -, rfl⟩⟩
    · rfl
    all_goals exact s.invalidateAccWindow_params

/-- Settles O55: an instruction keeps the parameters by `exec_params`; an illegal command, rejected frame data and a
reset copy them. -/
theorem parametersNeverChange : Obligations.ParametersNeverChange := by
  intro s t h
  rcases step_cases h with ⟨-, rfl⟩ | ⟨inp, q, -, ⟨i, tail, -, hx⟩ | rfl | ⟨e, rfl⟩ | rfl⟩
  · rfl
  · exact (exec_params hx).trans (s.fetched_params q tail)
  · rfl
  · rfl
  · rfl

/-! ## The accumulator window (R320) -/

theorem State.invalidateAccWindow_dec_empty {s : State} (h : s.AccWindow) :
    s.invalidateAccWindow.dec.state = .empty := by
  rw [State.invalidateAccWindow, if_pos h]
  rfl

/-- An accumulator command that reports no frame leaves the frame handle empty behind an accumulator window. -/
theorem exec_acc_dec_empty {c : Instr} {s t : State} (hw : s.AccWindow) (hinit : s.acc.init = true)
    (hc : c = .accReset ∨ (∃ crc, c = .accInit crc) ∨ ∃ input, c = .accFeed input) (h : exec c s = .next t)
    (hno : ∀ i k, t.reply ≠ some (.ok (.instr i) k)) : t.dec.state = .empty := by
  have hempty := State.invalidateAccWindow_dec_empty hw
  rcases hc with rfl | ⟨crc, rfl⟩ | ⟨input, rfl⟩
  · rcases execAccReset_cases h with ⟨hu, -⟩ | ⟨-, rfl⟩
    · exact nomatch hu.symm.trans hinit
    · exact hempty
  · cases h
    exact hempty
  · rcases execAccFeed_cases h with ⟨hu, -⟩ | ⟨-, a, ⟨-, rfl⟩ | ⟨e, k, -, rfl⟩ | ⟨i, w, k, -, rfl⟩⟩
    · exact nomatch hu.symm.trans hinit
    · exact hempty
    · exact hempty
    · exact absurd rfl (hno i (.plain k))

/-- Settles O51: the frame handle is left empty, and DEC_TAKE needs a ready one. -/
theorem accumulatorWindowIsTakenBack : Obligations.AccumulatorWindowIsTakenBack := by
  intro s t c shape hw hinit hc h hno
  have hempty := exec_acc_dec_empty hw hinit hc h hno
  have hready : t.dec.state ≠ .ready := by simp [hempty]
  exact ⟨t.refuse .noWindow, execDecTake_refused hready, rfl⟩

end Sys2Proof.Machine
end
